-- ==== Sys2Proof/Word.lean ====
section
/-! DEFINITION. The widths of the values the block handles (`00_scope.md` R5, R7): every value is an
unsigned integer of a stated width, carried by a `BitVec` of exactly that width. -/

namespace Sys2Proof

/-- One byte of a block. -/
abbrev Byte := BitVec 8

/-- A 64-bit block, and any 64-bit register or port value (R5). -/
abbrev Block := BitVec 64

/-- A 48-bit round subkey (R5). -/
abbrev Subkey := BitVec 48

/-- A 28-bit half of the permuted key, `C` or `D` (R5). -/
abbrev KeyHalf := BitVec 28

/-- A 32-bit half of a block, `L` or `R` (R5). -/
abbrev Half := BitVec 32

/-- A 32-bit command word (R90). -/
abbrev CommandWord := BitVec 32

/-- The sixteen subkeys of a bank. `SK[k]` of the spec, `k` in 1 to 16, is entry `k - 1` (R31). -/
abbrev Bank := Vector Subkey 16

end Sys2Proof
end

