-- ==== Sys2Proof/Syntax.lean ====
section
/-! DEFINITION. The fourteen commands (`30_encoding.md` R93), one constructor a row of
`spec/opcode_table.json`. -/

namespace Sys2Proof

/-- A command of R93. The four commands that take an argument carry the eight bits of the field `arg`
as they stand (R92), legal or not: whether the argument is legal is `Instr.wf`, and what an illegal
one does is the command's own meaning (R96). -/
inductive Instr where
  /-- `PERM t`: `OPA` through permutation table `t` (R119). -/
  | perm (t : BitVec 8)
  /-- `KPERM1`: `C`, `D` from `KEY` (R138). -/
  | kperm1
  /-- `KROT k`: rotate `C`, `D` (R139). -/
  | krot (k : BitVec 8)
  /-- `KPERM2 k`: subkey `k` from `C`, `D` (R140). -/
  | kperm2 (k : BitVec 8)
  /-- `GENKEYS`: the sixteen subkeys of `KEY` (R141). -/
  | genkeys
  /-- `REVKEYS`: the bank reversed (R142). -/
  | revkeys
  /-- `SBOX`: the eight S-boxes on `OPA` (R156). -/
  | sbox
  /-- `FEISTEL`: the round function (R157). -/
  | feistel
  /-- `CALCR`: one round on the pair in `OPA` (R158). -/
  | calcr
  /-- `BLOCK`: one block with the bank as it stands (R179). -/
  | block
  /-- `ENCODE`: start a forward batch (R192). -/
  | encode
  /-- `DECODE`: start a reversed batch (R194). -/
  | decode
  /-- `PAD n`: pad the last block of `IN` (R212). -/
  | pad (n : BitVec 8)
  /-- `CNTPAD`: count the pad of the last block of `OUT` (R214). -/
  | cntpad
  deriving DecidableEq, Repr

/-- The pseudo-command `IPERM` (R102). -/
abbrev Instr.iperm : Instr := .perm 0
/-- The pseudo-command `FPERM` (R102). -/
abbrev Instr.fperm : Instr := .perm 1
/-- The pseudo-command `EXPAND` (R102). -/
abbrev Instr.expand : Instr := .perm 2
/-- The pseudo-command `PPERM` (R102). -/
abbrev Instr.pperm : Instr := .perm 3

end Sys2Proof
end

