-- ==== Sys2Proof/WellFormed.lean ====
section
/-! DEFINITION. Which commands have a legal argument (`30_encoding.md` R92). -/

namespace Sys2Proof

/-- The legal values of `arg` (R92): `PERM` 0 to 5, `KROT` and `KPERM2` 1 to 16, `PAD` 1 to 8. A command
without an argument is always well formed. -/
def Instr.wf : Instr → Bool
  | .perm t => decide (t.toNat ≤ 5)
  | .kperm1 => true
  | .krot k => decide (1 ≤ k.toNat ∧ k.toNat ≤ 16)
  | .kperm2 k => decide (1 ≤ k.toNat ∧ k.toNat ≤ 16)
  | .genkeys => true
  | .revkeys => true
  | .sbox => true
  | .feistel => true
  | .calcr => true
  | .block => true
  | .encode => true
  | .decode => true
  | .pad n => decide (1 ≤ n.toNat ∧ n.toNat ≤ 8)
  | .cntpad => true

end Sys2Proof
end

