-- ==== Sys2Proof/Decode.lean ====
section
/-! DEFINITION. The decoder and the encoder of command words (`30_encoding.md` R90 to R96, R101). -/

namespace Sys2Proof

/-- Field `op`, bits 7:0 (R91). -/
def opField (w : CommandWord) : BitVec 8 := w.extractLsb' 0 8

/-- Field `arg`, bits 15:8, used as it stands (R91, R92). -/
def argField (w : CommandWord) : BitVec 8 := w.extractLsb' 8 8

/-- Field `rsv`, bits 31:16 (R91). -/
def rsvField (w : CommandWord) : BitVec 16 := w.extractLsb' 16 16

/-- A row of the opcode map (R93): a word `w` selects it exactly when `w &&& mask = pattern`. -/
structure OpcodeRow where
  /-- The mnemonic, as `spec/opcode_table.json` has it. -/
  mnemonic : String
  /-- The column `match`. -/
  pattern : CommandWord
  /-- The column `mask`. -/
  mask : CommandWord
  /-- The command of a word of this row, from its field `arg`. -/
  build : BitVec 8 → Instr

/-- The mask of a row that takes an argument (R93). -/
def argMask : CommandWord := 0xFFFF00FF

/-- The mask of a row that takes none (R93). -/
def fullMask : CommandWord := 0xFFFFFFFF

/-- The opcode map, row by row (R93). -/
def opcodeMap : List OpcodeRow := [
  ⟨"PERM",    0x00000010, argMask,  fun a => .perm a⟩,
  ⟨"KPERM1",  0x00000020, fullMask, fun _ => .kperm1⟩,
  ⟨"KROT",    0x00000021, argMask,  fun a => .krot a⟩,
  ⟨"KPERM2",  0x00000022, argMask,  fun a => .kperm2 a⟩,
  ⟨"GENKEYS", 0x00000023, fullMask, fun _ => .genkeys⟩,
  ⟨"REVKEYS", 0x00000024, fullMask, fun _ => .revkeys⟩,
  ⟨"SBOX",    0x00000030, fullMask, fun _ => .sbox⟩,
  ⟨"FEISTEL", 0x00000031, fullMask, fun _ => .feistel⟩,
  ⟨"CALCR",   0x00000032, fullMask, fun _ => .calcr⟩,
  ⟨"BLOCK",   0x00000040, fullMask, fun _ => .block⟩,
  ⟨"ENCODE",  0x00000050, fullMask, fun _ => .encode⟩,
  ⟨"DECODE",  0x00000051, fullMask, fun _ => .decode⟩,
  ⟨"PAD",     0x00000060, argMask,  fun a => .pad a⟩,
  ⟨"CNTPAD",  0x00000061, fullMask, fun _ => .cntpad⟩]

/-- Whether word `w` selects row `r` (R93). -/
def selects (w : CommandWord) (r : OpcodeRow) : Bool := w &&& r.mask == r.pattern

/-- Why a word is illegal (R95). -/
inductive IllegalWord where
  /-- `rsv` is not 0. -/
  | reservedBits
  /-- A command that takes no argument, written with `arg` not 0. -/
  | argumentNotZero
  /-- No command has this `op`. -/
  | unknownOpcode
  deriving DecidableEq, Repr

/-- The three answers of the decoder (R94). -/
inductive Decoded where
  /-- A command with a legal argument. -/
  | command (i : Instr)
  /-- A command whose argument is out of range (R96). -/
  | badArgument (i : Instr)
  /-- No command (R95). -/
  | illegal (why : IllegalWord)
  deriving DecidableEq, Repr

/-- The name of the reason a word that selects no row is illegal (R95). -/
def illegalReason (w : CommandWord) : IllegalWord :=
  if rsvField w ≠ 0 then .reservedBits
  else if opcodeMap.any (fun r => opField w == opField r.pattern) then .argumentNotZero
  else .unknownOpcode

/-- The decoder: total, and a function of the word alone (R94). -/
def decodeWord (w : CommandWord) : Decoded :=
  match opcodeMap.find? (selects w) with
  | some r => if (r.build (argField w)).wf then .command (r.build (argField w)) else .badArgument (r.build (argField w))
  | none => .illegal (illegalReason w)

/-- The command a decoder answer names, with a legal argument or not; none for an illegal word. -/
def Decoded.instr? : Decoded → Option Instr
  | .command i => some i
  | .badArgument i => some i
  | .illegal _ => none

/-- The word `op | (arg << 8)` (R101), with `rsv` = 0 (R91). -/
def formatC (op arg : BitVec 8) : CommandWord := 0#16 ++ arg ++ op

/-- The encoder: the opcode values of R93 in format C (R91). -/
def encodeWord : Instr → CommandWord
  | .perm t => formatC 0x10 t
  | .kperm1 => formatC 0x20 0
  | .krot k => formatC 0x21 k
  | .kperm2 k => formatC 0x22 k
  | .genkeys => formatC 0x23 0
  | .revkeys => formatC 0x24 0
  | .sbox => formatC 0x30 0
  | .feistel => formatC 0x31 0
  | .calcr => formatC 0x32 0
  | .block => formatC 0x40 0
  | .encode => formatC 0x50 0
  | .decode => formatC 0x51 0
  | .pad n => formatC 0x60 n
  | .cntpad => formatC 0x61 0

/-- The command word whose low `nbits` bits are those of `w`, every bit above them 0. A command is one
32-bit word (R90) that the host hands over whole through the port, so no byte order enters. -/
def tableWord (nbits w : Nat) : CommandWord := BitVec.ofNat 32 (w % 2 ^ nbits)

/-- The command the decoder reads from an opcode-table word, with a legal argument or not (R94). -/
def decodeTableWord (nbits w : Nat) : Option Instr := (decodeWord (tableWord nbits w)).instr?

end Sys2Proof
end

