-- ==== Sys2Proof/Config.lean ====
section
/-! DEFINITION. What an implementation fixes (`00_scope.md` R6) and the values the spec leaves open
(`any(n)` of R13; `93_implementation_defined.md` U1, U2). -/

namespace Sys2Proof

/-- How many block tasks may be in `T_RUN` together: the spec's `NLANES`, "1 or more" (R6), which a
model may also take unbounded (R195). -/
inductive Lanes where
  /-- No limit. -/
  | unbounded
  /-- `NLANES = extra + 1`, so that `NLANES` is at least 1. -/
  | bounded (extra : Nat)
  deriving DecidableEq, Repr

/-- The two open parameters of the block (R6, `92_eei_decisions.md` D11, D12). They are arguments of
the model, not state of the block (R41): no step writes them. -/
structure Params where
  /-- The last index of `IN` and of `OUT`: `MAXBLOCKS - 1`. Its type makes `MAXBLOCKS` 1 to 65536. -/
  lastBlock : Fin 65536
  /-- `NLANES`. -/
  lanes : Lanes
  deriving DecidableEq, Repr

/-- `MAXBLOCKS` (R6). -/
def Params.maxBlocks (p : Params) : Nat := p.lastBlock.val + 1

/-- The two block memories (R34, R35). -/
inductive BlockArray where
  /-- `IN`. -/
  | input
  /-- `OUT`. -/
  | output
  deriving DecidableEq, Repr

/-- FREE VALUE. The byte that address `addr` of a block array holds when nothing has written it since
the last reset (R44, U1). It has no body, so nothing can be proved of it. The second argument counts
the resets so far, so two reads between the same two resets agree (U1), and nothing ties the contents
before a reset to the contents after it. Log entry 3. -/
opaque Config.unwrittenByte : BlockArray → (resets : Nat) → (addr : Nat) → Byte

/-- FREE VALUE. What the port returns for a read of any index but `STATUS` while `BUSY` is 1 (R70, U2).
It has no body. Its argument counts such reads, so that two of them need not agree. Log entry 4. -/
opaque Config.busyRead : (readsSoFar : Nat) → Block

end Sys2Proof
end

