-- ==== Sys2Proof/Machine/Bits.lean ====
section
/-! DEFINITION. The bit, byte and rotation primitives of `00_scope.md` R8 to R12. -/

namespace Sys2Proof.Machine

/-- `dbit(s, n, i)`: the bit at DES index `i`, counted from 0 at the most significant end (R8). -/
def dbit {n : Nat} (s : BitVec n) (i : Nat) : Bool := s.getMsbD i

/-- `byte(b, j) = b[63 - 8*j : 56 - 8*j]` (R10). -/
def byteOf (b : Block) (j : Fin 8) : Byte := b.extractLsb' (56 - 8 * j.val) 8

/-- The block whose bytes 0 to 7 are given, byte 0 most significant (R63). -/
def blockOfBytes (f : Fin 8 → Byte) : Block :=
  f 0 ++ f 1 ++ f 2 ++ f 3 ++ f 4 ++ f 5 ++ f 6 ++ f 7

/-- The permutation primitive: DES bit `i` of the result is DES bit `T[i]` of the input (R11, R110).
The bound on the entries (R112) is carried by their type. -/
def permutate {nIn nOut : Nat} (s : BitVec nIn) (table : Vector (Fin nIn) nOut) : BitVec nOut :=
  BitVec.ofFnBE fun i => dbit s table[i].val

/-- The 28-bit rotation to the left, for amounts 0 to 28 (R12, U23). -/
def rol28 (v : KeyHalf) (s : Fin 29) : KeyHalf := v <<< s.val ||| v >>> (28 - s.val)

end Sys2Proof.Machine
end

