-- ==== Sys2Proof/Machine/Tables.lean ====
section
/-! DEFINITION. The constant tables: the six permutation tables (`40_permutation_engine.md` R113 to R118),
the eight S-boxes (`42_feistel_round.md` R150) and the shift schedule (`41_key_schedule.md` R131). They
are constants, not state (R41). Their contents are the spec's general knowledge (log entry 13). -/

namespace Sys2Proof.Machine

/-- Table IP, DES indices counted from 0 (R113). -/
def tableIP : Vector (Fin 64) 64 := #v[
  57, 49, 41, 33, 25, 17,  9,  1,
  59, 51, 43, 35, 27, 19, 11,  3,
  61, 53, 45, 37, 29, 21, 13,  5,
  63, 55, 47, 39, 31, 23, 15,  7,
  56, 48, 40, 32, 24, 16,  8,  0,
  58, 50, 42, 34, 26, 18, 10,  2,
  60, 52, 44, 36, 28, 20, 12,  4,
  62, 54, 46, 38, 30, 22, 14,  6]

/-- Table IPINV (IP⁻¹), DES indices counted from 0 (R114). -/
def tableIPINV : Vector (Fin 64) 64 := #v[
  39,  7, 47, 15, 55, 23, 63, 31,
  38,  6, 46, 14, 54, 22, 62, 30,
  37,  5, 45, 13, 53, 21, 61, 29,
  36,  4, 44, 12, 52, 20, 60, 28,
  35,  3, 43, 11, 51, 19, 59, 27,
  34,  2, 42, 10, 50, 18, 58, 26,
  33,  1, 41,  9, 49, 17, 57, 25,
  32,  0, 40,  8, 48, 16, 56, 24]

/-- Table E, DES indices counted from 0 (R115). -/
def tableE : Vector (Fin 32) 48 := #v[
  31,  0,  1,  2,  3,  4,
   3,  4,  5,  6,  7,  8,
   7,  8,  9, 10, 11, 12,
  11, 12, 13, 14, 15, 16,
  15, 16, 17, 18, 19, 20,
  19, 20, 21, 22, 23, 24,
  23, 24, 25, 26, 27, 28,
  27, 28, 29, 30, 31,  0]

/-- Table P, DES indices counted from 0 (R116). -/
def tableP : Vector (Fin 32) 32 := #v[
  15,  6, 19, 20,
  28, 11, 27, 16,
   0, 14, 22, 25,
   4, 17, 30,  9,
   1,  7, 23, 13,
  31, 26,  2,  8,
  18, 12, 29,  5,
  21, 10,  3, 24]

/-- Table PC1 (PC-1), DES indices counted from 0 (R117). -/
def tablePC1 : Vector (Fin 64) 56 := #v[
  56, 48, 40, 32, 24, 16,  8,
   0, 57, 49, 41, 33, 25, 17,
   9,  1, 58, 50, 42, 34, 26,
  18, 10,  2, 59, 51, 43, 35,
  62, 54, 46, 38, 30, 22, 14,
   6, 61, 53, 45, 37, 29, 21,
  13,  5, 60, 52, 44, 36, 28,
  20, 12,  4, 27, 19, 11,  3]

/-- Table PC2 (PC-2), DES indices counted from 0 (R118). -/
def tablePC2 : Vector (Fin 56) 48 := #v[
  13, 16, 10, 23,  0,  4,
   2, 27, 14,  5, 20,  9,
  22, 18, 11,  3, 25,  7,
  15,  6, 26, 19, 12,  1,
  40, 51, 30, 36, 46, 54,
  29, 39, 50, 44, 32, 47,
  43, 48, 38, 55, 33, 52,
  45, 41, 49, 35, 28, 31]

/-- The six tables a `PERM` command can select (R92, R111). -/
inductive PermTable where
  /-- IP. -/
  | ip
  /-- IP⁻¹. -/
  | ipinv
  /-- E. -/
  | e
  /-- P. -/
  | p
  /-- PC-1. -/
  | pc1
  /-- PC-2. -/
  | pc2
  deriving DecidableEq, Repr

/-- `n_in` of a table (R111). -/
def tableInWidth : PermTable → Nat
  | .ip => 64
  | .ipinv => 64
  | .e => 32
  | .p => 32
  | .pc1 => 64
  | .pc2 => 56

/-- `n_out` of a table (R111). -/
def tableOutWidth : PermTable → Nat
  | .ip => 64
  | .ipinv => 64
  | .e => 48
  | .p => 32
  | .pc1 => 56
  | .pc2 => 48

/-- The entries of a table (R113 to R118). -/
def tableEntries : (t : PermTable) → Vector (Fin (tableInWidth t)) (tableOutWidth t)
  | .ip => tableIP
  | .ipinv => tableIPINV
  | .e => tableE
  | .p => tableP
  | .pc1 => tablePC1
  | .pc2 => tablePC2

/-- An S-box: `S[row][col]`, rows 0 to 3, columns 0 to 15 (R150). -/
abbrev SBox := Vector (Vector (BitVec 4) 16) 4

/-- S1 (R150). -/
def sboxS1 : SBox := #v[
  #v[14,  4, 13,  1,  2, 15, 11,  8,  3, 10,  6, 12,  5,  9,  0,  7],
  #v[ 0, 15,  7,  4, 14,  2, 13,  1, 10,  6, 12, 11,  9,  5,  3,  8],
  #v[ 4,  1, 14,  8, 13,  6,  2, 11, 15, 12,  9,  7,  3, 10,  5,  0],
  #v[15, 12,  8,  2,  4,  9,  1,  7,  5, 11,  3, 14, 10,  0,  6, 13]]

/-- S2 (R150). -/
def sboxS2 : SBox := #v[
  #v[15,  1,  8, 14,  6, 11,  3,  4,  9,  7,  2, 13, 12,  0,  5, 10],
  #v[ 3, 13,  4,  7, 15,  2,  8, 14, 12,  0,  1, 10,  6,  9, 11,  5],
  #v[ 0, 14,  7, 11, 10,  4, 13,  1,  5,  8, 12,  6,  9,  3,  2, 15],
  #v[13,  8, 10,  1,  3, 15,  4,  2, 11,  6,  7, 12,  0,  5, 14,  9]]

/-- S3 (R150). -/
def sboxS3 : SBox := #v[
  #v[10,  0,  9, 14,  6,  3, 15,  5,  1, 13, 12,  7, 11,  4,  2,  8],
  #v[13,  7,  0,  9,  3,  4,  6, 10,  2,  8,  5, 14, 12, 11, 15,  1],
  #v[13,  6,  4,  9,  8, 15,  3,  0, 11,  1,  2, 12,  5, 10, 14,  7],
  #v[ 1, 10, 13,  0,  6,  9,  8,  7,  4, 15, 14,  3, 11,  5,  2, 12]]

/-- S4 (R150). -/
def sboxS4 : SBox := #v[
  #v[ 7, 13, 14,  3,  0,  6,  9, 10,  1,  2,  8,  5, 11, 12,  4, 15],
  #v[13,  8, 11,  5,  6, 15,  0,  3,  4,  7,  2, 12,  1, 10, 14,  9],
  #v[10,  6,  9,  0, 12, 11,  7, 13, 15,  1,  3, 14,  5,  2,  8,  4],
  #v[ 3, 15,  0,  6, 10,  1, 13,  8,  9,  4,  5, 11, 12,  7,  2, 14]]

/-- S5 (R150). -/
def sboxS5 : SBox := #v[
  #v[ 2, 12,  4,  1,  7, 10, 11,  6,  8,  5,  3, 15, 13,  0, 14,  9],
  #v[14, 11,  2, 12,  4,  7, 13,  1,  5,  0, 15, 10,  3,  9,  8,  6],
  #v[ 4,  2,  1, 11, 10, 13,  7,  8, 15,  9, 12,  5,  6,  3,  0, 14],
  #v[11,  8, 12,  7,  1, 14,  2, 13,  6, 15,  0,  9, 10,  4,  5,  3]]

/-- S6 (R150). -/
def sboxS6 : SBox := #v[
  #v[12,  1, 10, 15,  9,  2,  6,  8,  0, 13,  3,  4, 14,  7,  5, 11],
  #v[10, 15,  4,  2,  7, 12,  9,  5,  6,  1, 13, 14,  0, 11,  3,  8],
  #v[ 9, 14, 15,  5,  2,  8, 12,  3,  7,  0,  4, 10,  1, 13, 11,  6],
  #v[ 4,  3,  2, 12,  9,  5, 15, 10, 11, 14,  1,  7,  6,  0,  8, 13]]

/-- S7 (R150). -/
def sboxS7 : SBox := #v[
  #v[ 4, 11,  2, 14, 15,  0,  8, 13,  3, 12,  9,  7,  5, 10,  6,  1],
  #v[13,  0, 11,  7,  4,  9,  1, 10, 14,  3,  5, 12,  2, 15,  8,  6],
  #v[ 1,  4, 11, 13, 12,  3,  7, 14, 10, 15,  6,  8,  0,  5,  9,  2],
  #v[ 6, 11, 13,  8,  1,  4, 10,  7,  9,  5,  0, 15, 14,  2,  3, 12]]

/-- S8 (R150). -/
def sboxS8 : SBox := #v[
  #v[13,  2,  8,  4,  6, 15, 11,  1, 10,  9,  3, 14,  5,  0, 12,  7],
  #v[ 1, 15, 13,  8, 10,  3,  7,  4, 12,  5,  6, 11,  0, 14,  9,  2],
  #v[ 7, 11,  4,  1,  9, 12, 14,  2,  0,  6, 10, 13, 15,  3,  5,  8],
  #v[ 2,  1, 14,  7,  4, 10,  8, 13, 15, 12,  9,  0,  3,  5,  6, 11]]

/-- The eight S-boxes; entry `j - 1` is `S_j` (R150). -/
def sboxTables : Vector SBox 8 := #v[sboxS1, sboxS2, sboxS3, sboxS4, sboxS5, sboxS6, sboxS7, sboxS8]

/-- The shift schedule; entry `k - 1` is `SHIFT[k]` (R131). -/
def shiftSchedule : Vector (Fin 29) 16 := #v[1, 1, 2, 2, 2, 2, 2, 2, 1, 2, 2, 2, 2, 2, 2, 1]

end Sys2Proof.Machine
end

