-- ==== Sys2Proof/Machine/Cipher.lean ====
section
/-! DEFINITION. The pure functions of the cipher (R15): the key schedule (`41_key_schedule.md`), the round
(`42_feistel_round.md`), the kernel (`43_block_kernel.md`), the array functions (`44_block_array_driver.md`)
and the padding codec (`45_padding_codec.md`). Each is a total function of its arguments alone. -/

namespace Sys2Proof.Machine

/-! ## Key schedule -/

/-- `key_permutation_first`: PC-1 of the key, split into `(C0, D0)`, `C0` the more significant (R130). -/
def keyPermutationFirst (key : Block) : KeyHalf × KeyHalf :=
  let x := permutate key tablePC1
  (x.extractLsb' 28 28, x.extractLsb' 0 28)

/-- One rotation step: both halves, each within its own 28 bits (R132). -/
def rotateHalves (cd : KeyHalf × KeyHalf) (s : Fin 29) : KeyHalf × KeyHalf :=
  (rol28 cd.1 s, rol28 cd.2 s)

/-- `key_permutation_second`: PC-2 of `c || d` (R133). -/
def keyPermutationSecond (c d : KeyHalf) : Subkey := permutate (c ++ d) tablePC2

/-- `(C_k, D_k)`: the halves after the first `k` rounds of the schedule (R132). The rotations accumulate
(R134). -/
def halvesAfter (key : Block) (k : Nat) : KeyHalf × KeyHalf :=
  (shiftSchedule.toList.take k).foldl rotateHalves (keyPermutationFirst key)

/-- `generate_subkeys`: entry `k - 1` is `subkey[k]`, PC-2 of `(C_k, D_k)` (R134). -/
def generateSubkeys (key : Block) : Bank :=
  Vector.ofFn fun k =>
    let cd := halvesAfter key (k.val + 1)
    keyPermutationSecond cd.1 cd.2

/-- `reverse_order`: `result[k] = sk[17 - k]` (R135). -/
def reverseOrder (sk : Bank) : Bank := Vector.ofFn fun k => sk[k.rev]

/-! ## The round -/

/-- One S-box lookup, box `j + 1`: the outer bits of the chunk are the row, the inner four the column
(R151). -/
def sbox (j : Fin 8) (chunk : BitVec 6) : BitVec 4 :=
  let row : BitVec 2 := chunk.extractLsb' 5 1 ++ chunk.extractLsb' 0 1
  let col : BitVec 4 := chunk.extractLsb' 1 4
  sboxTables[j][row.toFin][col.toFin]

/-- Chunk `j + 1` of a 48-bit value: `x[53 - 6*(j+1) : 48 - 6*(j+1)]`, chunk 1 the most significant six
bits (R152). -/
def sboxChunk (x : Subkey) (j : Fin 8) : BitVec 6 := x.extractLsb' (42 - 6 * j.val) 6

/-- The output of S-box `j + 1` on its own chunk of `x` (R152). -/
def sboxNibble (x : Subkey) (j : Fin 8) : BitVec 4 := sbox j (sboxChunk x j)

/-- `sbox_sub`: the eight chunks through the eight boxes, the output of `S1` most significant (R152). -/
def sboxSub (x : Subkey) : Half :=
  sboxNibble x 0 ++ sboxNibble x 1 ++ sboxNibble x 2 ++ sboxNibble x 3 ++
  sboxNibble x 4 ++ sboxNibble x 5 ++ sboxNibble x 6 ++ sboxNibble x 7

/-- `feistel`: E, exclusive-or with the subkey, the S-boxes, P (R153). -/
def feistel (r : Half) (subkey : Subkey) : Half :=
  permutate (sboxSub (permutate r tableE ^^^ subkey)) tableP

/-- `calculate_r` (R154). -/
def calculateR (prevL prevR : Half) (subkey : Subkey) : Half := prevL ^^^ feistel prevR subkey

/-- One round: the new left half is the old right half (R154, R172). -/
def roundStep (lr : Half × Half) (subkey : Subkey) : Half × Half :=
  (lr.2, calculateR lr.1 lr.2 subkey)

/-! ## The kernel -/

/-- `ip_split`: IP, then the halves `(L0, R0)`, `L0` the more significant (R171). -/
def ipSplit (b : Block) : Half × Half :=
  let x := permutate b tableIP
  (x.extractLsb' 32 32, x.extractLsb' 0 32)

/-- `final`: IP⁻¹ of the pre-output `R16 || L16` (R173). -/
def finalPermutation (lr : Half × Half) : Block := permutate (lr.2 ++ lr.1) tableIPINV

/-- `(L_k, R_k)`: the halves after the first `k` rounds (R172). -/
def roundsAfter (sk : Bank) (b : Block) (k : Nat) : Half × Half :=
  (sk.toList.take k).foldl roundStep (ipSplit b)

/-- `des_block`: IP, sixteen rounds in bank order, the final permutation (R170). -/
def desBlock (sk : Bank) (b : Block) : Block := finalPermutation (roundsAfter sk b 16)

/-! ## The arrays -/

/-- The two orders a bank is generated in (R193). -/
inductive Direction where
  /-- Round 1 to 16: ENCODE. -/
  | forward
  /-- Round 16 to 1: DECODE. -/
  | reversed
  deriving DecidableEq, Repr

/-- The bank of a key in a given order (R193). -/
def bankOf (key : Block) : Direction → Bank
  | .forward => generateSubkeys key
  | .reversed => reverseOrder (generateSubkeys key)

/-- `encode`: each block alone, under one bank (R190). -/
def encodeBlocks (blocks : List Block) (key : Block) : List Block :=
  blocks.map (desBlock (bankOf key .forward))

/-- `decode`: the same with the bank reversed (R191). -/
def decodeBlocks (blocks : List Block) (key : Block) : List Block :=
  blocks.map (desBlock (bankOf key .reversed))

/-! ## The padding codec -/

/-- `pkcs5_padding`: the last `n` bytes become the byte `n` (R210). The spec defines it for `n` 1 to 8. -/
def pkcs5Padding (b : Block) (n : Nat) : Block :=
  blockOfBytes fun j => if 8 - n ≤ j.val then BitVec.ofNat 8 n else byteOf b j

/-- `count_padding_bytes`, strict: the last byte `N` when it is 1 to 8 and the last `N` bytes all equal
it; none is `PadInvalid` (R211). -/
def countPaddingBytes (last : Block) : Option Nat :=
  let n := (byteOf last 7).toNat
  if n < 1 ∨ n > 8 then none
  else if (List.finRange 8).all (fun j => decide (j.val < 8 - n) || byteOf last j == byteOf last 7) then some n
  else none

end Sys2Proof.Machine
end

