-- ==== Sys2Proof/Machine/ResetParams.lean ====
section
/-! DEFINITION. The open parameters that `State.reset` carries (log entry 1). -/

namespace Sys2Proof.Machine

/-- DESIGN CHOICE (log entry 1): `MAXBLOCKS` = 4, the value of the spec's own vectors V13, V14 and
program P6, and `NLANES` unbounded. The spec leaves both open (R6), so no statement rests on this
value: each holds for every value of the field. -/
def resetParams : Params := { lastBlock := 3, lanes := .unbounded }

end Sys2Proof.Machine
end

