-- ==== Sys2Proof/Machine/State.lean ====
section
/-! DEFINITION. The state of the block (`10_state.md` R20 to R44), the outside world that drives it, and
the reset state. -/

namespace Sys2Proof.Machine

/-- `PH`, the controller's phase (R37). -/
inductive Phase where
  /-- `IDLE`: no command in progress. -/
  | idle
  /-- `EXEC`: a command has been accepted and CTRL has not run it. -/
  | exec
  /-- `BATCH`: CTRL waits for the tasks of an ENCODE or DECODE. -/
  | batch
  deriving DecidableEq, Repr

/-- `TS[i]`, the state of a task (R36). -/
inductive TaskPhase where
  /-- `T_IDLE`. -/
  | idle
  /-- `T_PEND`. -/
  | pending
  /-- `T_RUN`. -/
  | running
  /-- `T_FIN`. -/
  | finished
  deriving DecidableEq, Repr

/-- The state of one task (R36). -/
structure Task where
  /-- `TS[i]`. -/
  ts : TaskPhase
  /-- `L[i]`. -/
  l : Half
  /-- `R[i]`. -/
  r : Half
  /-- `RND[i]`, 0 to 16. -/
  rnd : Fin 17
  deriving DecidableEq, Repr

/-- The task state of every index after reset (R36, R44). -/
def Task.reset : Task := { ts := .idle, l := 0, r := 0, rnd := 0 }

/-- A block memory by bytes: byte `j` of entry `i` is at address `8 * i + j` (R10, R64). Addresses are
strictly rising; an address that is not listed has been written by nothing since reset. -/
abbrev Memory := List Host.Cell

/-- The task states by block index, strictly rising, with no entry equal to `Task.reset`, which is what
an index that is not listed holds. -/
abbrev TaskBank := List (Nat × Task)

/-- The agents (R14). -/
inductive Agent where
  /-- `HOST`, with the platform's reset. -/
  | host
  /-- `CTRL`. -/
  | ctrl
  /-- `TASK(i)`. -/
  | task (i : Nat)
  deriving DecidableEq, Repr

/-- What the outside world does to the block: the two accesses of the host port (R60), the polling loop
`WAIT` of a host script (R103) and the platform's reset (R260). -/
inductive HostEvent where
  /-- `HostRead(idx)`. -/
  | read (idx : Nat)
  /-- `HostWrite(idx, v)`. -/
  | write (idx : Nat) (v : Block)
  /-- `WAIT`: read `STATUS` until `DONE` reads 1. Each poll is a step of its own. -/
  | wait
  /-- Reset is applied. -/
  | reset
  deriving DecidableEq, Repr

/-- A value the port has returned to the host. -/
structure HostReply where
  /-- The index read. -/
  idx : Nat
  /-- What `HostRead(idx)` returned. -/
  value : Block
  deriving DecidableEq, Repr

/-- THE MODEL'S OWN FIELDS: none of them is state of the block (R20). They are the open parameters, the
world outside, the order in which agents step, and the counters of the free values. -/
structure Env where
  /-- `MAXBLOCKS` and `NLANES`, the model's arguments (R6, R41). No step writes them. -/
  params : Params
  /-- The events the outside world has still to perform, in order (R60, R71). -/
  pending : List HostEvent
  /-- What the port has returned, latest first. -/
  seen : List HostReply
  /-- Which agent is offered each coming step (R14, R195: the spec fixes no order). Log entry 2. -/
  sched : List Agent
  /-- How many resets there have been: the argument of `Config.unwrittenByte`. -/
  resets : Nat
  /-- How many reads returned `any(64)`: the argument of `Config.busyRead`. -/
  anyReads : Nat
  deriving DecidableEq, Repr

/-- The state of the block, item by item of R20, and `env`, the model's own. `STATUS`, `BUSY`, `SKVALID`
and `CD` are views of it (R23, R24, R26, R32). -/
structure State where
  /-- `KEY`, the master key (R21). -/
  key : Block
  /-- `CMD`, the last accepted command word (R22). -/
  cmd : CommandWord
  /-- `DONE` (R25). -/
  done : Bool
  /-- `SKREV` (R27). -/
  skrev : Bool
  /-- `STICKY` (R28). -/
  sticky : Bool
  /-- `ERR` (R29). -/
  err : BitVec 8
  /-- `SKW`: bit `k - 1` is set when `SK[k]` has been written since reset (R26). -/
  skw : BitVec 16
  /-- `COUNT` (R30). -/
  count : BitVec 32
  /-- `SK[1]` to `SK[16]`, entry `k - 1` being `SK[k]` (R31). -/
  sk : Bank
  /-- `C` (R32). -/
  c : KeyHalf
  /-- `D` (R32). -/
  d : KeyHalf
  /-- `OPA` (R39). -/
  opa : Block
  /-- `OPB` (R39). -/
  opb : Block
  /-- `RES` (R40). -/
  res : Block
  /-- `IN` (R34). -/
  inArr : Memory
  /-- `OUT` (R35). -/
  outArr : Memory
  /-- `TS[i]`, `L[i]`, `R[i]`, `RND[i]` (R36). -/
  tasks : TaskBank
  /-- `PH` (R37). -/
  ph : Phase
  /-- The model's own fields. -/
  env : Env
  deriving DecidableEq, Repr

/-- The ways the machine could stop with a fault. There are none: "Nothing in this block is ever `stuck`"
(`93_implementation_defined.md`, R247); every error of the spec is an error code posted in `STATUS`, a
next state (R236). -/
inductive Fault where
  deriving DecidableEq, Repr

/-- Why a step may be refused. -/
inductive Refusal where
  /-- An instruction with no meaning in the model yet, by its mnemonic. Raised only by a refused arm of
  `exec`, of which there is none. Safe: nothing can be proved of a run past it. -/
  | notModelled (mnemonic : String)
  deriving DecidableEq, Repr

/-- The reset values of the model's own fields: no event is pending, nothing has been returned, no agent
has been given precedence (log entries 1, 2, 4, 7, 9). -/
def Env.reset : Env :=
  { params := resetParams, pending := [], seen := [], sched := [], resets := 0, anyReads := 0 }

/-- The state right after reset (R44, R260): every register and flag 0, `PH` = `IDLE`, every task idle,
and no entry of `IN` or `OUT` written. -/
def State.reset : State where
  key := 0
  cmd := 0
  done := false
  skrev := false
  sticky := false
  err := 0
  skw := 0
  count := 0
  sk := Vector.replicate 16 0
  c := 0
  d := 0
  opa := 0
  opb := 0
  res := 0
  inArr := []
  outArr := []
  tasks := []
  ph := .idle
  env := Env.reset

end Sys2Proof.Machine
end

