-- ==== Sys2Proof/Machine/Flags.lean ====
section
/-! DEFINITION. The flags, the error codes and the register `STATUS` (`10_state.md` R23 to R29,
`60_exceptions.md` R230). -/

namespace Sys2Proof.Machine

/-- `BUSY`: 1 exactly when `PH` is not `IDLE` (R24). -/
def busy (s : State) : Bool :=
  match s.ph with
  | .idle => false
  | .exec => true
  | .batch => true

/-- The written mask of a full bank (R26). -/
def fullBankMask : BitVec 16 := 0xFFFF

/-- `SKVALID`: 1 exactly when `SKW = 0xFFFF` (R26). -/
def skvalid (s : State) : Bool := s.skw == fullBankMask

/-- One bit of `STATUS`. -/
def flagBit (b : Bool) : BitVec 1 := BitVec.ofBool b

/-- `STATUS`, assembled from the state at the moment of the read (R23): `SKW` 31:16, `ERR` 15:8, zeros
7:5, `STICKY` 4, `SKREV` 3, `SKVALID` 2, `DONE` 1, `BUSY` 0. -/
def statusWord (s : State) : BitVec 32 :=
  s.skw ++ s.err ++ 0#3 ++ flagBit s.sticky ++ flagBit s.skrev ++ flagBit (skvalid s) ++
  flagBit s.done ++ flagBit (busy s)

/-- The error causes (R230). -/
inductive ErrCause where
  /-- `ERR_ILLEGAL` (R237). -/
  | illegal
  /-- `ERR_OPERAND` (R238). -/
  | operand
  /-- `ERR_COUNT` (R232). -/
  | count
  /-- `ERR_ALLOC` (R233). -/
  | alloc
  /-- `ERR_NOKEYS` (R234). -/
  | nokeys
  /-- `ERR_PAD` (R235). -/
  | pad
  deriving DecidableEq, Repr

/-- The error codes; 0 is `OK` (R230). -/
def errCode : ErrCause → BitVec 8
  | .illegal => 1
  | .operand => 2
  | .count => 3
  | .alloc => 4
  | .nokeys => 5
  | .pad => 6

/-- `SKW` with the bit of entry `k` set, `k` counted from 0 (R26, R140). -/
def markWritten (skw : BitVec 16) (k : Fin 16) : BitVec 16 := skw ||| 1#16 <<< k.val

end Sys2Proof.Machine
end

