-- ==== Sys2Proof/Machine/Ops.lean ====
section
/-! DEFINITION. The shared operations over the block memories, the tasks and the subkey bank, and the two
ways a command ends: without error (R98) and by posting one (R236). -/

namespace Sys2Proof.Machine

/-! ## Sparse lists with rising keys -/

/-- What a sparse list holds at a key, if it lists it. -/
def lookupCell {α : Type} : List (Nat × α) → Nat → Option α
  | [], _ => none
  | (a, v) :: m, k => if a = k then some v else lookupCell m k

/-- The list with `v` at key `k`, keys still rising. -/
def storeCell {α : Type} : List (Nat × α) → Nat → α → List (Nat × α)
  | [], k, v => [(k, v)]
  | (a, w) :: m, k, v =>
    if k < a then (k, v) :: (a, w) :: m
    else if k = a then (k, v) :: m
    else (a, w) :: storeCell m k v

/-- The list without key `k`. -/
def dropCell {α : Type} (m : List (Nat × α)) (k : Nat) : List (Nat × α) := m.filter fun e => e.1 ≠ k

/-- Strictly rising keys: no key twice, one order. -/
abbrev RisingKeys {α : Type} (m : List (Nat × α)) : Prop := m.Pairwise fun a b => a.1 < b.1

/-! ## The block memories -/

/-- The canonical form of a memory. An address that is not listed holds no known value, so no entry can
equal what it reads as, and rising addresses make the form unique. -/
abbrev Memory.wf (m : Memory) : Prop := RisingKeys m

/-- The memory of an array. -/
def arrayOf (s : State) : BlockArray → Memory
  | .input => s.inArr
  | .output => s.outArr

/-- The state with the memory of an array replaced. -/
def withArray (s : State) (a : BlockArray) (m : Memory) : State :=
  match a with
  | .input => { s with inArr := m }
  | .output => { s with outArr := m }

/-- What an address that nothing has written since reset reads as: the free value of R44 and U1. -/
def unlistedByte (s : State) (a : BlockArray) (addr : Nat) : Byte :=
  Config.unwrittenByte a s.env.resets addr

/-- The byte at an address of an array. -/
def readByte (s : State) (a : BlockArray) (addr : Nat) : Byte :=
  (lookupCell (arrayOf s a) addr).getD (unlistedByte s a addr)

/-- The state with one byte of an array written. -/
def writeByte (s : State) (a : BlockArray) (addr : Nat) (v : Byte) : State :=
  withArray s a (storeCell (arrayOf s a) addr v)

/-- The address of byte `j` of entry `i`, `A[i].j` (R64). -/
def byteAddr (i : Nat) (j : Fin 8) : Nat := 8 * i + j.val

/-- `MemRead(A[i].j, 1)` (R64). -/
def readEntryByte (s : State) (a : BlockArray) (i : Nat) (j : Fin 8) : Byte := readByte s a (byteAddr i j)

/-- `MemWrite(A[i].j, 1, v)` (R64). -/
def writeEntryByte (s : State) (a : BlockArray) (i : Nat) (j : Fin 8) (v : Byte) : State :=
  writeByte s a (byteAddr i j) v

/-- `MemRead(A[i], 8)`, byte 0 most significant (R63, R64). -/
def readEntry (s : State) (a : BlockArray) (i : Nat) : Block := blockOfBytes (readEntryByte s a i)

/-- The bytes of entry `i` whose number is in `js` written from `f`, one after another. -/
def writeEntryBytes (s : State) (a : BlockArray) (i : Nat) (f : Fin 8 → Byte) (js : List (Fin 8)) : State :=
  js.foldl (fun t j => writeEntryByte t a i j (f j)) s

/-- `MemWrite(A[i], 8, v)` (R64). -/
def writeEntry (s : State) (a : BlockArray) (i : Nat) (v : Block) : State :=
  writeEntryBytes s a i (byteOf v) (List.finRange 8)

/-! ## The tasks -/

/-- The canonical form of the task states. -/
abbrev TaskBank.wf (m : TaskBank) : Prop := RisingKeys m ∧ ∀ e ∈ m, e.2 ≠ Task.reset

/-- The state of task `i` (R36). -/
def taskOf (m : TaskBank) (i : Nat) : Task := (lookupCell m i).getD Task.reset

/-- The task states with that of task `i` replaced. -/
def setTask (m : TaskBank) (i : Nat) (t : Task) : TaskBank :=
  if t = Task.reset then dropCell m i else storeCell m i t

/-- `TS[i] <- p` for every `i` below `n` (R193, R196). -/
def setPhaseBelow (m : TaskBank) (p : TaskPhase) : Nat → TaskBank
  | 0 => m
  | n + 1 =>
    let m' := setPhaseBelow m p n
    setTask m' n { taskOf m' n with ts := p }

/-- `TS[i]` (R36). -/
def taskPhase (s : State) (i : Nat) : TaskPhase := (taskOf s.tasks i).ts

/-- How many tasks are in `T_RUN` (R195). -/
def runningTasks (s : State) : Nat := (s.tasks.filter fun e => e.2.ts == .running).length

/-! ## The subkey bank -/

/-- The bank of `KEY` in the given order written whole, with `C`, `D`, `SKW` and `SKREV` (R193). -/
def loadBank (s : State) (dir : Direction) : State :=
  let cd := keyPermutationFirst s.key
  { s with
    sk := bankOf s.key dir
    skrev := match dir with
      | .forward => false
      | .reversed => true
    c := cd.1
    d := cd.2
    skw := fullBankMask }

/-! ## How a command ends -/

/-- The end of a command without error (R98): `PH <- IDLE`, `DONE <- 1`, `ERR` stays as it is. -/
def endCommand (s : State) : State := { s with ph := .idle, done := true }

/-- `raise Err(cause)` (R236): `ERR` and `STICKY` are set and the command ends. It is applied to the state
from before the command, so that every other write of the command is discarded. -/
def raiseErr (cause : ErrCause) (s : State) : State :=
  { s with err := errCode cause, sticky := true, ph := .idle, done := true }

end Sys2Proof.Machine
end

