-- ==== Sys2Proof/Machine/Operands.lean ====
section
/-! DEFINITION. The operand forms: the arguments of command words (`30_encoding.md` R92), the slices of
`OPA` and `OPB` (R9, R39), and the last entry of an array under `COUNT` (R30). -/

namespace Sys2Proof.Machine

/-- The table select of `PERM t`; none when `t` is 6 or more (R92). -/
def tableSelect? (t : BitVec 8) : Option PermTable :=
  match t.toNat with
  | 0 => some .ip
  | 1 => some .ipinv
  | 2 => some .e
  | 3 => some .p
  | 4 => some .pc1
  | 5 => some .pc2
  | _ => none

/-- The round number of `KROT k` and `KPERM2 k`, as the entry `k - 1`; none outside 1 to 16 (R92). -/
def roundSelect? (k : BitVec 8) : Option (Fin 16) :=
  if h : 1 ≤ k.toNat ∧ k.toNat ≤ 16 then some ⟨k.toNat - 1, by omega⟩ else none

/-- The pad length of `PAD n`; none outside 1 to 8 (R92). -/
def padLength? (n : BitVec 8) : Option Nat :=
  if 1 ≤ n.toNat ∧ n.toNat ≤ 8 then some n.toNat else none

/-- A bit-string of at most 64 bits in a 64-bit container: the low bits, zeros above (R9). -/
def zext64 {n : Nat} (v : BitVec n) : Block := v.setWidth 64

/-- `OPA[n-1 : 0]`. -/
def opaLow (s : State) (n : Nat) : BitVec n := s.opa.setWidth n

/-- `OPA[63:32]` (R158). -/
def opaHigh (s : State) : Half := s.opa.extractLsb' 32 32

/-- `OPB[47:0]`, the subkey operand (R157, R158). -/
def opbSubkey (s : State) : Subkey := s.opb.setWidth 48

/-- The checks of `COUNT` that ENCODE, DECODE, PAD and CNTPAD make, in order (R232, R233); none when
`COUNT` is 1 to `MAXBLOCKS`. -/
def countError? (s : State) : Option ErrCause :=
  if s.count = 0 then some .count
  else if s.env.params.maxBlocks < s.count.toNat then some .alloc
  else none

/-- The index of the last block, `COUNT - 1` (R212, R214). -/
def lastIndex (s : State) : Nat := s.count.toNat - 1

end Sys2Proof.Machine
end

