-- ==== Sys2Proof/Machine/BlockArrayDriver.lean ====
section
/-! DEFINITION. The meanings of `ENCODE` and `DECODE`, and the start and the end of a batch
(`44_block_array_driver.md` R192 to R196). -/

namespace Sys2Proof.Machine

/-- Batch start (R193): the two checks of `COUNT`, then the bank, then the tasks below `COUNT` pending, all
in one step. -/
def startBatch (dir : Direction) (s : State) : State :=
  match countError? s with
  | some cause => raiseErr cause s
  | none => { loadBank s dir with tasks := setPhaseBelow s.tasks .pending s.count.toNat, ph := .batch }

/-- `ENCODE`: a batch in forward order (R192). -/
def execEncode (s : State) : Host.Outcome State Fault Refusal := .next (startBatch .forward s)

/-- `DECODE`: a batch in reversed order (R194). -/
def execDecode (s : State) : Host.Outcome State Fault Refusal := .next (startBatch .reversed s)

/-- Whether every task below `COUNT` is `T_FIN` (R196). -/
def allFinished (s : State) : Bool := (List.range s.count.toNat).all fun i => taskPhase s i == .finished

/-- Batch end (R196): every task below `COUNT` idle, and the command ends. -/
def endBatch (s : State) : State :=
  endCommand { s with tasks := setPhaseBelow s.tasks .idle s.count.toNat }

end Sys2Proof.Machine
end

