-- ==== Sys2Proof/Machine/BlockKernel.lean ====
section
/-! DEFINITION. The meaning of `BLOCK` and the steps of the agent `TASK(i)` (`43_block_kernel.md` R174 to
R179). -/

namespace Sys2Proof.Machine

/-- `BLOCK`: `RES <- des_block(SK, OPA)`, which needs a full bank (R179). -/
def execBlock (s : State) : Host.Outcome State Fault Refusal :=
  if s.skw = fullBankMask then .next (endCommand { s with res := desBlock s.sk s.opa })
  else .next (raiseErr .nokeys s)

/-- Load step of `TASK(i)` (R175). -/
def taskLoad (i : Nat) (s : State) : State :=
  let lr := ipSplit (readEntry s .input i)
  { s with tasks := setTask s.tasks i { ts := .running, l := lr.1, r := lr.2, rnd := 0 } }

/-- Round step of `TASK(i)`: round `RND[i] + 1`, with that bank entry (R176). -/
def taskRound (i : Nat) (t : Task) (h : t.rnd.val < 16) (s : State) : State :=
  let lr := roundStep (t.l, t.r) s.sk[t.rnd.val]
  { s with tasks := setTask s.tasks i { ts := .running, l := lr.1, r := lr.2, rnd := ⟨t.rnd.val + 1, by omega⟩ } }

/-- Store step of `TASK(i)` (R177). -/
def taskStore (i : Nat) (t : Task) (s : State) : State :=
  let s' := writeEntry s .output i (finalPermutation (t.l, t.r))
  { s' with tasks := setTask s.tasks i { t with ts := .finished } }

/-- Whether a lane is free for another task to load (R195). -/
def laneFree (s : State) : Bool :=
  match s.env.params.lanes with
  | .unbounded => true
  | .bounded extra => decide (runningTasks s < extra + 1)

/-- Whether `TASK(i)` has an enabled step: only in a batch, only below `COUNT` (R174, R195, R245). -/
def taskEnabled (i : Nat) (s : State) : Bool :=
  match s.ph with
  | .idle => false
  | .exec => false
  | .batch =>
    decide (i < s.count.toNat) &&
    match taskPhase s i with
    | .idle => false
    | .pending => laneFree s
    | .running => true
    | .finished => false

/-- The step of `TASK(i)` that its state calls for (R175 to R177); a task with no step leaves the state. -/
def taskStep (i : Nat) (s : State) : State :=
  let t := taskOf s.tasks i
  match t.ts with
  | .idle => s
  | .pending => taskLoad i s
  | .running => if h : t.rnd.val < 16 then taskRound i t h s else taskStore i t s
  | .finished => s

end Sys2Proof.Machine
end

