-- ==== Sys2Proof/Machine/FeistelRound.lean ====
section
/-! DEFINITION. The meanings of the round commands (`42_feistel_round.md` R156 to R158). -/

namespace Sys2Proof.Machine

/-- `SBOX`: the substitution step on `OPA[47:0]` (R156). -/
def execSbox (s : State) : Host.Outcome State Fault Refusal :=
  .next (endCommand { s with res := zext64 (sboxSub (opaLow s 48)) })

/-- `FEISTEL`: the round function on `OPA[31:0]` with the subkey `OPB[47:0]` (R157). -/
def execFeistel (s : State) : Host.Outcome State Fault Refusal :=
  .next (endCommand { s with res := zext64 (feistel (opaLow s 32) (opbSubkey s)) })

/-- `CALCR`: `RES <- prev_r || calculate_r(prev_l, prev_r, k)` with `prev_l || prev_r = OPA` and
`k = OPB[47:0]` (R158). -/
def execCalcr (s : State) : Host.Outcome State Fault Refusal :=
  .next (endCommand { s with res := opaLow s 32 ++ calculateR (opaHigh s) (opaLow s 32) (opbSubkey s) })

end Sys2Proof.Machine
end

