-- ==== Sys2Proof/Machine/KeySchedule.lean ====
section
/-! DEFINITION. The meanings of the key-schedule commands (`41_key_schedule.md` R138 to R142). -/

namespace Sys2Proof.Machine

/-- `KPERM1`: `(C, D) <- key_permutation_first(KEY)` (R138). -/
def execKperm1 (s : State) : Host.Outcome State Fault Refusal :=
  let cd := keyPermutationFirst s.key
  .next (endCommand { s with c := cd.1, d := cd.2 })

/-- `KROT k`: both halves rotated by `SHIFT[k]` (R139). -/
def execKrot (k : BitVec 8) (s : State) : Host.Outcome State Fault Refusal :=
  match roundSelect? k with
  | none => .next (raiseErr .operand s)
  | some r => .next (endCommand { s with c := rol28 s.c shiftSchedule[r], d := rol28 s.d shiftSchedule[r] })

/-- `KPERM2 k`: `SK[k] <- key_permutation_second(C, D)`, and its written bit (R140). -/
def execKperm2 (k : BitVec 8) (s : State) : Host.Outcome State Fault Refusal :=
  match roundSelect? k with
  | none => .next (raiseErr .operand s)
  | some r => .next (endCommand { s with sk := s.sk.set r (keyPermutationSecond s.c s.d), skw := markWritten s.skw r })

/-- `GENKEYS`: the bank of `KEY` in forward order; `C` and `D` are left holding `C16` and `D16` (R141). -/
def execGenkeys (s : State) : Host.Outcome State Fault Refusal :=
  let cd := halvesAfter s.key 16
  .next (endCommand { s with sk := generateSubkeys s.key, c := cd.1, d := cd.2, skw := fullBankMask, skrev := false })

/-- `REVKEYS`: the bank reversed in place, all entries together (R142). -/
def execRevkeys (s : State) : Host.Outcome State Fault Refusal :=
  if s.skw = fullBankMask then .next (endCommand { s with sk := reverseOrder s.sk, skrev := !s.skrev })
  else .next (raiseErr .nokeys s)

end Sys2Proof.Machine
end

