-- ==== Sys2Proof/Machine/PaddingCodec.lean ====
section
/-! DEFINITION. The meanings of `PAD` and `CNTPAD` (`45_padding_codec.md` R212, R214). -/

namespace Sys2Proof.Machine

/-- `MemWrite(IN[i].j, 1, n)` for every `j` in `8 - n` to 7 (R212). -/
def writePad (i n : Nat) (s : State) : State :=
  writeEntryBytes s .input i (fun _ => BitVec.ofNat 8 n) ((List.finRange 8).filter fun j => 8 - n ≤ j.val)

/-- `PAD n`: `ERR_OPERAND`, then the checks of `COUNT`, then the last `n` bytes of `IN[COUNT-1]` (R212). -/
def execPad (n : BitVec 8) (s : State) : Host.Outcome State Fault Refusal :=
  match padLength? n with
  | none => .next (raiseErr .operand s)
  | some len =>
    match countError? s with
    | some cause => .next (raiseErr cause s)
    | none => .next (endCommand (writePad (lastIndex s) len s))

/-- `CNTPAD`: the checks of `COUNT`, then the pad of `OUT[COUNT-1]`; on a bad pad `RES <- 0` is kept, the
one exception of R236 (R214). -/
def execCntpad (s : State) : Host.Outcome State Fault Refusal :=
  match countError? s with
  | some cause => .next (raiseErr cause s)
  | none =>
    match countPaddingBytes (readEntry s .output (lastIndex s)) with
    | none => .next (raiseErr .pad { s with res := 0 })
    | some n => .next (endCommand { s with res := BitVec.ofNat 64 n })

end Sys2Proof.Machine
end

