-- ==== Sys2Proof/Machine/PermutationEngine.lean ====
section
/-! DEFINITION. The meaning of `PERM` (`40_permutation_engine.md` R119). -/

namespace Sys2Proof.Machine

/-- A 64-bit operand through a table: its low `n_in` bits are read, the `n_out` bits of the result stand at
the low end, zeros above (R119). -/
def permuteWord (t : PermTable) (v : Block) : Block := zext64 (permutate (v.setWidth (tableInWidth t)) (tableEntries t))

/-- `PERM t` (R119). -/
def execPerm (t : BitVec 8) (s : State) : Host.Outcome State Fault Refusal :=
  match tableSelect? t with
  | none => .next (raiseErr .operand s)
  | some table => .next (endCommand { s with res := permuteWord table s.opa })

end Sys2Proof.Machine
end

