-- ==== Sys2Proof/Machine/Dispatch.lean ====
section
/-! DEFINITION. The execute step of CTRL for a command the decoder has found (`30_encoding.md` R98). -/

namespace Sys2Proof.Machine

/-- The command's own rule (R98). -/
def exec (i : Instr) (s : State) : Host.Outcome State Fault Refusal :=
  match i with
  -- Permutation Engine
  | .perm t => Sys2Proof.Machine.execPerm t s
  -- Key Schedule Generator
  | .kperm1 => Sys2Proof.Machine.execKperm1 s
  | .krot k => Sys2Proof.Machine.execKrot k s
  | .kperm2 k => Sys2Proof.Machine.execKperm2 k s
  | .genkeys => Sys2Proof.Machine.execGenkeys s
  | .revkeys => Sys2Proof.Machine.execRevkeys s
  -- Feistel Round Function
  | .sbox => Sys2Proof.Machine.execSbox s
  | .feistel => Sys2Proof.Machine.execFeistel s
  | .calcr => Sys2Proof.Machine.execCalcr s
  -- Block Cipher Kernel
  | .block => Sys2Proof.Machine.execBlock s
  -- Block-Array Driver
  | .encode => Sys2Proof.Machine.execEncode s
  | .decode => Sys2Proof.Machine.execDecode s
  -- Padding Codec
  | .pad n => Sys2Proof.Machine.execPad n s
  | .cntpad => Sys2Proof.Machine.execCntpad s

end Sys2Proof.Machine
end

