-- ==== Sys2Proof/Machine/Control.lean ====
section
/-! DEFINITION. The agent CTRL: accepting a command, executing it, ending a batch (`30_encoding.md` R97, R98,
`44_block_array_driver.md` R196). -/

namespace Sys2Proof.Machine

/-- Accept a command word (R97): `CMD`, `PH`, `DONE` and `ERR` are written, nothing else. The word is not
examined. -/
def acceptCommand (w : CommandWord) (s : State) : State :=
  { s with cmd := w, ph := .exec, done := false, err := 0 }

/-- The execute step (R98): an illegal word ends with `ERR_ILLEGAL`; any other word runs its command, which
itself raises `ERR_OPERAND` first when its argument is out of range. -/
def executeStep (s : State) : Host.Outcome State Fault Refusal :=
  match (decodeWord s.cmd).instr? with
  | some i => exec i s
  | none => .next (raiseErr .illegal s)

/-- Whether CTRL has an enabled step (R98, R196, R247). -/
def ctrlEnabled (s : State) : Bool :=
  match s.ph with
  | .idle => false
  | .exec => true
  | .batch => allFinished s

/-- The step of CTRL that `PH` calls for; with none, the state is left. -/
def ctrlStep (s : State) : Host.Outcome State Fault Refusal :=
  match s.ph with
  | .idle => .next s
  | .exec => executeStep s
  | .batch => .next (endBatch s)

end Sys2Proof.Machine
end

