-- ==== Sys2Proof/Machine/PortMap.lean ====
section
/-! DEFINITION. The host port: the index map, what a read returns and what a write does, and the steps of
the agent HOST (`20_memory.md` R60 to R79). -/

namespace Sys2Proof.Machine

/-- What an index of the port names (R61). -/
inductive PortReg where
  /-- `CMD`. -/
  | cmd
  /-- `STATUS`. -/
  | status
  /-- `KEY`. -/
  | key
  /-- `COUNT`. -/
  | count
  /-- `OPA`. -/
  | opa
  /-- `OPB`. -/
  | opb
  /-- `RES`. -/
  | res
  /-- `CD`. -/
  | cd
  /-- `SK[k]`, as the entry `k - 1`. -/
  | sk (k : Fin 16)
  /-- `IN[i]`. -/
  | input (i : Nat)
  /-- `OUT[i]`. -/
  | output (i : Nat)
  /-- Every other index. -/
  | unmapped
  deriving DecidableEq, Repr

/-- The index of `CMD` (R61). -/
def cmdIndex : Nat := 0x00000

/-- The index of `STATUS` (R61). -/
def statusIndex : Nat := 0x00001

/-- The first index of the subkey bank (R61). -/
def skBase : Nat := 0x00010

/-- The first index of `IN` (R61). -/
def inBase : Nat := 0x10000

/-- The first index of `OUT` (R61). -/
def outBase : Nat := 0x20000

/-- The index map (R61, R79): an index `0x10000 + i` or `0x20000 + i` with `i` at `MAXBLOCKS` or above is
unmapped. -/
def portReg (p : Params) (idx : Nat) : PortReg :=
  if idx = cmdIndex then .cmd
  else if idx = statusIndex then .status
  else if idx = 0x00002 then .key
  else if idx = 0x00003 then .count
  else if idx = 0x00004 then .opa
  else if idx = 0x00005 then .opb
  else if idx = 0x00006 then .res
  else if idx = 0x00007 then .cd
  else if h : skBase ≤ idx ∧ idx - skBase < 16 then .sk ⟨idx - skBase, h.2⟩
  else if inBase ≤ idx ∧ idx - inBase < p.maxBlocks then .input (idx - inBase)
  else if outBase ≤ idx ∧ idx - outBase < p.maxBlocks then .output (idx - outBase)
  else .unmapped

/-- `CD = C || D` (R32). -/
def cdView (s : State) : BitVec 56 := s.c ++ s.d

/-- What a register reads as while idle: its value, zero-extended (R9, R61); an unmapped index reads 0
(R79). -/
def readReg (s : State) : PortReg → Block
  | .cmd => zext64 s.cmd
  | .status => zext64 (statusWord s)
  | .key => s.key
  | .count => zext64 s.count
  | .opa => s.opa
  | .opb => s.opb
  | .res => s.res
  | .cd => zext64 (cdView s)
  | .sk k => zext64 s.sk[k]
  | .input i => readEntry s .input i
  | .output i => readEntry s .output i
  | .unmapped => 0

/-- What a write to a register does while idle (R61): the low bits are stored (R9), a read-only or unmapped
index ignores it (R79), a write to `CMD` starts a command (R97). -/
def writeReg (s : State) (v : Block) : PortReg → State
  | .cmd => acceptCommand (v.setWidth 32) s
  | .status => s
  | .key => { s with key := v }
  | .count => { s with count := v.setWidth 32 }
  | .opa => { s with opa := v }
  | .opb => { s with opb := v }
  | .res => s
  | .cd => s
  | .sk _ => s
  | .input i => writeEntry s .input i v
  | .output _ => s
  | .unmapped => s

/-- Whether a read of an index returns an unspecified value: `BUSY` is 1 and the index is not `STATUS`
(R70). -/
def readIsAny (s : State) (idx : Nat) : Bool := busy s && idx != statusIndex

/-- What `HostRead(idx)` returns (R60, R70). -/
def portRead (s : State) (idx : Nat) : Block :=
  if readIsAny s idx then Config.busyRead s.env.anyReads
  else readReg s (portReg s.env.params idx)

/-- `HostRead(idx)`: the value goes to the host; no state of the block changes (R69). -/
def hostRead (idx : Nat) (s : State) : State :=
  { s with env := { s.env with
      seen := ⟨idx, portRead s idx⟩ :: s.env.seen
      anyReads := if readIsAny s idx then s.env.anyReads + 1 else s.env.anyReads } }

/-- `HostWrite(idx, v)`: ignored while `BUSY` is 1 (R70). -/
def hostWrite (idx : Nat) (v : Block) (s : State) : State :=
  if busy s then s else writeReg s v (portReg s.env.params idx)

/-- Reset (R260, R262): in one step, whatever the block was doing, the whole state becomes that after
reset. The outside world goes on; what `IN` and `OUT` hold is unspecified anew (R44). -/
def applyReset (s : State) : State :=
  { State.reset with env := { s.env with resets := s.env.resets + 1 } }

/-- The first pending event is done. -/
def dropEvent (s : State) : State := { s with env := { s.env with pending := s.env.pending.tail } }

/-- One step of the outside world: its first pending event. A `WAIT` stays pending until a poll reads
`DONE` = 1 (R103). -/
def hostStep (s : State) : State :=
  match s.env.pending with
  | [] => s
  | .read idx :: _ => hostRead idx (dropEvent s)
  | .write idx v :: _ => hostWrite idx v (dropEvent s)
  | .wait :: _ => hostRead statusIndex (if s.done then dropEvent s else s)
  | .reset :: _ => applyReset (dropEvent s)

/-- Whether the outside world has an event to perform; it may do so at any time (R247). -/
def hostEnabled (s : State) : Bool :=
  match s.env.pending with
  | [] => false
  | _ :: _ => true

end Sys2Proof.Machine
end

