-- ==== Sys2Proof/Machine/Schedule.lean ====
section
/-! DEFINITION. Which agent steps (`00_scope.md` R14, `60_exceptions.md` R247): any agent with an enabled step
may, in the order that the plain data `env.sched` gives (log entry 2). -/

namespace Sys2Proof.Machine

/-- Whether an agent has an enabled step (R247). -/
def agentEnabled (s : State) : Agent → Bool
  | .host => hostEnabled s
  | .ctrl => ctrlEnabled s
  | .task i => taskEnabled i s

/-- The first task with an enabled step, by block index. -/
def firstTask? (s : State) : Option Nat := (List.range s.count.toNat).find? fun i => taskEnabled i s

/-- The agent that steps when the schedule gives no answer: CTRL, else the first task that can, else the
outside world. -/
def defaultAgent? (s : State) : Option Agent :=
  if ctrlEnabled s then some .ctrl
  else match firstTask? s with
    | some i => some (.task i)
    | none => if hostEnabled s then some .host else none

/-- The agent that steps: the schedule's next if it has an enabled step, else the default. None when no
agent has one: the block is idle and waits for the host. -/
def nextAgent? (s : State) : Option Agent :=
  match s.env.sched with
  | [] => defaultAgent? s
  | a :: _ => if agentEnabled s a then some a else defaultAgent? s

/-- The next turn of the schedule is used up. -/
def dropTurn (s : State) : State := { s with env := { s.env with sched := s.env.sched.tail } }

/-- The step of one agent. -/
def agentStep (a : Agent) (s : State) : Host.Outcome State Fault Refusal :=
  match a with
  | .host => .next (hostStep s)
  | .ctrl => ctrlStep s
  | .task i => .next (taskStep i s)

/-- One step of the machine: the chosen agent's, in the state with the turn used up. With no agent to step
the block waits (R247). -/
def machineStep (s : State) : Host.Outcome State Fault Refusal :=
  match nextAgent? s with
  | some a => agentStep a (dropTurn s)
  | none => .next (dropTurn s)

/-- A command word accepted as by a write to `CMD` (R97), with CTRL to step next. -/
def placeCommand (w : CommandWord) (s : State) : State :=
  { acceptCommand w s with env := { s.env with sched := .ctrl :: s.env.sched } }

end Sys2Proof.Machine
end

