-- ==== Sys2Proof/Machine/Step.lean ====
section
/-! DEFINITION. The step of the machine, and a command placed where the next step finds it. -/

namespace Sys2Proof.Machine

/-- One step of one agent (R13, R14, R247). -/
def step (s : State) : Host.Outcome State Fault Refusal := machineStep s

/-- The state in which the very next step runs the command of a word: the word stands in `CMD` as the host's
write puts it there (R97), and CTRL steps next. Log entry 5. -/
def State.withFetchWord (s : State) (nbits w : Nat) : State := placeCommand (tableWord nbits w) s

end Sys2Proof.Machine
end

