-- ==== Sys2Proof/Safety.lean ====
section
/-! DEFINITION. The terms the claims are stated in: what a step leaves unchanged, how a command ends, and
the invariants of the block. -/

namespace Sys2Proof

open Sys2Proof.Machine

/-! ## Frames -/

/-- The items of the state of the block (R20). -/
inductive StateItem where
  | key | cmd | done | skrev | sticky | err | skw | count | sk | c | d | opa | opb | res
  | input | output | tasks | ph
  deriving DecidableEq, Repr

/-- An item holds in `t` what it held in `s`. A block memory is compared by the read of each of its bytes,
the task states by the state of each task. -/
def SameItem (s t : State) : StateItem → Prop
  | .key => t.key = s.key
  | .cmd => t.cmd = s.cmd
  | .done => t.done = s.done
  | .skrev => t.skrev = s.skrev
  | .sticky => t.sticky = s.sticky
  | .err => t.err = s.err
  | .skw => t.skw = s.skw
  | .count => t.count = s.count
  | .sk => t.sk = s.sk
  | .c => t.c = s.c
  | .d => t.d = s.d
  | .opa => t.opa = s.opa
  | .opb => t.opb = s.opb
  | .res => t.res = s.res
  | .input => ∀ addr, readByte t .input addr = readByte s .input addr
  | .output => ∀ addr, readByte t .output addr = readByte s .output addr
  | .tasks => ∀ i, taskOf t.tasks i = taskOf s.tasks i
  | .ph => t.ph = s.ph

/-- Every item but those listed is unchanged. -/
def UnchangedExcept (written : List StateItem) (s t : State) : Prop := ∀ x, x ∉ written → SameItem s t x

/-- Every byte of an array but those of entry `i` from byte `first` on reads as before. -/
def BytesUnchangedExcept (a : BlockArray) (i first : Nat) (s t : State) : Prop :=
  ∀ addr, (addr < 8 * i + first ∨ 8 * i + 8 ≤ addr) → readByte t a addr = readByte s a addr

/-! ## How a command ends -/

/-- A command has ended and writes nothing but the listed items, `PH` and `DONE` (R98). `ERR` and `STICKY`
are unchanged, and so are the model's own fields. -/
def EndedWriting (written : List StateItem) (s t : State) : Prop :=
  t.ph = .idle ∧ t.done = true ∧ t.env = s.env ∧ UnchangedExcept (.ph :: .done :: written) s t

/-- A command has ended by posting an error code, with nothing else written but the listed items (R236). -/
def PostedError (code : BitVec 8) (alsoWritten : List StateItem) (s t : State) : Prop :=
  t.err = code ∧ t.sticky = true ∧ t.ph = .idle ∧ t.done = true ∧ t.env = s.env ∧
  UnchangedExcept (.err :: .sticky :: .ph :: .done :: alsoWritten) s t

/-- `COUNT` is a legal number of blocks: 1 to `MAXBLOCKS` (R30). -/
def CountLegal (s : State) : Prop := s.count ≠ 0 ∧ s.count.toNat ≤ s.env.params.maxBlocks

/-- The last `n` bytes of a block, `n` 1 to 8, all hold the byte `n` (R211). -/
def EndsInPad (b : Block) (n : Nat) : Prop :=
  1 ≤ n ∧ n ≤ 8 ∧ ∀ j : Fin 8, 8 - n ≤ j.val → byteOf b j = BitVec.ofNat 8 n

/-- The agent whose step the machine takes next is the outside world, and this is its event. -/
def HostActs (e : HostEvent) (s : State) : Prop :=
  nextAgent? s = some .host ∧ s.env.pending.head? = some e

/-- The step from `s` applies the platform's reset. -/
def ResetActs (s : State) : Prop := HostActs .reset s

/-! ## The contents of the constant tables -/

/-- The entries of a permutation table, in order, as numbers. -/
def entriesOf {n m : Nat} (table : Vector (Fin n) m) : List Nat := table.toList.map Fin.val

/-- The values of an S-box row by row, as numbers (R150). -/
def boxValues (box : SBox) : List Nat := box.toList.flatMap fun row => row.toList.map BitVec.toNat

/-- The sum of each number of a list times its place, places counted from 1 (R150). -/
def weightedSum (vs : List Nat) : Nat := ((vs.zipIdx 1).map fun e => e.2 * e.1).sum

/-! ## Invariants -/

/-- What the flags and `ERR` always satisfy (R25, R28, R29). -/
structure StatusInv (s : State) : Prop where
  /-- No code above 6 is ever produced (R29). -/
  err_le : s.err.toNat ≤ 6
  /-- `BUSY` and `DONE` are never both 1 (R25). -/
  busy_not_done : busy s = true → s.done = false
  /-- `ERR` is 0 from acceptance to the end of a command (R29). -/
  busy_ok : busy s = true → s.err = 0
  /-- An error code is never there without `STICKY` (R28, R236). -/
  err_sticky : s.err ≠ 0 → s.sticky = true
  /-- An error code is only there once the command has ended (R236). -/
  err_done : s.err ≠ 0 → s.done = true

/-- The memories and the task states keep their canonical form and stay inside the arrays (R64). -/
structure StorageInv (s : State) : Prop where
  /-- `IN` is in canonical form. -/
  input_wf : s.inArr.wf
  /-- `OUT` is in canonical form. -/
  output_wf : s.outArr.wf
  /-- The task states are in canonical form. -/
  tasks_wf : s.tasks.wf
  /-- No byte of `IN` lies beyond `MAXBLOCKS` entries. -/
  input_bound : ∀ e ∈ s.inArr, e.1 < 8 * s.env.params.maxBlocks
  /-- No byte of `OUT` lies beyond `MAXBLOCKS` entries. -/
  output_bound : ∀ e ∈ s.outArr, e.1 < 8 * s.env.params.maxBlocks
  /-- No task beyond `MAXBLOCKS`. -/
  tasks_bound : ∀ e ∈ s.tasks, e.1 < s.env.params.maxBlocks

/-- The order the bank was last generated in, as `SKREV` records it (R27). -/
def bankDirection (s : State) : Direction := if s.skrev then .reversed else .forward

/-- Where task `i` of a batch stands: pending; in round `RND[i]` with the halves of `IN[i]` after that many
rounds; or finished, with the halves after sixteen rounds and `des_block` of `IN[i]` in `OUT[i]`
(R175 to R178, R200). -/
def TaskOnTrack (s : State) (i : Nat) : Prop :=
  let t := taskOf s.tasks i
  match t.ts with
  | .idle => False
  | .pending => True
  | .running => (t.l, t.r) = roundsAfter s.sk (readEntry s .input i) t.rnd.val
  | .finished =>
    t.rnd.val = 16 ∧ (t.l, t.r) = roundsAfter s.sk (readEntry s .input i) 16 ∧
    readEntry s .output i = desBlock s.sk (readEntry s .input i)

/-- What a batch always satisfies, and that there are no live tasks outside one (R36, R73, R193, R196). -/
structure BatchInv (s : State) : Prop where
  /-- Outside a batch every task is idle. -/
  idle_outside : s.ph ≠ .batch → ∀ i, taskPhase s i = .idle
  /-- In a batch `COUNT` is legal. -/
  count_legal : s.ph = .batch → CountLegal s
  /-- In a batch the bank is full and is that of `KEY`, in the order `SKREV` says. -/
  bank : s.ph = .batch → s.skw = fullBankMask ∧ s.sk = bankOf s.key (bankDirection s)
  /-- In a batch every task below `COUNT` is on its way. -/
  on_track : s.ph = .batch → ∀ i, i < s.count.toNat → TaskOnTrack s i
  /-- In a batch no task at `COUNT` or above lives. -/
  idle_above : s.ph = .batch → ∀ i, s.count.toNat ≤ i → taskPhase s i = .idle

/-- At most `NLANES` tasks run together (R195). -/
def LanesInv (s : State) : Prop :=
  match s.env.params.lanes with
  | .unbounded => True
  | .bounded extra => runningTasks s ≤ extra + 1

end Sys2Proof
end

