-- ==== Sys2Proof/Certificates/Slice0/Obligations.lean ====
section
/-! DEFINITION. The statements for the provers. Each docstring names the rule of the spec it formalises. -/

open Sys2Proof Sys2Proof.Machine

/-! ## Encoding -/

/-- Decoding an encoded command gives it back, with every argument, legal or not (R93, R94, R101). -/
def Obligations.DecodeEncodeAgree : Prop :=
  ∀ i : Instr, decodeWord (encodeWord i) = if i.wf then .command i else .badArgument i

/-- A word that decodes to a command, with a legal argument or not, is that command's encoding, so no bit of a
legal word is ignored and no word has two meanings (R91, R93, R95). -/
def Obligations.DecodedWordIsItsEncoding : Prop :=
  ∀ (w : CommandWord) (i : Instr), (decodeWord w).instr? = some i → encodeWord i = w

/-- A word is illegal exactly when `rsv` is not 0, or `op` is not in the table, or `arg` is not 0 on a command
that takes none (R95). The names of the three reasons, and which one is named when several hold (reserved bits,
then argument, then opcode), are the model's choice (log entry 16): the spec has one error for all of them. -/
def Obligations.IllegalWordsAreExactly : Prop :=
  let withArg : List (BitVec 8) := [0x10, 0x21, 0x22, 0x60]
  let noArg : List (BitVec 8) := [0x20, 0x23, 0x24, 0x30, 0x31, 0x32, 0x40, 0x50, 0x51, 0x61]
  ∀ w : CommandWord,
    (decodeWord w = .illegal .reservedBits ↔ rsvField w ≠ 0) ∧
    (decodeWord w = .illegal .unknownOpcode ↔ rsvField w = 0 ∧ opField w ∉ withArg ++ noArg) ∧
    (decodeWord w = .illegal .argumentNotZero ↔ rsvField w = 0 ∧ opField w ∈ noArg ∧ argField w ≠ 0) ∧
    ((decodeWord w).instr? = none → ∃ why, decodeWord w = .illegal why)

/-- Words written out in the spec's vector V12, some of them in R101 and R95 too, decode to the commands they stand
for: a sanity statement. The names of the reasons of the two illegal words are the model's (log entry 16). -/
def Obligations.WordsOfTheSpecDecode : Prop :=
  decodeWord 0x00000210 = .command (.perm 2) ∧
  decodeWord 0x00000321 = .command (.krot 3) ∧
  decodeWord 0x00001022 = .command (.kperm2 16) ∧
  decodeWord 0x00000360 = .command (.pad 3) ∧
  decodeWord 0x00000050 = .command .encode ∧
  decodeWord 0x00000031 = .command .feistel ∧
  decodeWord 0x00000040 = .command .block ∧
  decodeWord 0x00001121 = .badArgument (.krot 17) ∧
  decodeWord 0x00010610 = .illegal .reservedBits ∧
  decodeWord 0x00000000 = .illegal .unknownOpcode

/-! ## The step and the life cycle of a command -/

/-- A step runs the decoded command: with a command accepted and CTRL to step, the step is that command's
meaning, in the state with the turn used up (R98). -/
def Obligations.StepRunsDecodedCommand : Prop :=
  ∀ (s : State) (i : Instr), s.ph = .exec → (decodeWord s.cmd).instr? = some i →
    (s.env.sched.head? = some .host → s.env.pending = []) →
    step s = exec i (dropTurn s)

/-- A `CMD` write while idle is accepted: `CMD`, `PH`, `DONE` and `ERR` are written as R97 says and nothing
else, whatever the word. When `PH` is not `IDLE` the write is ignored. -/
def Obligations.CommandWriteIsAccepted : Prop :=
  ∀ (s : State) (v : Block), HostActs (.write 0x00000 v) s →
    ∃ t, step s = .next t ∧
      (s.ph = .idle → t.cmd = v.extractLsb' 0 32 ∧ t.ph = .exec ∧ t.done = false ∧ t.err = 0 ∧
        UnchangedExcept [.cmd, .ph, .done, .err] s t) ∧
      (s.ph ≠ .idle → UnchangedExcept [] s t)

/-- Every step of the machine answers a next state: nothing is ever stuck, no fault and no refusal is reached
(R247). -/
def Obligations.EveryStepHasANextState : Prop := ∀ s : State, ∃ t, step s = .next t

/-- With a command in progress some agent of the block has an enabled step, from every state that meets the
batch invariant, however few the lanes: there is no deadlock (R195, R247). -/
def Obligations.BusyBlockCanStep : Prop :=
  ∀ s : State, s.tasks.wf → BatchInv s → busy s = true →
    ctrlEnabled s = true ∨ ∃ i, i < s.count.toNat ∧ taskEnabled i s = true

/-- No command and no task writes `KEY`, `CMD`, `COUNT`, `OPA` or `OPB`, or the parameters: only the outside
world does (R21, R22, R30, R39, R41, R246). -/
def Obligations.OnlyTheHostWritesOperands : Prop :=
  ∀ (s t : State) (a : Agent), a ≠ .host → agentStep a s = .next t →
    t.key = s.key ∧ t.cmd = s.cmd ∧ t.count = s.count ∧ t.opa = s.opa ∧ t.opb = s.opb ∧ t.env = s.env

/-- `STICKY` and the bits of `SKW` are cleared by reset and by nothing else (R261). -/
def Obligations.OnlyResetClearsStickyAndSkw : Prop :=
  ∀ s t : State, step s = .next t → ¬ ResetActs s →
    (s.sticky = true → t.sticky = true) ∧
    ∀ b : Nat, s.skw.getLsbD b = true → t.skw.getLsbD b = true

/-- `ERR` and `STICKY` change only when a command is accepted (`ERR` to 0) or at its end: no other host access
and no task touches them, and a step of CTRL that does not end the command leaves them (R231). Reset, which
clears the whole state, is R260's. -/
def Obligations.OnlyCommandsRaiseErrors : Prop :=
  ∀ s t : State, step s = .next t → ¬ ResetActs s →
    (nextAgent? s ≠ some .ctrl → t.sticky = s.sticky ∧
      (t.err ≠ s.err → t.err = 0 ∧ s.ph = .idle ∧ ∃ v, HostActs (.write cmdIndex v) s)) ∧
    (nextAgent? s = some .ctrl → t.ph ≠ .idle → t.sticky = s.sticky ∧ t.err = s.err)

/-! ## The host port -/

/-- The fields of `STATUS`, by integer bit number (R23). -/
def Obligations.StatusFields : Prop :=
  ∀ s : State,
    (statusWord s).getLsbD 0 = busy s ∧
    (statusWord s).getLsbD 1 = s.done ∧
    (statusWord s).getLsbD 2 = decide (s.skw = 0xFFFF) ∧
    (statusWord s).getLsbD 3 = s.skrev ∧
    (statusWord s).getLsbD 4 = s.sticky ∧
    (statusWord s).extractLsb' 5 3 = 0 ∧
    (statusWord s).extractLsb' 8 8 = s.err ∧
    (statusWord s).extractLsb' 16 16 = s.skw ∧
    (busy s = true ↔ s.ph ≠ .idle)

/-- What a host read returns while idle, index by index, each value zero-extended (R61). -/
def Obligations.HostReadReturns : Prop :=
  ∀ s : State, s.ph = .idle →
    portRead s 0x00000 = s.cmd.setWidth 64 ∧
    portRead s 0x00001 = (statusWord s).setWidth 64 ∧
    portRead s 0x00002 = s.key ∧
    portRead s 0x00003 = s.count.setWidth 64 ∧
    portRead s 0x00004 = s.opa ∧
    portRead s 0x00005 = s.opb ∧
    portRead s 0x00006 = s.res ∧
    portRead s 0x00007 = (s.c ++ s.d).setWidth 64 ∧
    (∀ k : Fin 16, portRead s (0x00010 + k.val) = s.sk[k].setWidth 64) ∧
    (∀ i, i < s.env.params.maxBlocks → portRead s (0x10000 + i) = readEntry s .input i) ∧
    (∀ i, i < s.env.params.maxBlocks → portRead s (0x20000 + i) = readEntry s .output i)

/-- A host read is free of side effects on the block, busy or idle, and so is each poll of a `WAIT` (R69, R103):
the value of the index goes to the host, in the model's list of replies (log entry 7), and nothing else happens. -/
def Obligations.HostReadHasNoSideEffect : Prop :=
  ∀ (s : State) (idx : Nat), HostActs (.read idx) s ∨ (HostActs .wait s ∧ idx = 1) →
    ∃ t, step s = .next t ∧ UnchangedExcept [] s t ∧ t.env.seen = ⟨idx, portRead s idx⟩ :: s.env.seen

/-- Host access while `BUSY` is 1 (R70): a read of `STATUS` returns the view, a read of any other index the free
value `Config.busyRead` of the number of such reads so far, and a write to any index changes no state, starts
nothing and posts no error. R70 says `any(64)` for such a read: that it is this free value, and the counter
`env.anyReads` it is applied to, are the model's choice (log entry 4). -/
def Obligations.HostAccessWhileBusy : Prop :=
  ∀ (s : State), s.ph ≠ .idle →
    (HostActs (.read 0x00001) s → ∃ t, step s = .next t ∧ UnchangedExcept [] s t ∧
      t.env.seen = ⟨1, (statusWord s).setWidth 64⟩ :: s.env.seen) ∧
    (∀ idx, idx ≠ 1 → HostActs (.read idx) s → ∃ t, step s = .next t ∧ UnchangedExcept [] s t ∧
      t.env.seen = ⟨idx, Config.busyRead s.env.anyReads⟩ :: s.env.seen ∧
      t.env.anyReads = s.env.anyReads + 1) ∧
    (∀ idx v, HostActs (.write idx v) s → ∃ t, step s = .next t ∧ UnchangedExcept [] s t)

/-- What a host write does while idle: `KEY`, `COUNT`, `OPA`, `OPB` and `IN[i]` store, from the low bits, and
nothing else changes (R61). -/
def Obligations.HostWriteStores : Prop :=
  ∀ (s : State) (v : Block), s.ph = .idle →
    (HostActs (.write 0x00002 v) s → ∃ t, step s = .next t ∧ t.key = v ∧ UnchangedExcept [.key] s t) ∧
    (HostActs (.write 0x00003 v) s →
      ∃ t, step s = .next t ∧ t.count = v.setWidth 32 ∧ UnchangedExcept [.count] s t) ∧
    (HostActs (.write 0x00004 v) s → ∃ t, step s = .next t ∧ t.opa = v ∧ UnchangedExcept [.opa] s t) ∧
    (HostActs (.write 0x00005 v) s → ∃ t, step s = .next t ∧ t.opb = v ∧ UnchangedExcept [.opb] s t) ∧
    (∀ i, i < s.env.params.maxBlocks → HostActs (.write (0x10000 + i) v) s →
      ∃ t, step s = .next t ∧ readEntry t .input i = v ∧ UnchangedExcept [.input] s t ∧
        BytesUnchangedExcept .input i 0 s t)

/-- Unmapped and read-only indices (R79): an unmapped index, among them `0x10000 + i` and `0x20000 + i` with `i` at
`MAXBLOCKS` or above, reads 0 while idle and the free value while busy; a write to it, or to `STATUS`, `RES`,
`CD`, `SK[k]` or `OUT[i]`, changes no state and posts no error. R79 says `any(64)` for the read while busy: the free
value `Config.busyRead` of the model's counter is the model's choice (log entry 4). -/
def Obligations.ReadOnlyAndUnmappedIndices : Prop :=
  ∀ (s : State) (idx : Nat),
    let max := s.env.params.maxBlocks
    let unmapped := (8 ≤ idx ∧ idx < 0x10) ∨ (0x20 ≤ idx ∧ idx < 0x10000) ∨
      (0x10000 + max ≤ idx ∧ idx < 0x20000) ∨ 0x20000 + max ≤ idx
    let readOnly := idx = 1 ∨ idx = 6 ∨ idx = 7 ∨ (0x10 ≤ idx ∧ idx < 0x20) ∨
      (0x20000 ≤ idx ∧ idx < 0x20000 + max)
    (unmapped → s.ph = .idle → portRead s idx = 0) ∧
    (unmapped → s.ph ≠ .idle → portRead s idx = Config.busyRead s.env.anyReads) ∧
    (unmapped ∨ readOnly → ∀ v, HostActs (.write idx v) s → ∃ t, step s = .next t ∧ UnchangedExcept [] s t)

/-! ## Reset -/

/-- Reset, in whatever phase it comes: in one step the whole state becomes that after reset, and every entry of
`IN` and `OUT` is unspecified (R44, R260, R262). That an unspecified byte is the free value `Config.unwrittenByte`
of the new count of resets, and that the parameters outlive the reset in the state, is the model's choice (log
entries 3, 9 and 1). -/
def Obligations.ResetInOneStep : Prop :=
  ∀ s : State, ResetActs s →
    ∃ t, step s = .next t ∧
      t.key = 0 ∧ t.cmd = 0 ∧ t.done = false ∧ t.skrev = false ∧ t.sticky = false ∧ t.err = 0 ∧
      t.skw = 0 ∧ t.count = 0 ∧ (∀ k : Fin 16, t.sk[k] = 0) ∧ t.c = 0 ∧ t.d = 0 ∧ t.opa = 0 ∧
      t.opb = 0 ∧ t.res = 0 ∧ t.ph = .idle ∧ statusWord t = 0 ∧
      (∀ i, taskOf t.tasks i = { ts := .idle, l := 0, r := 0, rnd := 0 }) ∧
      (∀ a addr, readByte t a addr = Config.unwrittenByte a (s.env.resets + 1) addr) ∧
      t.env.params = s.env.params

/-- The state after reset is that of R44. Every entry of `IN` and `OUT` is unspecified there: that an unspecified byte
is the free value `Config.unwrittenByte` is the model's choice (log entry 3). -/
def Obligations.ResetStateIsAsListed : Prop :=
  let s := State.reset
  s.key = 0 ∧ s.cmd = 0 ∧ s.done = false ∧ s.skrev = false ∧ s.sticky = false ∧ s.err = 0 ∧
  s.skw = 0 ∧ s.count = 0 ∧ (∀ k : Fin 16, s.sk[k] = 0) ∧ s.c = 0 ∧ s.d = 0 ∧ s.opa = 0 ∧
  s.opb = 0 ∧ s.res = 0 ∧ s.ph = .idle ∧ statusWord s = 0 ∧
  (∀ i, taskOf s.tasks i = { ts := .idle, l := 0, r := 0, rnd := 0 }) ∧
  (∀ a addr, readByte s a addr = Config.unwrittenByte a 0 addr)

/-! ## Errors -/

/-- An accepted word that matches no row of the opcode map ends with `ERR_ILLEGAL`, whatever else the state holds,
and changes no other state (R95, R237). -/
def Obligations.IllegalWordPostsError : Prop :=
  ∀ s : State, s.ph = .exec → (∀ r ∈ opcodeMap, s.cmd &&& r.mask ≠ r.pattern) →
    ∃ t, ctrlStep s = .next t ∧ PostedError 1 [] s t

/-- An argument out of range ends the command with `ERR_OPERAND` and changes no other state, whatever else is
wrong: `PERM` 6 to 255, `KROT` and `KPERM2` 0 and 17 to 255, `PAD` 0 and 9 to 255 (R96, R238, R239). -/
def Obligations.BadArgumentPostsOperandError : Prop :=
  ∀ (s : State) (i : Instr) (a : BitVec 8),
    (i = .perm a ∧ 6 ≤ a.toNat) ∨ (i = .krot a ∧ (a = 0 ∨ 17 ≤ a.toNat)) ∨
    (i = .kperm2 a ∧ (a = 0 ∨ 17 ≤ a.toNat)) ∨ (i = .pad a ∧ (a = 0 ∨ 9 ≤ a.toNat)) →
    ∃ t, exec i s = .next t ∧ PostedError 2 [] s t

/-- `COUNT` = 0 ends `ENCODE`, `DECODE`, `PAD` and `CNTPAD` with `ERR_COUNT`, and nothing is written (R232). -/
def Obligations.ZeroCountPostsError : Prop :=
  ∀ (s : State) (i : Instr),
    i = .encode ∨ i = .decode ∨ i = .cntpad ∨ (∃ n : BitVec 8, i = .pad n ∧ 1 ≤ n.toNat ∧ n.toNat ≤ 8) →
    s.count = 0 → ∃ t, exec i s = .next t ∧ PostedError 3 [] s t

/-- `COUNT` above `MAXBLOCKS` ends `ENCODE`, `DECODE`, `PAD` and `CNTPAD` with `ERR_ALLOC`, and nothing is
written; `COUNT` = `MAXBLOCKS` is legal: none of them then posts that error (R233). -/
def Obligations.CountAboveCapacityPostsError : Prop :=
  ∀ (s : State) (i : Instr),
    i = .encode ∨ i = .decode ∨ i = .cntpad ∨ (∃ n : BitVec 8, i = .pad n ∧ 1 ≤ n.toNat ∧ n.toNat ≤ 8) →
    (s.env.params.maxBlocks < s.count.toNat → ∃ t, exec i s = .next t ∧ PostedError 4 [] s t) ∧
    (s.count.toNat = s.env.params.maxBlocks → s.err ≠ 4 → ∃ t, exec i s = .next t ∧ t.err ≠ 4)

/-- `BLOCK` and `REVKEYS` end with `ERR_NOKEYS` when some subkey has not been written since reset, and nothing else
is written; `ENCODE` and `DECODE` never do (R234). -/
def Obligations.MissingSubkeyPostsError : Prop :=
  (∀ (s : State) (i : Instr), i = .block ∨ i = .revkeys → s.skw ≠ 0xFFFF →
    ∃ t, exec i s = .next t ∧ PostedError 5 [] s t) ∧
  (∀ (s : State) (i : Instr), i = .encode ∨ i = .decode → s.err ≠ 5 →
    ∃ t, exec i s = .next t ∧ t.err ≠ 5)

/-- `CNTPAD` ends with `ERR_PAD` when the last block of `OUT` ends in no pad of 1 to 8 bytes; `RES` is then 0
and nothing else is written (R214, R235). -/
def Obligations.BadPadPostsError : Prop :=
  ∀ s : State, CountLegal s → (∀ n, ¬ EndsInPad (readEntry s .output (s.count.toNat - 1)) n) →
    ∃ t, exec .cntpad s = .next t ∧ t.res = 0 ∧ PostedError 6 [.res] s t

/-- Errors are precise: a command that ends with an error has changed nothing but the status, and `RES` when the
code is `ERR_PAD`'s; and its code is one of the six (R230, R236, R241). -/
def Obligations.ErrorsArePrecise : Prop :=
  ∀ (s t : State) (i : Instr), s.err = 0 → exec i s = .next t → t.err ≠ 0 →
    (t.err.toNat ≤ 5 ∧ 2 ≤ t.err.toNat ∧ PostedError t.err [] s t) ∨
    (t.err = 6 ∧ i = .cntpad ∧ t.res = 0 ∧ PostedError t.err [.res] s t)

/-! ## Permutation Engine -/

/-- `PERM t`: DES bit `i` of the result is DES bit `T[i]` of the low `n_in` bits of `OPA`, the bits above are 0,
and only `RES` is written (R119). -/
def Obligations.PermResult : Prop :=
  ∀ (s : State) (a : BitVec 8) (table : PermTable),
    (a, table) ∈ [(0, PermTable.ip), (1, .ipinv), (2, .e), (3, .p), (4, .pc1), (5, .pc2)] →
    ∃ t, exec (.perm a) s = .next t ∧ EndedWriting [.res] s t ∧
      (∀ i : Fin (tableOutWidth table),
        t.res.getLsbD (tableOutWidth table - 1 - i.val) =
          s.opa.getLsbD (tableInWidth table - 1 - ((tableEntries table)[i]).val)) ∧
      ∀ b, tableOutWidth table ≤ b → t.res.getLsbD b = false

/-! ## Key Schedule Generator -/

/-- `KPERM1`: `C` and `D` take the bits of `KEY` that PC-1 selects, and nothing else is written (R130, R138). -/
def Obligations.Kperm1Result : Prop :=
  ∀ s : State, ∃ t, exec .kperm1 s = .next t ∧ EndedWriting [.c, .d] s t ∧
    (∀ i : Fin 28, dbit t.c i = dbit s.key (tablePC1[i.val]).val) ∧
    (∀ i : Fin 28, dbit t.d i = dbit s.key (tablePC1[28 + i.val]).val)

/-- `KROT k`: each half rotates within its own 28 bits, by 1 in rounds 1, 2, 9 and 16 and by 2 in the others,
and nothing else is written (R12, R131, R139). -/
def Obligations.KrotResult : Prop :=
  ∀ (s : State) (k : BitVec 8), 1 ≤ k.toNat → k.toNat ≤ 16 →
    ∃ t, exec (.krot k) s = .next t ∧ EndedWriting [.c, .d] s t ∧
      let amount := if k.toNat = 1 ∨ k.toNat = 2 ∨ k.toNat = 9 ∨ k.toNat = 16 then 1 else 2
      (∀ i : Fin 28, dbit t.c i = dbit s.c ((i.val + amount) % 28)) ∧
      (∀ i : Fin 28, dbit t.d i = dbit s.d ((i.val + amount) % 28))

/-- `KPERM2 k`: `SK[k]` takes the bits of `C || D` that PC-2 selects, its written bit is set, and neither another
entry, another written bit nor anything else changes (R140). -/
def Obligations.Kperm2Result : Prop :=
  ∀ (s : State) (k : Fin 16), ∃ t, exec (.kperm2 (BitVec.ofNat 8 (k.val + 1))) s = .next t ∧
    EndedWriting [.sk, .skw] s t ∧
    (∀ i : Fin 48, dbit t.sk[k] i = dbit (s.c ++ s.d) (tablePC2[i]).val) ∧
    (∀ j : Fin 16, j ≠ k → t.sk[j] = s.sk[j]) ∧
    (∀ j : Nat, t.skw.getLsbD j = (s.skw.getLsbD j || decide (j = k.val)))

/-- `GENKEYS`: entry `k` is PC-2 of `C0` and `D0` rotated by the total shift of rounds 1 to `k`; `SKW` is all ones
and `SKREV` 0; nothing else changes but `C` and `D` (R131, R134, R141). -/
def Obligations.GenkeysResult : Prop :=
  let total : Vector (Fin 29) 16 := #v[1, 2, 4, 6, 8, 10, 12, 14, 15, 17, 19, 21, 23, 25, 27, 28]
  ∀ s : State, ∃ t, exec .genkeys s = .next t ∧ EndedWriting [.sk, .c, .d, .skw, .skrev] s t ∧
    (∀ k : Fin 16, t.sk[k] =
      keyPermutationSecond (rol28 (keyPermutationFirst s.key).1 total[k])
        (rol28 (keyPermutationFirst s.key).2 total[k])) ∧
    t.skw = 0xFFFF ∧ t.skrev = false

/-- `C16` = `C0` and `D16` = `D0`: the halves after sixteen rounds are those the schedule started from, and
`GENKEYS`, `ENCODE` and `DECODE` leave `C`, `D` equal to `key_permutation_first(KEY)` (R137). -/
def Obligations.HalvesReturnAfterSixteenRounds : Prop :=
  (∀ key : Block, halvesAfter key 16 = keyPermutationFirst key) ∧
  (∀ s : State, ∃ t, exec .genkeys s = .next t ∧ (t.c, t.d) = keyPermutationFirst s.key) ∧
  (∀ (s : State) (i : Instr), i = .encode ∨ i = .decode → CountLegal s →
    ∃ t, exec i s = .next t ∧ (t.c, t.d) = keyPermutationFirst s.key)

/-- Commands run one after another, each from the state the one before it left. -/
def runCommands : List Instr → State → Option State
  | [], s => some s
  | i :: is, s =>
    match exec i s with
    | .next t => runCommands is t
    | .fault _ => none
    | .refused _ => none

/-- `GENKEYS` is exactly the sequence `KPERM1`, then `KROT k` and `KPERM2 k` for `k` = 1 to 16, plus
`SKREV <- 0` (R141, program P2). -/
def Obligations.GenkeysEqualsItsSteps : Prop :=
  let round (k : Fin 16) : List Instr :=
    [.krot (BitVec.ofNat 8 (k.val + 1)), .kperm2 (BitVec.ofNat 8 (k.val + 1))]
  ∀ s : State, ∃ t, runCommands (.kperm1 :: (List.finRange 16).flatMap round) s = some t ∧
    exec .genkeys s = .next { t with skrev := false }

/-- `generate_subkeys` does not depend on the key bits that PC-1 drops, the least significant bit of each byte
(R21, R136 law 5). -/
def Obligations.SubkeysIgnoreDroppedKeyBits : Prop :=
  ∀ key mask : Block, mask &&& 0xFEFEFEFEFEFEFEFE = 0 →
    generateSubkeys (key ^^^ mask) = generateSubkeys key

/-- `REVKEYS` on a full bank: entry `k` takes what entry `17 - k` held, all together, `SKREV` is inverted, and
nothing else changes (R142). -/
def Obligations.RevkeysResult : Prop :=
  ∀ s : State, s.skw = 0xFFFF → ∃ t, exec .revkeys s = .next t ∧ EndedWriting [.sk, .skrev] s t ∧
    (∀ k : Fin 16, t.sk[k] = s.sk[k.rev]) ∧ t.skrev = !s.skrev

/-! ## Feistel Round Function -/

/-- `SBOX`: nibble `j` of the result is the entry of S-box `j` whose row is the outer two bits of chunk `j` of
`OPA[47:0]`, the first the more significant, and whose column is the inner four; `RES[63:32]` is 0; only `RES` is
written (R151, R152, R156). -/
def Obligations.SboxResult : Prop :=
  ∀ s : State, ∃ t, exec .sbox s = .next t ∧ EndedWriting [.res] s t ∧
    (∀ (j : Fin 8) (row : Fin 4) (col : Fin 16),
      let chunk := s.opa.extractLsb' (42 - 6 * j.val) 6
      row.val = 2 * (chunk.getLsbD 5).toNat + (chunk.getLsbD 0).toNat → col.val = (chunk.extractLsb' 1 4).toNat →
      t.res.extractLsb' (28 - 4 * j.val) 4 = sboxTables[j][row][col]) ∧
    t.res.extractLsb' 32 32 = 0

/-- `FEISTEL` equals the host's sequence `EXPAND`, exclusive-or with the subkey, `SBOX`, `PPERM`; only `RES` is
written, and the subkey is `OPB[47:0]`, never the bank (R153, R157, R159). -/
def Obligations.FeistelEqualsItsSteps : Prop :=
  ∀ s : State, ∃ t u v w, exec .feistel s = .next t ∧ EndedWriting [.res] s t ∧
    exec (.perm 2) s = .next u ∧
    exec .sbox { u with opa := u.res ^^^ (s.opb &&& 0xFFFFFFFFFFFF) } = .next v ∧
    exec (.perm 3) { v with opa := v.res } = .next w ∧ t.res = w.res

/-- `CALCR`: the new left half is the old right half, the new right half the old left half exclusive-or what
`FEISTEL` gives for the old right half and the subkey; only `RES` is written (R154, R158). -/
def Obligations.CalcrResult : Prop :=
  ∀ s : State, ∃ t u, exec .calcr s = .next t ∧ EndedWriting [.res] s t ∧ exec .feistel s = .next u ∧
    t.res.extractLsb' 32 32 = s.opa.extractLsb' 0 32 ∧
    t.res.extractLsb' 0 32 = s.opa.extractLsb' 32 32 ^^^ u.res.extractLsb' 0 32

/-! ## Block Cipher Kernel -/

/-- `BLOCK` on a full bank: the halves of IP of `OPA` go through sixteen rounds, round `k` with bank entry `k` and
every round by the one formula; the result is IP⁻¹ of `R16 || L16`; only `RES` is written (R170 to R173, R179). -/
def Obligations.BlockResult : Prop :=
  ∀ s : State, s.skw = 0xFFFF → ∃ t, exec .block s = .next t ∧ EndedWriting [.res] s t ∧
    ∃ l r : Nat → Half, l 0 ++ r 0 = permutate s.opa tableIP ∧
      (∀ k : Fin 16, l (k.val + 1) = r k.val ∧ r (k.val + 1) = calculateR (l k.val) (r k.val) s.sk[k]) ∧
      t.res = permutate (r 16 ++ l 16) tableIPINV

/-- Any full bank, whatever its sixteen values: `BLOCK`, then `REVKEYS`, then `BLOCK` of the result gives the
block back (R180 law 1). -/
def Obligations.BlockInvertedByReversedBank : Prop :=
  ∀ s : State, s.skw = 0xFFFF → ∃ t u v, exec .block s = .next t ∧
    exec .revkeys { t with opa := t.res } = .next u ∧ exec .block u = .next v ∧ v.res = s.opa

/-- The known answer, through `GENKEYS` and `BLOCK` (R180 law 2, vector V1). -/
def Obligations.KnownAnswerTest : Prop :=
  ∃ t, runCommands [.genkeys, .block]
    { State.reset with key := 0x133457799BBCDFF1, opa := 0x0123456789ABCDEF } = some t ∧
    t.res = 0x85E813540F0AB405 ∧ statusWord t = 0xFFFF0006

/-- Complementation: the complemented key and block give the complemented result (R180 law 4). -/
def Obligations.DesComplementation : Prop :=
  ∀ key b : Block, desBlock (generateSubkeys (~~~key)) (~~~b) = ~~~desBlock (generateSubkeys key) b

/-- The three steps of `TASK(i)` (R175, R176, R177): load, round `RND[i] + 1`, store; none writes anything but
its own task state, and the store its own entry of `OUT` and, of its task state, `TS[i]` alone. -/
def Obligations.TaskSteps : Prop :=
  ∀ (s : State) (i : Nat),
    let x := taskOf s.tasks i
    let t := taskStep i s
    (x.ts = .pending →
      taskOf t.tasks i =
        { ts := .running, l := (ipSplit (readEntry s .input i)).1, r := (ipSplit (readEntry s .input i)).2, rnd := 0 } ∧
      UnchangedExcept [.tasks] s t) ∧
    (∀ h : x.rnd.val < 16, x.ts = .running →
      (taskOf t.tasks i).ts = .running ∧ (taskOf t.tasks i).l = x.r ∧
      (taskOf t.tasks i).r = calculateR x.l x.r s.sk[x.rnd.val] ∧
      (taskOf t.tasks i).rnd.val = x.rnd.val + 1 ∧ UnchangedExcept [.tasks] s t) ∧
    (x.rnd.val = 16 → x.ts = .running →
      taskOf t.tasks i = { x with ts := .finished } ∧ readEntry t .output i = finalPermutation (x.l, x.r) ∧
      BytesUnchangedExcept .output i 0 s t ∧ UnchangedExcept [.tasks, .output] s t) ∧
    (∀ j, j ≠ i → taskOf t.tasks j = taskOf s.tasks j) ∧ t.env = s.env

/-- Tasks do not interfere: the steps of two different tasks commute, the resulting states being equal (R74). -/
def Obligations.TaskStepsCommute : Prop :=
  ∀ (s : State) (i j : Nat), StorageInv s → i ≠ j → taskStep i (taskStep j s) = taskStep j (taskStep i s)

/-! ## Block-Array Driver -/

/-- `ENCODE` and `DECODE` with a legal `COUNT` start a batch: in one step the bank is that of `KEY`, forward or
reversed, `C`, `D`, `SKW` and `SKREV` are written, exactly the tasks below `COUNT` become pending, `PH` is
`BATCH`, and nothing else changes (R192, R193, R194). -/
def Obligations.BatchStart : Prop :=
  ∀ (s : State) (i : Instr) (dir : Direction), (i = .encode ∧ dir = .forward) ∨ (i = .decode ∧ dir = .reversed) →
    CountLegal s →
    ∃ t, exec i s = .next t ∧
      (dir = .forward → t.sk = generateSubkeys s.key ∧ t.skrev = false) ∧
      (dir = .reversed → t.sk = reverseOrder (generateSubkeys s.key) ∧ t.skrev = true) ∧
      (t.c, t.d) = keyPermutationFirst s.key ∧ t.skw = 0xFFFF ∧ t.ph = .batch ∧
      (∀ k, k < s.count.toNat → taskOf t.tasks k = { taskOf s.tasks k with ts := .pending }) ∧
      (∀ k, s.count.toNat ≤ k → taskOf t.tasks k = taskOf s.tasks k) ∧
      t.env = s.env ∧ UnchangedExcept [.sk, .skrev, .c, .d, .skw, .ph, .tasks] s t

/-- Batch end: CTRL has a step in a batch exactly when every task below `COUNT` is `T_FIN`, and that step makes
them idle and ends the command, and writes nothing else (R196). -/
def Obligations.BatchEnd : Prop :=
  ∀ s : State, s.ph = .batch →
    (ctrlEnabled s = true ↔ ∀ i, i < s.count.toNat → taskPhase s i = .finished) ∧
    ∃ t, ctrlStep s = .next t ∧ EndedWriting [.tasks] s t ∧
      ∀ i, taskOf t.tasks i =
        if i < s.count.toNat then { taskOf s.tasks i with ts := .idle } else taskOf s.tasks i

/-- During a batch nothing but reset writes the bank, `SKW`, `SKREV`, `C`, `D`, `KEY`, `COUNT` or a byte of `IN`
(R73). -/
def Obligations.BankConstantDuringBatch : Prop :=
  ∀ s t : State, s.ph = .batch → ¬ ResetActs s → step s = .next t →
    UnchangedExcept [.tasks, .output, .ph, .done] s t

/-- `DONE` = 1 implies every result: whatever interleaving led there, the step that ends a batch leaves in every
`OUT[i]` below `COUNT` what `des_block` of `IN[i]` is under the bank of `KEY` (R75, R178). -/
def Obligations.BatchEndsWithEveryResult : Prop :=
  ∀ s t : State, BatchInv s → s.ph = .batch → ¬ ResetActs s → step s = .next t → t.ph ≠ .batch →
    t.done = true ∧ t.sk = bankOf s.key (bankDirection s) ∧
    ∀ i, i < s.count.toNat → readEntry t .output i = desBlock (bankOf s.key (bankDirection s)) (readEntry s .input i)

/-- A batch ends: with no event of the outside world pending, whatever the schedule and however few the lanes,
exactly `18 * COUNT` task steps and one CTRL step lead from an accepted ENCODE or DECODE and its start step to
`DONE` = 1, and `OUT[0 .. COUNT-1]` is `encode` or `decode` of `IN[0 .. COUNT-1]`; the bank, `C`, `D`, `SKW` are
those of `KEY` and `SKREV` is 0 or 1 by the direction; the tasks below `COUNT` are idle and hold their last round's
values; no other byte of `OUT`, no other task and no other item of the block has changed (R190, R191, R192, R194,
R197, R200). That the steps come one at a time in the order of a list is the model's choice (log entry 2). -/
def Obligations.ArrayCommandComputesItsFunction : Prop :=
  ∀ (s : State) (dir : Direction), StorageInv s → BatchInv s → CountLegal s → s.ph = .exec →
    s.env.pending = [] →
    decodeWord s.cmd = .command (match dir with | .forward => .encode | .reversed => .decode) →
    ∃ t, Host.Core.run Sys2Proof.core (1 + 18 * s.count.toNat + 1) s = .next t ∧
      t.ph = .idle ∧ t.done = true ∧ t.err = s.err ∧ t.skw = 0xFFFF ∧
      (dir = .forward → t.skrev = false) ∧ (dir = .reversed → t.skrev = true) ∧
      t.sk = bankOf s.key dir ∧ (t.c, t.d) = keyPermutationFirst s.key ∧
      (List.range s.count.toNat).map (readEntry t .output) =
        (match dir with
          | .forward => encodeBlocks ((List.range s.count.toNat).map (readEntry s .input)) s.key
          | .reversed => decodeBlocks ((List.range s.count.toNat).map (readEntry s .input)) s.key) ∧
      (∀ addr, 8 * s.count.toNat ≤ addr → readByte t .output addr = readByte s .output addr) ∧
      (∀ i, taskPhase t i = .idle) ∧
      (∀ i, i < s.count.toNat →
        let lr := roundsAfter (bankOf s.key dir) (readEntry s .input i) 16
        taskOf t.tasks i = { ts := .idle, l := lr.1, r := lr.2, rnd := 16 }) ∧
      (∀ i, s.count.toNat ≤ i → taskOf t.tasks i = taskOf s.tasks i) ∧
      UnchangedExcept [.sk, .skrev, .c, .d, .skw, .ph, .done, .tasks, .output] s t

/-- The schedule is invisible: two runs of a whole array command from states that differ only in the order of
steps and in `NLANES` end in states that differ only there (R199). -/
def Obligations.ScheduleIsInvisible : Prop :=
  ∀ (s : State) (sched : List Agent) (lanes : Lanes), StorageInv s → BatchInv s → CountLegal s → s.ph = .exec →
    s.env.pending = [] → (decodeWord s.cmd = .command .encode ∨ decodeWord s.cmd = .command .decode) →
    let s' := { s with env := { s.env with sched := sched, params := { s.env.params with lanes := lanes } } }
    let n := 1 + 18 * s.count.toNat + 1
    ∃ t t', Host.Core.run Sys2Proof.core n s = .next t ∧ Host.Core.run Sys2Proof.core n s' = .next t' ∧
      { t' with env := t.env } = t

/-- `decode` undoes `encode`, for every array and key (R198 law 1). -/
def Obligations.DecodeUndoesEncode : Prop :=
  ∀ (blocks : List Block) (key : Block), decodeBlocks (encodeBlocks blocks key) key = blocks

/-! ## Padding Codec -/

/-- `PAD n` with a legal `n` and `COUNT`: the last `n` bytes of `IN[COUNT-1]` become `n`, every other byte of `IN`
reads as before, and nothing else changes (R212). -/
def Obligations.PadResult : Prop :=
  ∀ (s : State) (n : BitVec 8), 1 ≤ n.toNat → n.toNat ≤ 8 → CountLegal s →
    ∃ t, exec (.pad n) s = .next t ∧ EndedWriting [.input] s t ∧
      (∀ j : Fin 8, 8 - n.toNat ≤ j.val → byteOf (readEntry t .input (s.count.toNat - 1)) j = n) ∧
      BytesUnchangedExcept .input (s.count.toNat - 1) (8 - n.toNat) s t

/-- `CNTPAD` with a legal `COUNT` and a well-formed pad in `OUT[COUNT-1]`: `RES` is its length, and only `RES` is
written (R211, R214). -/
def Obligations.CntpadResult : Prop :=
  ∀ (s : State) (n : Nat), CountLegal s → EndsInPad (readEntry s .output (s.count.toNat - 1)) n →
    ∃ t, exec .cntpad s = .next t ∧ EndedWriting [.res] s t ∧ t.res.toNat = n

/-- Padding then counting gives the length back, and the bytes before the pad are kept (R215 laws 2 and 3). -/
def Obligations.CountOfPaddedBlock : Prop :=
  ∀ (b : Block) (n : Nat), 1 ≤ n → n ≤ 8 →
    countPaddingBytes (pkcs5Padding b n) = some n ∧
    ∀ j : Fin 8, j.val < 8 - n → byteOf (pkcs5Padding b n) j = byteOf b j

/-! ## Invariants -/

/-- Every step keeps the invariant of the flags and `ERR` (R25, R28, R29, R236). -/
def Obligations.StepKeepsStatusInv : Prop := ∀ s t : State, StatusInv s → step s = .next t → StatusInv t

/-- Every step keeps the canonical form of the memories and the task states, inside the arrays (R64). -/
def Obligations.StepKeepsStorageInv : Prop :=
  ∀ s t : State, StorageInv s → BatchInv s → step s = .next t → StorageInv t

/-- Every step keeps the invariant of a batch, whatever agent takes it (R73, R74, R175 to R178, R193, R196). -/
def Obligations.StepKeepsBatchInv : Prop := ∀ s t : State, BatchInv s → step s = .next t → BatchInv t

/-- Every step keeps the number of running tasks within `NLANES` (R195). -/
def Obligations.StepKeepsLanesInv : Prop :=
  ∀ s t : State, StorageInv s → BatchInv s → LanesInv s → step s = .next t → LanesInv t

/-- The state after reset meets every invariant. -/
def Obligations.ResetMeetsInvariants : Prop :=
  StatusInv State.reset ∧ StorageInv State.reset ∧ BatchInv State.reset ∧ LanesInv State.reset

/-! ## Constant tables -/

/-- The checks that the spec gives of its tables: IP and IP⁻¹ are inverse to each other (R113, R114), E has its
closed form (R115), P is a bijection (R116), the entries of PC-1 and of PC-2 are distinct, the first half of
PC-2 reads `C` and the second `D`, and neither reads the eight indices it drops (R117, R118); each table has its sum
of entries; every row of every S-box is a permutation of 0 to 15, and the boxes have their weighted sums (R150). -/
def Obligations.ConstantTablesPassTheirChecks : Prop :=
  (∀ i : Fin 64, tableIPINV[tableIP[i]] = i ∧ tableIP[tableIPINV[i]] = i) ∧
  (∀ (j : Fin 8) (m : Fin 6), (tableE[6 * j.val + m.val]).val = (4 * j.val + m.val + 31) % 32) ∧
  (∀ x : Fin 32, x ∈ tableP.toList) ∧
  (entriesOf tablePC1).Nodup ∧ (∀ x ∈ [7, 15, 23, 31, 39, 47, 55, 63], x ∉ entriesOf tablePC1) ∧
  (entriesOf tablePC2).Nodup ∧ (∀ x ∈ [8, 17, 21, 24, 34, 37, 42, 53], x ∉ entriesOf tablePC2) ∧
  (∀ i : Fin 48, (tablePC2[i]).val < 28 ↔ i.val < 24) ∧
  [(entriesOf tableIP).sum, (entriesOf tableIPINV).sum, (entriesOf tableE).sum, (entriesOf tableP).sum,
    (entriesOf tablePC1).sum, (entriesOf tablePC2).sum] = [2016, 2016, 744, 496, 1736, 1304] ∧
  (∀ (j : Fin 8) (row : Fin 4) (v : Fin 16), ∃ col : Fin 16, sboxTables[j][row][col].toNat = v.val) ∧
  sboxTables.toList.map (fun box => weightedSum (boxValues box)) =
    [15455, 15538, 15707, 15614, 15578, 15516, 15510, 15575]
end

