-- ==== Sys2Proof/Laws/Cipher.lean ====
section
/-! SUPPORT. The small lemmas of the cipher's functions: what each bit of a permutation is, how permutation
meets exclusive-or, and how the rounds and the schedule unfold one at a time. -/

namespace Sys2Proof.Machine

/-- DES bit `i` is integer bit `n - 1 - i` (R8). -/
theorem dbit_eq_getLsbD {n : Nat} (s : BitVec n) (i : Nat) (h : i < n) : dbit s i = s.getLsbD (n - 1 - i) := by
  simp [dbit, BitVec.getMsbD, h]

/-- Two bit-strings with the same DES bits are the same (R8). -/
theorem eq_of_dbit_eq {n : Nat} {a b : BitVec n} (h : ∀ i, i < n → dbit a i = dbit b i) : a = b :=
  BitVec.eq_of_getMsbD_eq fun i hi => h i hi

/-- What `permutate` does, bit by bit (R11). -/
theorem dbit_permutate {nIn nOut : Nat} (s : BitVec nIn) (t : Vector (Fin nIn) nOut) (i : Nat) (h : i < nOut) :
    dbit (permutate s t) i = dbit s t[i].val := by
  simp [dbit, permutate, BitVec.getMsbD_ofFnBE, h]

@[simp] theorem dbit_xor {n : Nat} (a b : BitVec n) (i : Nat) : dbit (a ^^^ b) i = (dbit a i ^^ dbit b i) := by
  simp [dbit]

/-- A permutation of an exclusive-or is the exclusive-or of the permutations (R120 law 3). -/
theorem permutate_xor {nIn nOut : Nat} (a b : BitVec nIn) (t : Vector (Fin nIn) nOut) :
    permutate (a ^^^ b) t = permutate a t ^^^ permutate b t := by
  apply eq_of_dbit_eq
  intro i h
  simp [dbit_permutate, h]

/-- Two permutations in a row are one, along the composed table (R120 law 4). -/
theorem permutate_permutate {n m k : Nat} (s : BitVec n) (t : Vector (Fin n) m) (u : Vector (Fin m) k) :
    permutate (permutate s t) u = permutate s (u.map fun j => t[j]) := by
  apply eq_of_dbit_eq
  intro i h
  simp [dbit_permutate, h]

/-- The table that lists every index in order leaves its input (R120 law 1). -/
theorem permutate_identity {n : Nat} (s : BitVec n) : permutate s (Vector.ofFn fun i => i) = s := by
  apply eq_of_dbit_eq
  intro i h
  simp [dbit_permutate, h]

/-- `(C_0, D_0)` (R134). -/
theorem halvesAfter_zero (key : Block) : halvesAfter key 0 = keyPermutationFirst key := by
  simp [halvesAfter]

/-- Round `k + 1` of the schedule rotates what round `k` left (R132, R134). -/
theorem halvesAfter_succ (key : Block) (k : Fin 16) :
    halvesAfter key (k.val + 1) = rotateHalves (halvesAfter key k.val) shiftSchedule[k] := by
  simp [halvesAfter, List.take_add_one, List.foldl_append]

/-- Entry `k` of the bank is PC-2 of the halves after round `k + 1` (R134). -/
theorem generateSubkeys_get (key : Block) (k : Fin 16) :
    (generateSubkeys key)[k] =
      keyPermutationSecond (halvesAfter key (k.val + 1)).1 (halvesAfter key (k.val + 1)).2 := by
  simp [generateSubkeys]

/-- Entry `k` of the reversed bank is entry `15 - k` (R135). -/
theorem reverseOrder_get (sk : Bank) (k : Fin 16) : (reverseOrder sk)[k] = sk[k.rev] := by
  simp [reverseOrder]

/-- `(L_0, R_0)` (R171). -/
theorem roundsAfter_zero (sk : Bank) (b : Block) : roundsAfter sk b 0 = ipSplit b := by
  simp [roundsAfter]

/-- Round `k + 1` takes the halves round `k` left, with bank entry `k` (R172). -/
theorem roundsAfter_succ (sk : Bank) (b : Block) (k : Fin 16) :
    roundsAfter sk b (k.val + 1) = roundStep (roundsAfter sk b k.val) sk[k] := by
  simp [roundsAfter, List.take_add_one, List.foldl_append]

/-- What a rotation does, bit by bit (R12). -/
theorem dbit_rol28 (v : KeyHalf) (k : Fin 29) (i : Fin 28) : dbit (rol28 v k) i = dbit v ((i.val + k.val) % 28) := by
  have hi := i.isLt
  have hk := k.isLt
  have hm : (i.val + k.val) % 28 < 28 := Nat.mod_lt _ (by decide)
  rw [dbit_eq_getLsbD _ _ hi, dbit_eq_getLsbD _ _ hm]
  simp only [rol28, BitVec.getLsbD_or, BitVec.getLsbD_shiftLeft, BitVec.getLsbD_ushiftRight]
  by_cases h : i.val + k.val < 28
  · rw [Nat.mod_eq_of_lt h]
    have e1 : 28 - 1 - i.val - k.val = 28 - 1 - (i.val + k.val) := by omega
    have e2 : ¬ (28 - 1 - i.val < k.val) := by omega
    by_cases hk0 : k.val = 0
    · simp [hk0]; omega
    · rw [e1, BitVec.getLsbD_of_ge v (28 - k.val + (28 - 1 - i.val)) (by omega)]
      simp [e2]; omega
  · have e1 : (i.val + k.val) % 28 = i.val + k.val - 28 := by omega
    have e2 : 28 - k.val + (28 - 1 - i.val) = 28 - 1 - (i.val + k.val - 28) := by omega
    rw [e1, e2]
    by_cases hk28 : 28 - 1 - i.val < k.val
    · simp [hk28]
    · omega

end Sys2Proof.Machine
end

