-- ==== Sys2Proof/Laws/Storage.lean ====
section
/-! SUPPORT. What the shared operations over the memories and the tasks do, said once: reads after writes,
and that every operation keeps the canonical form. -/

namespace Sys2Proof.Machine

/-! ## Sparse lists -/

theorem lookupCell_storeCell {α : Type} (m : List (Nat × α)) (k k' : Nat) (v : α) :
    lookupCell (storeCell m k v) k' = if k = k' then some v else lookupCell m k' := by
  induction m with
  | nil => simp [storeCell, lookupCell]
  | cons e m ih =>
    obtain ⟨a, w⟩ := e
    simp only [storeCell]
    split
    · simp [lookupCell]
    · split
      · subst_vars; by_cases h : a = k' <;> simp [lookupCell, h]
      · simp only [lookupCell, ih]
        by_cases h : a = k' <;> simp_all

theorem lookupCell_dropCell {α : Type} (m : List (Nat × α)) (k k' : Nat) :
    lookupCell (dropCell m k) k' = if k = k' then none else lookupCell m k' := by
  induction m with
  | nil => simp [dropCell, lookupCell]
  | cons e m ih =>
    obtain ⟨a, w⟩ := e
    unfold dropCell at ih ⊢
    by_cases h : a = k <;> by_cases h' : a = k' <;> simp_all [lookupCell]
    omega

theorem mem_storeCell {α : Type} (m : List (Nat × α)) (k : Nat) (v : α) (e : Nat × α)
    (h : e ∈ storeCell m k v) : e = (k, v) ∨ e ∈ m := by
  induction m with
  | nil => simp_all [storeCell]
  | cons x m ih =>
    obtain ⟨a, w⟩ := x
    simp only [storeCell] at h
    split at h
    · simpa using h
    · split at h
      · simp only [List.mem_cons] at h ⊢; tauto
      · simp only [List.mem_cons] at h ⊢; tauto

theorem mem_dropCell {α : Type} (m : List (Nat × α)) (k : Nat) (e : Nat × α) (h : e ∈ dropCell m k) : e ∈ m :=
  (List.mem_filter.mp h).1

theorem risingKeys_storeCell {α : Type} (m : List (Nat × α)) (k : Nat) (v : α) (h : RisingKeys m) :
    RisingKeys (storeCell m k v) := by
  induction m with
  | nil => simp [storeCell, RisingKeys]
  | cons x m ih =>
    obtain ⟨a, w⟩ := x
    obtain ⟨ha, hm⟩ := List.pairwise_cons.mp h
    simp only [storeCell]
    split
    · refine List.pairwise_cons.mpr ⟨fun e he => ?_, h⟩
      rcases List.mem_cons.mp he with rfl | he
      · assumption
      · exact Nat.lt_trans (by assumption) (ha e he)
    · split
      · subst_vars; exact List.pairwise_cons.mpr ⟨ha, hm⟩
      · refine List.pairwise_cons.mpr ⟨fun e he => ?_, ih hm⟩
        rcases mem_storeCell m k v e he with rfl | he
        · show a < k; omega
        · exact ha e he

theorem risingKeys_dropCell {α : Type} (m : List (Nat × α)) (k : Nat) (h : RisingKeys m) :
    RisingKeys (dropCell m k) := h.filter _

/-- Two sparse lists in canonical order that list the same values are the same list. -/
theorem risingKeys_ext {α : Type} {m m' : List (Nat × α)} (h : RisingKeys m) (h' : RisingKeys m')
    (e : ∀ k, lookupCell m k = lookupCell m' k) : m = m' := by
  have above : ∀ (l : List (Nat × α)) (a : Nat), (∀ x ∈ l, a < x.1) → lookupCell l a = none := by
    intro l a hl
    induction l with
    | nil => rfl
    | cons x l ih =>
      have := hl x (by simp)
      simp only [lookupCell]
      rw [if_neg (by omega)]
      exact ih fun y hy => hl y (by simp [hy])
  induction m generalizing m' with
  | nil =>
    cases m' with
    | nil => rfl
    | cons x l => have := e x.1; simp [lookupCell] at this
  | cons x l ih =>
    obtain ⟨hx, hl⟩ := List.pairwise_cons.mp h
    cases m' with
    | nil => have := e x.1; simp [lookupCell] at this
    | cons y l' =>
      obtain ⟨hy, hl'⟩ := List.pairwise_cons.mp h'
      have hkey : x.1 = y.1 := by
        rcases Nat.lt_trichotomy x.1 y.1 with hlt | heq | hgt
        · have := e x.1
          simp only [lookupCell, if_true] at this
          rw [if_neg (by omega), above l' x.1 fun z hz => Nat.lt_trans hlt (hy z hz)] at this
          simp at this
        · exact heq
        · have := e y.1
          simp only [lookupCell, if_true] at this
          rw [if_neg (by omega), above l y.1 fun z hz => Nat.lt_trans hgt (hx z hz)] at this
          simp at this
      have hval : x.2 = y.2 := by
        have := e x.1
        simpa [lookupCell, hkey] using this
      have hrest : l = l' := by
        refine ih hl hl' fun k => ?_
        by_cases hk : x.1 = k
        · rw [above l k fun z hz => hk ▸ hx z hz, above l' k fun z hz => hk ▸ hkey ▸ hy z hz]
        · have := e k
          simp only [lookupCell] at this
          rwa [if_neg hk, if_neg (by omega)] at this
      rw [hrest, Prod.ext hkey hval]

/-! ## Bytes of a block -/

@[simp] theorem byteOf_blockOfBytes (f : Fin 8 → Byte) (j : Fin 8) : byteOf (blockOfBytes f) j = f j := by
  apply BitVec.eq_of_getLsbD_eq
  intro b hb
  fin_cases j <;> simp [byteOf, blockOfBytes] <;> grind

@[simp] theorem blockOfBytes_byteOf (b : Block) : blockOfBytes (byteOf b) = b := by
  apply BitVec.eq_of_getLsbD_eq
  intro i hi
  simp only [blockOfBytes, byteOf, BitVec.getLsbD_append, BitVec.getLsbD_extractLsb']
  interval_cases i <;> simp

/-- A block is its eight bytes. -/
theorem block_ext {a b : Block} (h : ∀ j, byteOf a j = byteOf b j) : a = b := by
  rw [← blockOfBytes_byteOf a, ← blockOfBytes_byteOf b]
  exact congrArg blockOfBytes (funext h)

/-! ## The block memories -/

theorem arrayOf_withArray (s : State) (a a' : BlockArray) (m : Memory) :
    arrayOf (withArray s a m) a' = if a = a' then m else arrayOf s a' := by
  cases a <;> cases a' <;> rfl

/-- A byte read after a byte write. -/
theorem readByte_writeByte (s : State) (a a' : BlockArray) (addr addr' : Nat) (v : Byte) :
    readByte (writeByte s a addr v) a' addr' = if a = a' ∧ addr = addr' then v else readByte s a' addr' := by
  unfold readByte writeByte unlistedByte
  rw [arrayOf_withArray]
  have hr : (withArray s a (storeCell (arrayOf s a) addr v)).env = s.env := by cases a <;> rfl
  rw [hr]
  by_cases ha : a = a'
  · subst ha
    by_cases hk : addr = addr' <;> simp [lookupCell_storeCell, hk]
  · simp [ha]

/-- The bytes written are read back. -/
theorem readByte_writeEntryBytes_of_mem (s : State) (a : BlockArray) (i : Nat) (f : Fin 8 → Byte)
    (js : List (Fin 8)) (j : Fin 8) (h : j ∈ js) :
    readByte (writeEntryBytes s a i f js) a (byteAddr i j) = f j := by
  induction js using List.reverseRecOn with
  | nil => simp at h
  | append_singleton l x ih =>
    unfold writeEntryBytes at ih ⊢
    rw [List.foldl_append]
    simp only [List.foldl_cons, List.foldl_nil, writeEntryByte]
    rw [readByte_writeByte]
    by_cases hx : x = j
    · simp [hx]
    · rw [if_neg (by simp only [byteAddr]; rintro ⟨-, h⟩; exact hx (Fin.ext (by omega)))]
      exact ih (by simp_all [eq_comm])

/-- Every other byte is as it was. -/
theorem readByte_writeEntryBytes_of_ne (s : State) (a a' : BlockArray) (i : Nat) (f : Fin 8 → Byte)
    (js : List (Fin 8)) (addr : Nat) (h : a = a' → ∀ j ∈ js, addr ≠ byteAddr i j) :
    readByte (writeEntryBytes s a i f js) a' addr = readByte s a' addr := by
  induction js using List.reverseRecOn with
  | nil => rfl
  | append_singleton l x ih =>
    unfold writeEntryBytes at ih ⊢
    rw [List.foldl_append]
    simp only [List.foldl_cons, List.foldl_nil, writeEntryByte]
    rw [readByte_writeByte, if_neg (by rintro ⟨ha, he⟩; exact h ha x (by simp) he.symm)]
    exact ih fun ha j hj => h ha j (by simp [hj])

/-- Writing bytes of an entry only replaces the memory of that array. -/
theorem writeEntryBytes_eq_withArray (s : State) (a : BlockArray) (i : Nat) (f : Fin 8 → Byte)
    (js : List (Fin 8)) :
    writeEntryBytes s a i f js =
      withArray s a (js.foldl (fun m j => storeCell m (byteAddr i j) (f j)) (arrayOf s a)) := by
  unfold writeEntryBytes
  induction js generalizing s with
  | nil => cases a <;> rfl
  | cons j l ih =>
    rw [List.foldl_cons, List.foldl_cons, ih]
    cases a <;> rfl

/-- An entry read after a write of a whole entry (R66). -/
theorem readEntry_writeEntry (s : State) (a a' : BlockArray) (i i' : Nat) (v : Block) :
    readEntry (writeEntry s a i v) a' i' = if a = a' ∧ i = i' then v else readEntry s a' i' := by
  apply block_ext
  intro j
  unfold writeEntry readEntry readEntryByte
  rw [byteOf_blockOfBytes]
  by_cases h : a = a' ∧ i = i'
  · obtain ⟨rfl, rfl⟩ := h
    rw [readByte_writeEntryBytes_of_mem _ _ _ _ _ _ (List.mem_finRange j)]
    simp
  · rw [if_neg h, byteOf_blockOfBytes, readByte_writeEntryBytes_of_ne]
    intro ha k _ he
    refine h ⟨ha, ?_⟩
    simp only [byteAddr] at he
    omega

theorem foldl_storeCell_rising (js : List (Fin 8)) (i : Nat) (f : Fin 8 → Byte) (m : Memory) (h : m.wf) :
    Memory.wf (js.foldl (fun m j => storeCell m (byteAddr i j) (f j)) m) := by
  induction js generalizing m with
  | nil => exact h
  | cons j l ih => exact ih _ (risingKeys_storeCell _ _ _ h)

theorem foldl_storeCell_mem (js : List (Fin 8)) (i : Nat) (f : Fin 8 → Byte) (m : Memory) (e : Host.Cell)
    (h : e ∈ js.foldl (fun m j => storeCell m (byteAddr i j) (f j)) m) :
    e ∈ m ∨ ∃ j, e.1 = byteAddr i j := by
  induction js generalizing m with
  | nil => exact .inl h
  | cons j l ih =>
    rcases ih _ h with hm | hj
    · rcases mem_storeCell _ _ _ _ hm with rfl | hm
      · exact .inr ⟨j, rfl⟩
      · exact .inl hm
    · exact .inr hj

/-- Writing bytes of an entry keeps the canonical form of both memories. -/
theorem writeEntryBytes_wf (s : State) (a a' : BlockArray) (i : Nat) (f : Fin 8 → Byte) (js : List (Fin 8))
    (h : (arrayOf s a').wf) : (arrayOf (writeEntryBytes s a i f js) a').wf := by
  rw [writeEntryBytes_eq_withArray, arrayOf_withArray]
  split
  · subst_vars; exact foldl_storeCell_rising _ _ _ _ h
  · exact h

/-- Writing a byte keeps the canonical form of both memories. -/
theorem writeByte_wf (s : State) (a a' : BlockArray) (addr : Nat) (v : Byte) (h : (arrayOf s a').wf) :
    (arrayOf (writeByte s a addr v) a').wf := by
  unfold writeByte
  rw [arrayOf_withArray]
  split
  · subst_vars; exact risingKeys_storeCell _ _ _ h
  · exact h

/-- A byte listed after a write of entry `i` was listed before, or is one of the entry's. -/
theorem mem_writeEntryBytes (s : State) (a a' : BlockArray) (i : Nat) (f : Fin 8 → Byte) (js : List (Fin 8))
    (e : Host.Cell) (h : e ∈ arrayOf (writeEntryBytes s a i f js) a') :
    e ∈ arrayOf s a' ∨ (a = a' ∧ ∃ j, e.1 = byteAddr i j) := by
  rw [writeEntryBytes_eq_withArray, arrayOf_withArray] at h
  split at h
  · subst_vars
    rcases foldl_storeCell_mem _ _ _ _ _ h with h | h
    · exact .inl h
    · exact .inr ⟨rfl, h⟩
  · exact .inl h

/-- A byte read after a write of an entry: one of the entry's, or as it was. -/
theorem readByte_writeEntry (s : State) (a a' : BlockArray) (i : Nat) (v : Block) (addr : Nat) :
    readByte (writeEntry s a i v) a' addr =
      if h : a' = a ∧ 8 * i ≤ addr ∧ addr < 8 * i + 8 then byteOf v ⟨addr - 8 * i, by omega⟩
      else readByte s a' addr := by
  split
  · next h =>
    obtain ⟨rfl, h1, h2⟩ := h
    have e : addr = byteAddr i ⟨addr - 8 * i, by omega⟩ := by simp [byteAddr]; omega
    conv_lhs => rw [e]
    unfold writeEntry
    rw [readByte_writeEntryBytes_of_mem _ _ _ _ _ _ (List.mem_finRange _)]
  · next h =>
    unfold writeEntry
    apply readByte_writeEntryBytes_of_ne
    intro ha j _ e
    simp only [byteAddr] at e
    have := j.isLt
    exact h ⟨ha.symm, by omega, by omega⟩

/-! ## The tasks -/

/-- A task read after a task write. -/
theorem taskOf_setTask (m : TaskBank) (i j : Nat) (t : Task) :
    taskOf (setTask m i t) j = if i = j then t else taskOf m j := by
  unfold setTask taskOf
  split
  · rw [lookupCell_dropCell]; split <;> simp_all
  · rw [lookupCell_storeCell]; split <;> simp_all

/-- A task read after a phase has been set below an index (R193, R196). -/
theorem taskOf_setPhaseBelow (m : TaskBank) (p : TaskPhase) (n i : Nat) :
    taskOf (setPhaseBelow m p n) i = if i < n then { taskOf m i with ts := p } else taskOf m i := by
  induction n with
  | zero => simp [setPhaseBelow]
  | succ n ih =>
    simp only [setPhaseBelow, taskOf_setTask]
    by_cases h : n = i
    · subst h
      have := taskOf m n
      rw [if_pos rfl, if_pos (Nat.lt_succ_self n)]
      clear this
      have key : taskOf (setPhaseBelow m p n) n = taskOf m n := by rw [ih]; simp
      rw [key]
    · rw [if_neg h, ih]
      by_cases h' : i < n
      · rw [if_pos h', if_pos (by omega)]
      · rw [if_neg h', if_neg (by omega)]

theorem setTask_wf (m : TaskBank) (i : Nat) (t : Task) (h : m.wf) : TaskBank.wf (setTask m i t) := by
  unfold setTask
  split
  · exact ⟨risingKeys_dropCell _ _ h.1, fun e he => h.2 e (mem_dropCell _ _ _ he)⟩
  · refine ⟨risingKeys_storeCell _ _ _ h.1, fun e he => ?_⟩
    rcases mem_storeCell _ _ _ _ he with rfl | he
    · assumption
    · exact h.2 e he

theorem mem_setTask (m : TaskBank) (i : Nat) (t : Task) (e : Nat × Task) (h : e ∈ setTask m i t) :
    e ∈ m ∨ e.1 = i := by
  unfold setTask at h
  split at h
  · exact .inl (mem_dropCell _ _ _ h)
  · rcases mem_storeCell _ _ _ _ h with rfl | h
    · exact .inr rfl
    · exact .inl h

theorem setPhaseBelow_wf (m : TaskBank) (p : TaskPhase) (n : Nat) (h : m.wf) :
    TaskBank.wf (setPhaseBelow m p n) := by
  induction n with
  | zero => exact h
  | succ n ih => exact setTask_wf _ _ _ ih

theorem mem_setPhaseBelow (m : TaskBank) (p : TaskPhase) (n : Nat) (e : Nat × Task)
    (h : e ∈ setPhaseBelow m p n) : e ∈ m ∨ e.1 < n := by
  induction n with
  | zero => exact .inl h
  | succ n ih =>
    rcases mem_setTask _ _ _ _ h with h | h
    · rcases ih h with h | h
      · exact .inl h
      · exact .inr (by omega)
    · exact .inr (by omega)

theorem lookupCell_of_mem {α : Type} {m : List (Nat × α)} (h : RisingKeys m) {k : Nat} {v : α} (hm : (k, v) ∈ m) :
    lookupCell m k = some v := by
  induction m with
  | nil => simp at hm
  | cons x m ih =>
    obtain ⟨hx, hr⟩ := List.pairwise_cons.mp h
    simp only [lookupCell]
    rcases List.mem_cons.mp hm with rfl | hm
    · simp
    · rw [if_neg (by have := hx _ hm; simp only at this; omega)]
      exact ih hr hm

theorem mem_of_lookupCell {α : Type} {m : List (Nat × α)} {k : Nat} {v : α} (h : lookupCell m k = some v) :
    (k, v) ∈ m := by
  induction m with
  | nil => simp [lookupCell] at h
  | cons x m ih =>
    simp only [lookupCell] at h
    split at h
    · next hx => exact List.mem_cons.mpr (.inl (Prod.ext hx.symm (Option.some.inj h).symm))
    · exact List.mem_cons_of_mem _ (ih h)

/-- In canonical form two task lists that read alike are the same list. -/
theorem taskBank_ext {m m' : TaskBank} (h : m.wf) (h' : m'.wf) (e : ∀ i, taskOf m i = taskOf m' i) : m = m' := by
  have none_of : ∀ (l : TaskBank), l.wf → ∀ i, taskOf l i = Task.reset → lookupCell l i = none := by
    intro l hl i hi
    cases hc : lookupCell l i with
    | none => rfl
    | some v =>
      exfalso
      have hv : v = Task.reset := by simpa [taskOf, hc] using hi
      exact hl.2 _ (mem_of_lookupCell hc) hv
  refine risingKeys_ext h.1 h'.1 fun i => ?_
  have := e i
  cases h1 : lookupCell m i with
  | none =>
    have hr : taskOf m i = Task.reset := by simp [taskOf, h1]
    rw [none_of m' h' i (this ▸ hr)]
  | some v =>
    cases h2 : lookupCell m' i with
    | none =>
      have hr : taskOf m' i = Task.reset := by simp [taskOf, h2]
      rw [none_of m h i (this ▸ hr)] at h1
      exact absurd h1 (by simp)
    | some w => simpa [taskOf, h1, h2] using this

end Sys2Proof.Machine
end

