-- ==== Sys2Proof/Laws/State.lean ====
section
/-! SUPPORT. What each shared update does to each field of the state, one lemma a field, so that no proof
unfolds a record update. -/

namespace Sys2Proof.Machine

/-! ### `endCommand`: the end of a command (R98) -/

@[simp] theorem endCommand_key (s : State) : (endCommand s).key = s.key := rfl
@[simp] theorem endCommand_cmd (s : State) : (endCommand s).cmd = s.cmd := rfl
@[simp] theorem endCommand_done (s : State) : (endCommand s).done = true := rfl
@[simp] theorem endCommand_skrev (s : State) : (endCommand s).skrev = s.skrev := rfl
@[simp] theorem endCommand_sticky (s : State) : (endCommand s).sticky = s.sticky := rfl
@[simp] theorem endCommand_err (s : State) : (endCommand s).err = s.err := rfl
@[simp] theorem endCommand_skw (s : State) : (endCommand s).skw = s.skw := rfl
@[simp] theorem endCommand_count (s : State) : (endCommand s).count = s.count := rfl
@[simp] theorem endCommand_sk (s : State) : (endCommand s).sk = s.sk := rfl
@[simp] theorem endCommand_c (s : State) : (endCommand s).c = s.c := rfl
@[simp] theorem endCommand_d (s : State) : (endCommand s).d = s.d := rfl
@[simp] theorem endCommand_opa (s : State) : (endCommand s).opa = s.opa := rfl
@[simp] theorem endCommand_opb (s : State) : (endCommand s).opb = s.opb := rfl
@[simp] theorem endCommand_res (s : State) : (endCommand s).res = s.res := rfl
@[simp] theorem endCommand_inArr (s : State) : (endCommand s).inArr = s.inArr := rfl
@[simp] theorem endCommand_outArr (s : State) : (endCommand s).outArr = s.outArr := rfl
@[simp] theorem endCommand_tasks (s : State) : (endCommand s).tasks = s.tasks := rfl
@[simp] theorem endCommand_ph (s : State) : (endCommand s).ph = .idle := rfl
@[simp] theorem endCommand_env (s : State) : (endCommand s).env = s.env := rfl

/-! ### `raiseErr`: an error posted (R236) -/

@[simp] theorem raiseErr_key (e : ErrCause) (s : State) : (raiseErr e s).key = s.key := rfl
@[simp] theorem raiseErr_cmd (e : ErrCause) (s : State) : (raiseErr e s).cmd = s.cmd := rfl
@[simp] theorem raiseErr_done (e : ErrCause) (s : State) : (raiseErr e s).done = true := rfl
@[simp] theorem raiseErr_skrev (e : ErrCause) (s : State) : (raiseErr e s).skrev = s.skrev := rfl
@[simp] theorem raiseErr_sticky (e : ErrCause) (s : State) : (raiseErr e s).sticky = true := rfl
@[simp] theorem raiseErr_err (e : ErrCause) (s : State) : (raiseErr e s).err = errCode e := rfl
@[simp] theorem raiseErr_skw (e : ErrCause) (s : State) : (raiseErr e s).skw = s.skw := rfl
@[simp] theorem raiseErr_count (e : ErrCause) (s : State) : (raiseErr e s).count = s.count := rfl
@[simp] theorem raiseErr_sk (e : ErrCause) (s : State) : (raiseErr e s).sk = s.sk := rfl
@[simp] theorem raiseErr_c (e : ErrCause) (s : State) : (raiseErr e s).c = s.c := rfl
@[simp] theorem raiseErr_d (e : ErrCause) (s : State) : (raiseErr e s).d = s.d := rfl
@[simp] theorem raiseErr_opa (e : ErrCause) (s : State) : (raiseErr e s).opa = s.opa := rfl
@[simp] theorem raiseErr_opb (e : ErrCause) (s : State) : (raiseErr e s).opb = s.opb := rfl
@[simp] theorem raiseErr_res (e : ErrCause) (s : State) : (raiseErr e s).res = s.res := rfl
@[simp] theorem raiseErr_inArr (e : ErrCause) (s : State) : (raiseErr e s).inArr = s.inArr := rfl
@[simp] theorem raiseErr_outArr (e : ErrCause) (s : State) : (raiseErr e s).outArr = s.outArr := rfl
@[simp] theorem raiseErr_tasks (e : ErrCause) (s : State) : (raiseErr e s).tasks = s.tasks := rfl
@[simp] theorem raiseErr_ph (e : ErrCause) (s : State) : (raiseErr e s).ph = .idle := rfl
@[simp] theorem raiseErr_env (e : ErrCause) (s : State) : (raiseErr e s).env = s.env := rfl

/-! ### `acceptCommand`: a command accepted (R97) -/

@[simp] theorem acceptCommand_key (w : CommandWord) (s : State) : (acceptCommand w s).key = s.key := rfl
@[simp] theorem acceptCommand_cmd (w : CommandWord) (s : State) : (acceptCommand w s).cmd = w := rfl
@[simp] theorem acceptCommand_done (w : CommandWord) (s : State) : (acceptCommand w s).done = false := rfl
@[simp] theorem acceptCommand_skrev (w : CommandWord) (s : State) : (acceptCommand w s).skrev = s.skrev := rfl
@[simp] theorem acceptCommand_sticky (w : CommandWord) (s : State) : (acceptCommand w s).sticky = s.sticky := rfl
@[simp] theorem acceptCommand_err (w : CommandWord) (s : State) : (acceptCommand w s).err = 0 := rfl
@[simp] theorem acceptCommand_skw (w : CommandWord) (s : State) : (acceptCommand w s).skw = s.skw := rfl
@[simp] theorem acceptCommand_count (w : CommandWord) (s : State) : (acceptCommand w s).count = s.count := rfl
@[simp] theorem acceptCommand_sk (w : CommandWord) (s : State) : (acceptCommand w s).sk = s.sk := rfl
@[simp] theorem acceptCommand_c (w : CommandWord) (s : State) : (acceptCommand w s).c = s.c := rfl
@[simp] theorem acceptCommand_d (w : CommandWord) (s : State) : (acceptCommand w s).d = s.d := rfl
@[simp] theorem acceptCommand_opa (w : CommandWord) (s : State) : (acceptCommand w s).opa = s.opa := rfl
@[simp] theorem acceptCommand_opb (w : CommandWord) (s : State) : (acceptCommand w s).opb = s.opb := rfl
@[simp] theorem acceptCommand_res (w : CommandWord) (s : State) : (acceptCommand w s).res = s.res := rfl
@[simp] theorem acceptCommand_inArr (w : CommandWord) (s : State) : (acceptCommand w s).inArr = s.inArr := rfl
@[simp] theorem acceptCommand_outArr (w : CommandWord) (s : State) : (acceptCommand w s).outArr = s.outArr := rfl
@[simp] theorem acceptCommand_tasks (w : CommandWord) (s : State) : (acceptCommand w s).tasks = s.tasks := rfl
@[simp] theorem acceptCommand_ph (w : CommandWord) (s : State) : (acceptCommand w s).ph = .exec := rfl
@[simp] theorem acceptCommand_env (w : CommandWord) (s : State) : (acceptCommand w s).env = s.env := rfl

/-! ### `loadBank`: the bank written whole (R193) -/

@[simp] theorem loadBank_key (s : State) (dir : Direction) : (loadBank s dir).key = s.key := rfl
@[simp] theorem loadBank_cmd (s : State) (dir : Direction) : (loadBank s dir).cmd = s.cmd := rfl
@[simp] theorem loadBank_done (s : State) (dir : Direction) : (loadBank s dir).done = s.done := rfl
@[simp] theorem loadBank_skrev (s : State) (dir : Direction) : (loadBank s dir).skrev = match dir with
      | .forward => false
      | .reversed => true := rfl
@[simp] theorem loadBank_sticky (s : State) (dir : Direction) : (loadBank s dir).sticky = s.sticky := rfl
@[simp] theorem loadBank_err (s : State) (dir : Direction) : (loadBank s dir).err = s.err := rfl
@[simp] theorem loadBank_skw (s : State) (dir : Direction) : (loadBank s dir).skw = fullBankMask := rfl
@[simp] theorem loadBank_count (s : State) (dir : Direction) : (loadBank s dir).count = s.count := rfl
@[simp] theorem loadBank_sk (s : State) (dir : Direction) : (loadBank s dir).sk = bankOf s.key dir := rfl
@[simp] theorem loadBank_c (s : State) (dir : Direction) : (loadBank s dir).c = (keyPermutationFirst s.key).1 := rfl
@[simp] theorem loadBank_d (s : State) (dir : Direction) : (loadBank s dir).d = (keyPermutationFirst s.key).2 := rfl
@[simp] theorem loadBank_opa (s : State) (dir : Direction) : (loadBank s dir).opa = s.opa := rfl
@[simp] theorem loadBank_opb (s : State) (dir : Direction) : (loadBank s dir).opb = s.opb := rfl
@[simp] theorem loadBank_res (s : State) (dir : Direction) : (loadBank s dir).res = s.res := rfl
@[simp] theorem loadBank_inArr (s : State) (dir : Direction) : (loadBank s dir).inArr = s.inArr := rfl
@[simp] theorem loadBank_outArr (s : State) (dir : Direction) : (loadBank s dir).outArr = s.outArr := rfl
@[simp] theorem loadBank_tasks (s : State) (dir : Direction) : (loadBank s dir).tasks = s.tasks := rfl
@[simp] theorem loadBank_ph (s : State) (dir : Direction) : (loadBank s dir).ph = s.ph := rfl
@[simp] theorem loadBank_env (s : State) (dir : Direction) : (loadBank s dir).env = s.env := rfl

/-! ### `dropTurn`: a turn of the schedule used up -/

@[simp] theorem dropTurn_key (s : State) : (dropTurn s).key = s.key := rfl
@[simp] theorem dropTurn_cmd (s : State) : (dropTurn s).cmd = s.cmd := rfl
@[simp] theorem dropTurn_done (s : State) : (dropTurn s).done = s.done := rfl
@[simp] theorem dropTurn_skrev (s : State) : (dropTurn s).skrev = s.skrev := rfl
@[simp] theorem dropTurn_sticky (s : State) : (dropTurn s).sticky = s.sticky := rfl
@[simp] theorem dropTurn_err (s : State) : (dropTurn s).err = s.err := rfl
@[simp] theorem dropTurn_skw (s : State) : (dropTurn s).skw = s.skw := rfl
@[simp] theorem dropTurn_count (s : State) : (dropTurn s).count = s.count := rfl
@[simp] theorem dropTurn_sk (s : State) : (dropTurn s).sk = s.sk := rfl
@[simp] theorem dropTurn_c (s : State) : (dropTurn s).c = s.c := rfl
@[simp] theorem dropTurn_d (s : State) : (dropTurn s).d = s.d := rfl
@[simp] theorem dropTurn_opa (s : State) : (dropTurn s).opa = s.opa := rfl
@[simp] theorem dropTurn_opb (s : State) : (dropTurn s).opb = s.opb := rfl
@[simp] theorem dropTurn_res (s : State) : (dropTurn s).res = s.res := rfl
@[simp] theorem dropTurn_inArr (s : State) : (dropTurn s).inArr = s.inArr := rfl
@[simp] theorem dropTurn_outArr (s : State) : (dropTurn s).outArr = s.outArr := rfl
@[simp] theorem dropTurn_tasks (s : State) : (dropTurn s).tasks = s.tasks := rfl
@[simp] theorem dropTurn_ph (s : State) : (dropTurn s).ph = s.ph := rfl
@[simp] theorem dropTurn_env (s : State) : (dropTurn s).env = { s.env with sched := s.env.sched.tail } := rfl

/-! ### `dropEvent`: an event of the outside world done -/

@[simp] theorem dropEvent_key (s : State) : (dropEvent s).key = s.key := rfl
@[simp] theorem dropEvent_cmd (s : State) : (dropEvent s).cmd = s.cmd := rfl
@[simp] theorem dropEvent_done (s : State) : (dropEvent s).done = s.done := rfl
@[simp] theorem dropEvent_skrev (s : State) : (dropEvent s).skrev = s.skrev := rfl
@[simp] theorem dropEvent_sticky (s : State) : (dropEvent s).sticky = s.sticky := rfl
@[simp] theorem dropEvent_err (s : State) : (dropEvent s).err = s.err := rfl
@[simp] theorem dropEvent_skw (s : State) : (dropEvent s).skw = s.skw := rfl
@[simp] theorem dropEvent_count (s : State) : (dropEvent s).count = s.count := rfl
@[simp] theorem dropEvent_sk (s : State) : (dropEvent s).sk = s.sk := rfl
@[simp] theorem dropEvent_c (s : State) : (dropEvent s).c = s.c := rfl
@[simp] theorem dropEvent_d (s : State) : (dropEvent s).d = s.d := rfl
@[simp] theorem dropEvent_opa (s : State) : (dropEvent s).opa = s.opa := rfl
@[simp] theorem dropEvent_opb (s : State) : (dropEvent s).opb = s.opb := rfl
@[simp] theorem dropEvent_res (s : State) : (dropEvent s).res = s.res := rfl
@[simp] theorem dropEvent_inArr (s : State) : (dropEvent s).inArr = s.inArr := rfl
@[simp] theorem dropEvent_outArr (s : State) : (dropEvent s).outArr = s.outArr := rfl
@[simp] theorem dropEvent_tasks (s : State) : (dropEvent s).tasks = s.tasks := rfl
@[simp] theorem dropEvent_ph (s : State) : (dropEvent s).ph = s.ph := rfl
@[simp] theorem dropEvent_env (s : State) : (dropEvent s).env = { s.env with pending := s.env.pending.tail } := rfl

/-! ### `taskLoad`: the load step of a task (R175) -/

@[simp] theorem taskLoad_key (i : Nat) (s : State) : (taskLoad i s).key = s.key := rfl
@[simp] theorem taskLoad_cmd (i : Nat) (s : State) : (taskLoad i s).cmd = s.cmd := rfl
@[simp] theorem taskLoad_done (i : Nat) (s : State) : (taskLoad i s).done = s.done := rfl
@[simp] theorem taskLoad_skrev (i : Nat) (s : State) : (taskLoad i s).skrev = s.skrev := rfl
@[simp] theorem taskLoad_sticky (i : Nat) (s : State) : (taskLoad i s).sticky = s.sticky := rfl
@[simp] theorem taskLoad_err (i : Nat) (s : State) : (taskLoad i s).err = s.err := rfl
@[simp] theorem taskLoad_skw (i : Nat) (s : State) : (taskLoad i s).skw = s.skw := rfl
@[simp] theorem taskLoad_count (i : Nat) (s : State) : (taskLoad i s).count = s.count := rfl
@[simp] theorem taskLoad_sk (i : Nat) (s : State) : (taskLoad i s).sk = s.sk := rfl
@[simp] theorem taskLoad_c (i : Nat) (s : State) : (taskLoad i s).c = s.c := rfl
@[simp] theorem taskLoad_d (i : Nat) (s : State) : (taskLoad i s).d = s.d := rfl
@[simp] theorem taskLoad_opa (i : Nat) (s : State) : (taskLoad i s).opa = s.opa := rfl
@[simp] theorem taskLoad_opb (i : Nat) (s : State) : (taskLoad i s).opb = s.opb := rfl
@[simp] theorem taskLoad_res (i : Nat) (s : State) : (taskLoad i s).res = s.res := rfl
@[simp] theorem taskLoad_inArr (i : Nat) (s : State) : (taskLoad i s).inArr = s.inArr := rfl
@[simp] theorem taskLoad_outArr (i : Nat) (s : State) : (taskLoad i s).outArr = s.outArr := rfl
@[simp] theorem taskLoad_tasks (i : Nat) (s : State) : (taskLoad i s).tasks = setTask s.tasks i
      { ts := .running, l := (ipSplit (readEntry s .input i)).1, r := (ipSplit (readEntry s .input i)).2, rnd := 0 } := rfl
@[simp] theorem taskLoad_ph (i : Nat) (s : State) : (taskLoad i s).ph = s.ph := rfl
@[simp] theorem taskLoad_env (i : Nat) (s : State) : (taskLoad i s).env = s.env := rfl

/-! ### `taskRound`: a round step of a task (R176) -/

@[simp] theorem taskRound_key (i : Nat) (t : Task) (h : t.rnd.val < 16) (s : State) : (taskRound i t h s).key = s.key := rfl
@[simp] theorem taskRound_cmd (i : Nat) (t : Task) (h : t.rnd.val < 16) (s : State) : (taskRound i t h s).cmd = s.cmd := rfl
@[simp] theorem taskRound_done (i : Nat) (t : Task) (h : t.rnd.val < 16) (s : State) : (taskRound i t h s).done = s.done := rfl
@[simp] theorem taskRound_skrev (i : Nat) (t : Task) (h : t.rnd.val < 16) (s : State) : (taskRound i t h s).skrev = s.skrev := rfl
@[simp] theorem taskRound_sticky (i : Nat) (t : Task) (h : t.rnd.val < 16) (s : State) : (taskRound i t h s).sticky = s.sticky := rfl
@[simp] theorem taskRound_err (i : Nat) (t : Task) (h : t.rnd.val < 16) (s : State) : (taskRound i t h s).err = s.err := rfl
@[simp] theorem taskRound_skw (i : Nat) (t : Task) (h : t.rnd.val < 16) (s : State) : (taskRound i t h s).skw = s.skw := rfl
@[simp] theorem taskRound_count (i : Nat) (t : Task) (h : t.rnd.val < 16) (s : State) : (taskRound i t h s).count = s.count := rfl
@[simp] theorem taskRound_sk (i : Nat) (t : Task) (h : t.rnd.val < 16) (s : State) : (taskRound i t h s).sk = s.sk := rfl
@[simp] theorem taskRound_c (i : Nat) (t : Task) (h : t.rnd.val < 16) (s : State) : (taskRound i t h s).c = s.c := rfl
@[simp] theorem taskRound_d (i : Nat) (t : Task) (h : t.rnd.val < 16) (s : State) : (taskRound i t h s).d = s.d := rfl
@[simp] theorem taskRound_opa (i : Nat) (t : Task) (h : t.rnd.val < 16) (s : State) : (taskRound i t h s).opa = s.opa := rfl
@[simp] theorem taskRound_opb (i : Nat) (t : Task) (h : t.rnd.val < 16) (s : State) : (taskRound i t h s).opb = s.opb := rfl
@[simp] theorem taskRound_res (i : Nat) (t : Task) (h : t.rnd.val < 16) (s : State) : (taskRound i t h s).res = s.res := rfl
@[simp] theorem taskRound_inArr (i : Nat) (t : Task) (h : t.rnd.val < 16) (s : State) : (taskRound i t h s).inArr = s.inArr := rfl
@[simp] theorem taskRound_outArr (i : Nat) (t : Task) (h : t.rnd.val < 16) (s : State) : (taskRound i t h s).outArr = s.outArr := rfl
@[simp] theorem taskRound_tasks (i : Nat) (t : Task) (h : t.rnd.val < 16) (s : State) : (taskRound i t h s).tasks = setTask s.tasks i
      { ts := .running, l := t.r, r := calculateR t.l t.r s.sk[t.rnd.val], rnd := ⟨t.rnd.val + 1, by omega⟩ } := rfl
@[simp] theorem taskRound_ph (i : Nat) (t : Task) (h : t.rnd.val < 16) (s : State) : (taskRound i t h s).ph = s.ph := rfl
@[simp] theorem taskRound_env (i : Nat) (t : Task) (h : t.rnd.val < 16) (s : State) : (taskRound i t h s).env = s.env := rfl

/-! ### `endBatch`: the end of a batch (R196) -/

@[simp] theorem endBatch_key (s : State) : (endBatch s).key = s.key := rfl
@[simp] theorem endBatch_cmd (s : State) : (endBatch s).cmd = s.cmd := rfl
@[simp] theorem endBatch_done (s : State) : (endBatch s).done = true := rfl
@[simp] theorem endBatch_skrev (s : State) : (endBatch s).skrev = s.skrev := rfl
@[simp] theorem endBatch_sticky (s : State) : (endBatch s).sticky = s.sticky := rfl
@[simp] theorem endBatch_err (s : State) : (endBatch s).err = s.err := rfl
@[simp] theorem endBatch_skw (s : State) : (endBatch s).skw = s.skw := rfl
@[simp] theorem endBatch_count (s : State) : (endBatch s).count = s.count := rfl
@[simp] theorem endBatch_sk (s : State) : (endBatch s).sk = s.sk := rfl
@[simp] theorem endBatch_c (s : State) : (endBatch s).c = s.c := rfl
@[simp] theorem endBatch_d (s : State) : (endBatch s).d = s.d := rfl
@[simp] theorem endBatch_opa (s : State) : (endBatch s).opa = s.opa := rfl
@[simp] theorem endBatch_opb (s : State) : (endBatch s).opb = s.opb := rfl
@[simp] theorem endBatch_res (s : State) : (endBatch s).res = s.res := rfl
@[simp] theorem endBatch_inArr (s : State) : (endBatch s).inArr = s.inArr := rfl
@[simp] theorem endBatch_outArr (s : State) : (endBatch s).outArr = s.outArr := rfl
@[simp] theorem endBatch_tasks (s : State) : (endBatch s).tasks = setPhaseBelow s.tasks .idle s.count.toNat := rfl
@[simp] theorem endBatch_ph (s : State) : (endBatch s).ph = .idle := rfl
@[simp] theorem endBatch_env (s : State) : (endBatch s).env = s.env := rfl

/-! ### `hostRead`: a read through the port (R69) -/

@[simp] theorem hostRead_key (idx : Nat) (s : State) : (hostRead idx s).key = s.key := rfl
@[simp] theorem hostRead_cmd (idx : Nat) (s : State) : (hostRead idx s).cmd = s.cmd := rfl
@[simp] theorem hostRead_done (idx : Nat) (s : State) : (hostRead idx s).done = s.done := rfl
@[simp] theorem hostRead_skrev (idx : Nat) (s : State) : (hostRead idx s).skrev = s.skrev := rfl
@[simp] theorem hostRead_sticky (idx : Nat) (s : State) : (hostRead idx s).sticky = s.sticky := rfl
@[simp] theorem hostRead_err (idx : Nat) (s : State) : (hostRead idx s).err = s.err := rfl
@[simp] theorem hostRead_skw (idx : Nat) (s : State) : (hostRead idx s).skw = s.skw := rfl
@[simp] theorem hostRead_count (idx : Nat) (s : State) : (hostRead idx s).count = s.count := rfl
@[simp] theorem hostRead_sk (idx : Nat) (s : State) : (hostRead idx s).sk = s.sk := rfl
@[simp] theorem hostRead_c (idx : Nat) (s : State) : (hostRead idx s).c = s.c := rfl
@[simp] theorem hostRead_d (idx : Nat) (s : State) : (hostRead idx s).d = s.d := rfl
@[simp] theorem hostRead_opa (idx : Nat) (s : State) : (hostRead idx s).opa = s.opa := rfl
@[simp] theorem hostRead_opb (idx : Nat) (s : State) : (hostRead idx s).opb = s.opb := rfl
@[simp] theorem hostRead_res (idx : Nat) (s : State) : (hostRead idx s).res = s.res := rfl
@[simp] theorem hostRead_inArr (idx : Nat) (s : State) : (hostRead idx s).inArr = s.inArr := rfl
@[simp] theorem hostRead_outArr (idx : Nat) (s : State) : (hostRead idx s).outArr = s.outArr := rfl
@[simp] theorem hostRead_tasks (idx : Nat) (s : State) : (hostRead idx s).tasks = s.tasks := rfl
@[simp] theorem hostRead_ph (idx : Nat) (s : State) : (hostRead idx s).ph = s.ph := rfl
@[simp] theorem hostRead_env (idx : Nat) (s : State) : (hostRead idx s).env = { s.env with
      seen := ⟨idx, portRead s idx⟩ :: s.env.seen
      anyReads := if readIsAny s idx then s.env.anyReads + 1 else s.env.anyReads } := rfl

/-! ### `withArray`, `writeByte`, `writeEntryBytes`, `writeEntry`: every field but the two memories -/

@[simp] theorem withArray_key (s : State) (a : BlockArray) (m : Memory) : (withArray s a m).key = s.key := by cases a <;> rfl
@[simp] theorem withArray_cmd (s : State) (a : BlockArray) (m : Memory) : (withArray s a m).cmd = s.cmd := by cases a <;> rfl
@[simp] theorem withArray_done (s : State) (a : BlockArray) (m : Memory) : (withArray s a m).done = s.done := by cases a <;> rfl
@[simp] theorem withArray_skrev (s : State) (a : BlockArray) (m : Memory) : (withArray s a m).skrev = s.skrev := by cases a <;> rfl
@[simp] theorem withArray_sticky (s : State) (a : BlockArray) (m : Memory) : (withArray s a m).sticky = s.sticky := by cases a <;> rfl
@[simp] theorem withArray_err (s : State) (a : BlockArray) (m : Memory) : (withArray s a m).err = s.err := by cases a <;> rfl
@[simp] theorem withArray_skw (s : State) (a : BlockArray) (m : Memory) : (withArray s a m).skw = s.skw := by cases a <;> rfl
@[simp] theorem withArray_count (s : State) (a : BlockArray) (m : Memory) : (withArray s a m).count = s.count := by cases a <;> rfl
@[simp] theorem withArray_sk (s : State) (a : BlockArray) (m : Memory) : (withArray s a m).sk = s.sk := by cases a <;> rfl
@[simp] theorem withArray_c (s : State) (a : BlockArray) (m : Memory) : (withArray s a m).c = s.c := by cases a <;> rfl
@[simp] theorem withArray_d (s : State) (a : BlockArray) (m : Memory) : (withArray s a m).d = s.d := by cases a <;> rfl
@[simp] theorem withArray_opa (s : State) (a : BlockArray) (m : Memory) : (withArray s a m).opa = s.opa := by cases a <;> rfl
@[simp] theorem withArray_opb (s : State) (a : BlockArray) (m : Memory) : (withArray s a m).opb = s.opb := by cases a <;> rfl
@[simp] theorem withArray_res (s : State) (a : BlockArray) (m : Memory) : (withArray s a m).res = s.res := by cases a <;> rfl
@[simp] theorem withArray_tasks (s : State) (a : BlockArray) (m : Memory) : (withArray s a m).tasks = s.tasks := by cases a <;> rfl
@[simp] theorem withArray_ph (s : State) (a : BlockArray) (m : Memory) : (withArray s a m).ph = s.ph := by cases a <;> rfl
@[simp] theorem withArray_env (s : State) (a : BlockArray) (m : Memory) : (withArray s a m).env = s.env := by cases a <;> rfl
@[simp] theorem writeByte_key (s : State) (a : BlockArray) (x : Nat) (v : Byte) : (writeByte s a x v).key = s.key := withArray_key _ _ _
@[simp] theorem writeByte_cmd (s : State) (a : BlockArray) (x : Nat) (v : Byte) : (writeByte s a x v).cmd = s.cmd := withArray_cmd _ _ _
@[simp] theorem writeByte_done (s : State) (a : BlockArray) (x : Nat) (v : Byte) : (writeByte s a x v).done = s.done := withArray_done _ _ _
@[simp] theorem writeByte_skrev (s : State) (a : BlockArray) (x : Nat) (v : Byte) : (writeByte s a x v).skrev = s.skrev := withArray_skrev _ _ _
@[simp] theorem writeByte_sticky (s : State) (a : BlockArray) (x : Nat) (v : Byte) : (writeByte s a x v).sticky = s.sticky := withArray_sticky _ _ _
@[simp] theorem writeByte_err (s : State) (a : BlockArray) (x : Nat) (v : Byte) : (writeByte s a x v).err = s.err := withArray_err _ _ _
@[simp] theorem writeByte_skw (s : State) (a : BlockArray) (x : Nat) (v : Byte) : (writeByte s a x v).skw = s.skw := withArray_skw _ _ _
@[simp] theorem writeByte_count (s : State) (a : BlockArray) (x : Nat) (v : Byte) : (writeByte s a x v).count = s.count := withArray_count _ _ _
@[simp] theorem writeByte_sk (s : State) (a : BlockArray) (x : Nat) (v : Byte) : (writeByte s a x v).sk = s.sk := withArray_sk _ _ _
@[simp] theorem writeByte_c (s : State) (a : BlockArray) (x : Nat) (v : Byte) : (writeByte s a x v).c = s.c := withArray_c _ _ _
@[simp] theorem writeByte_d (s : State) (a : BlockArray) (x : Nat) (v : Byte) : (writeByte s a x v).d = s.d := withArray_d _ _ _
@[simp] theorem writeByte_opa (s : State) (a : BlockArray) (x : Nat) (v : Byte) : (writeByte s a x v).opa = s.opa := withArray_opa _ _ _
@[simp] theorem writeByte_opb (s : State) (a : BlockArray) (x : Nat) (v : Byte) : (writeByte s a x v).opb = s.opb := withArray_opb _ _ _
@[simp] theorem writeByte_res (s : State) (a : BlockArray) (x : Nat) (v : Byte) : (writeByte s a x v).res = s.res := withArray_res _ _ _
@[simp] theorem writeByte_tasks (s : State) (a : BlockArray) (x : Nat) (v : Byte) : (writeByte s a x v).tasks = s.tasks := withArray_tasks _ _ _
@[simp] theorem writeByte_ph (s : State) (a : BlockArray) (x : Nat) (v : Byte) : (writeByte s a x v).ph = s.ph := withArray_ph _ _ _
@[simp] theorem writeByte_env (s : State) (a : BlockArray) (x : Nat) (v : Byte) : (writeByte s a x v).env = s.env := withArray_env _ _ _
@[simp] theorem writeEntryBytes_key (s : State) (a : BlockArray) (i : Nat) (f : Fin 8 → Byte) (js : List (Fin 8)) :
    (writeEntryBytes s a i f js).key = s.key := by
  rw [writeEntryBytes_eq_withArray, withArray_key]
@[simp] theorem writeEntryBytes_cmd (s : State) (a : BlockArray) (i : Nat) (f : Fin 8 → Byte) (js : List (Fin 8)) :
    (writeEntryBytes s a i f js).cmd = s.cmd := by
  rw [writeEntryBytes_eq_withArray, withArray_cmd]
@[simp] theorem writeEntryBytes_done (s : State) (a : BlockArray) (i : Nat) (f : Fin 8 → Byte) (js : List (Fin 8)) :
    (writeEntryBytes s a i f js).done = s.done := by
  rw [writeEntryBytes_eq_withArray, withArray_done]
@[simp] theorem writeEntryBytes_skrev (s : State) (a : BlockArray) (i : Nat) (f : Fin 8 → Byte) (js : List (Fin 8)) :
    (writeEntryBytes s a i f js).skrev = s.skrev := by
  rw [writeEntryBytes_eq_withArray, withArray_skrev]
@[simp] theorem writeEntryBytes_sticky (s : State) (a : BlockArray) (i : Nat) (f : Fin 8 → Byte) (js : List (Fin 8)) :
    (writeEntryBytes s a i f js).sticky = s.sticky := by
  rw [writeEntryBytes_eq_withArray, withArray_sticky]
@[simp] theorem writeEntryBytes_err (s : State) (a : BlockArray) (i : Nat) (f : Fin 8 → Byte) (js : List (Fin 8)) :
    (writeEntryBytes s a i f js).err = s.err := by
  rw [writeEntryBytes_eq_withArray, withArray_err]
@[simp] theorem writeEntryBytes_skw (s : State) (a : BlockArray) (i : Nat) (f : Fin 8 → Byte) (js : List (Fin 8)) :
    (writeEntryBytes s a i f js).skw = s.skw := by
  rw [writeEntryBytes_eq_withArray, withArray_skw]
@[simp] theorem writeEntryBytes_count (s : State) (a : BlockArray) (i : Nat) (f : Fin 8 → Byte) (js : List (Fin 8)) :
    (writeEntryBytes s a i f js).count = s.count := by
  rw [writeEntryBytes_eq_withArray, withArray_count]
@[simp] theorem writeEntryBytes_sk (s : State) (a : BlockArray) (i : Nat) (f : Fin 8 → Byte) (js : List (Fin 8)) :
    (writeEntryBytes s a i f js).sk = s.sk := by
  rw [writeEntryBytes_eq_withArray, withArray_sk]
@[simp] theorem writeEntryBytes_c (s : State) (a : BlockArray) (i : Nat) (f : Fin 8 → Byte) (js : List (Fin 8)) :
    (writeEntryBytes s a i f js).c = s.c := by
  rw [writeEntryBytes_eq_withArray, withArray_c]
@[simp] theorem writeEntryBytes_d (s : State) (a : BlockArray) (i : Nat) (f : Fin 8 → Byte) (js : List (Fin 8)) :
    (writeEntryBytes s a i f js).d = s.d := by
  rw [writeEntryBytes_eq_withArray, withArray_d]
@[simp] theorem writeEntryBytes_opa (s : State) (a : BlockArray) (i : Nat) (f : Fin 8 → Byte) (js : List (Fin 8)) :
    (writeEntryBytes s a i f js).opa = s.opa := by
  rw [writeEntryBytes_eq_withArray, withArray_opa]
@[simp] theorem writeEntryBytes_opb (s : State) (a : BlockArray) (i : Nat) (f : Fin 8 → Byte) (js : List (Fin 8)) :
    (writeEntryBytes s a i f js).opb = s.opb := by
  rw [writeEntryBytes_eq_withArray, withArray_opb]
@[simp] theorem writeEntryBytes_res (s : State) (a : BlockArray) (i : Nat) (f : Fin 8 → Byte) (js : List (Fin 8)) :
    (writeEntryBytes s a i f js).res = s.res := by
  rw [writeEntryBytes_eq_withArray, withArray_res]
@[simp] theorem writeEntryBytes_tasks (s : State) (a : BlockArray) (i : Nat) (f : Fin 8 → Byte) (js : List (Fin 8)) :
    (writeEntryBytes s a i f js).tasks = s.tasks := by
  rw [writeEntryBytes_eq_withArray, withArray_tasks]
@[simp] theorem writeEntryBytes_ph (s : State) (a : BlockArray) (i : Nat) (f : Fin 8 → Byte) (js : List (Fin 8)) :
    (writeEntryBytes s a i f js).ph = s.ph := by
  rw [writeEntryBytes_eq_withArray, withArray_ph]
@[simp] theorem writeEntryBytes_env (s : State) (a : BlockArray) (i : Nat) (f : Fin 8 → Byte) (js : List (Fin 8)) :
    (writeEntryBytes s a i f js).env = s.env := by
  rw [writeEntryBytes_eq_withArray, withArray_env]
@[simp] theorem writeEntry_key (s : State) (a : BlockArray) (i : Nat) (v : Block) : (writeEntry s a i v).key = s.key := writeEntryBytes_key _ _ _ _ _
@[simp] theorem writeEntry_cmd (s : State) (a : BlockArray) (i : Nat) (v : Block) : (writeEntry s a i v).cmd = s.cmd := writeEntryBytes_cmd _ _ _ _ _
@[simp] theorem writeEntry_done (s : State) (a : BlockArray) (i : Nat) (v : Block) : (writeEntry s a i v).done = s.done := writeEntryBytes_done _ _ _ _ _
@[simp] theorem writeEntry_skrev (s : State) (a : BlockArray) (i : Nat) (v : Block) : (writeEntry s a i v).skrev = s.skrev := writeEntryBytes_skrev _ _ _ _ _
@[simp] theorem writeEntry_sticky (s : State) (a : BlockArray) (i : Nat) (v : Block) : (writeEntry s a i v).sticky = s.sticky := writeEntryBytes_sticky _ _ _ _ _
@[simp] theorem writeEntry_err (s : State) (a : BlockArray) (i : Nat) (v : Block) : (writeEntry s a i v).err = s.err := writeEntryBytes_err _ _ _ _ _
@[simp] theorem writeEntry_skw (s : State) (a : BlockArray) (i : Nat) (v : Block) : (writeEntry s a i v).skw = s.skw := writeEntryBytes_skw _ _ _ _ _
@[simp] theorem writeEntry_count (s : State) (a : BlockArray) (i : Nat) (v : Block) : (writeEntry s a i v).count = s.count := writeEntryBytes_count _ _ _ _ _
@[simp] theorem writeEntry_sk (s : State) (a : BlockArray) (i : Nat) (v : Block) : (writeEntry s a i v).sk = s.sk := writeEntryBytes_sk _ _ _ _ _
@[simp] theorem writeEntry_c (s : State) (a : BlockArray) (i : Nat) (v : Block) : (writeEntry s a i v).c = s.c := writeEntryBytes_c _ _ _ _ _
@[simp] theorem writeEntry_d (s : State) (a : BlockArray) (i : Nat) (v : Block) : (writeEntry s a i v).d = s.d := writeEntryBytes_d _ _ _ _ _
@[simp] theorem writeEntry_opa (s : State) (a : BlockArray) (i : Nat) (v : Block) : (writeEntry s a i v).opa = s.opa := writeEntryBytes_opa _ _ _ _ _
@[simp] theorem writeEntry_opb (s : State) (a : BlockArray) (i : Nat) (v : Block) : (writeEntry s a i v).opb = s.opb := writeEntryBytes_opb _ _ _ _ _
@[simp] theorem writeEntry_res (s : State) (a : BlockArray) (i : Nat) (v : Block) : (writeEntry s a i v).res = s.res := writeEntryBytes_res _ _ _ _ _
@[simp] theorem writeEntry_tasks (s : State) (a : BlockArray) (i : Nat) (v : Block) : (writeEntry s a i v).tasks = s.tasks := writeEntryBytes_tasks _ _ _ _ _
@[simp] theorem writeEntry_ph (s : State) (a : BlockArray) (i : Nat) (v : Block) : (writeEntry s a i v).ph = s.ph := writeEntryBytes_ph _ _ _ _ _
@[simp] theorem writeEntry_env (s : State) (a : BlockArray) (i : Nat) (v : Block) : (writeEntry s a i v).env = s.env := writeEntryBytes_env _ _ _ _ _

/-- An input write leaves `OUT`. -/
@[simp] theorem writeEntryBytes_input_outArr (s : State) (i : Nat) (f : Fin 8 → Byte) (js : List (Fin 8)) :
    (writeEntryBytes s .input i f js).outArr = s.outArr := by
  rw [writeEntryBytes_eq_withArray]; rfl

/-- An output write leaves `IN`. -/
@[simp] theorem writeEntryBytes_output_inArr (s : State) (i : Nat) (f : Fin 8 → Byte) (js : List (Fin 8)) :
    (writeEntryBytes s .output i f js).inArr = s.inArr := by
  rw [writeEntryBytes_eq_withArray]; rfl


/-! ### `taskStore`: the store step of a task (R177) -/

@[simp] theorem taskStore_key (i : Nat) (t : Task) (s : State) : (taskStore i t s).key = s.key := writeEntry_key _ _ _ _
@[simp] theorem taskStore_cmd (i : Nat) (t : Task) (s : State) : (taskStore i t s).cmd = s.cmd := writeEntry_cmd _ _ _ _
@[simp] theorem taskStore_done (i : Nat) (t : Task) (s : State) : (taskStore i t s).done = s.done := writeEntry_done _ _ _ _
@[simp] theorem taskStore_skrev (i : Nat) (t : Task) (s : State) : (taskStore i t s).skrev = s.skrev := writeEntry_skrev _ _ _ _
@[simp] theorem taskStore_sticky (i : Nat) (t : Task) (s : State) : (taskStore i t s).sticky = s.sticky := writeEntry_sticky _ _ _ _
@[simp] theorem taskStore_err (i : Nat) (t : Task) (s : State) : (taskStore i t s).err = s.err := writeEntry_err _ _ _ _
@[simp] theorem taskStore_skw (i : Nat) (t : Task) (s : State) : (taskStore i t s).skw = s.skw := writeEntry_skw _ _ _ _
@[simp] theorem taskStore_count (i : Nat) (t : Task) (s : State) : (taskStore i t s).count = s.count := writeEntry_count _ _ _ _
@[simp] theorem taskStore_sk (i : Nat) (t : Task) (s : State) : (taskStore i t s).sk = s.sk := writeEntry_sk _ _ _ _
@[simp] theorem taskStore_c (i : Nat) (t : Task) (s : State) : (taskStore i t s).c = s.c := writeEntry_c _ _ _ _
@[simp] theorem taskStore_d (i : Nat) (t : Task) (s : State) : (taskStore i t s).d = s.d := writeEntry_d _ _ _ _
@[simp] theorem taskStore_opa (i : Nat) (t : Task) (s : State) : (taskStore i t s).opa = s.opa := writeEntry_opa _ _ _ _
@[simp] theorem taskStore_opb (i : Nat) (t : Task) (s : State) : (taskStore i t s).opb = s.opb := writeEntry_opb _ _ _ _
@[simp] theorem taskStore_res (i : Nat) (t : Task) (s : State) : (taskStore i t s).res = s.res := writeEntry_res _ _ _ _
@[simp] theorem taskStore_inArr (i : Nat) (t : Task) (s : State) : (taskStore i t s).inArr = s.inArr := by
  have h : (taskStore i t s).inArr = (writeEntryBytes s .output i (byteOf (finalPermutation (t.l, t.r))) (List.finRange 8)).inArr := rfl
  rw [h, writeEntryBytes_eq_withArray]; rfl
@[simp] theorem taskStore_tasks (i : Nat) (t : Task) (s : State) :
    (taskStore i t s).tasks = setTask s.tasks i { t with ts := .finished } := rfl
@[simp] theorem taskStore_ph (i : Nat) (t : Task) (s : State) : (taskStore i t s).ph = s.ph := writeEntry_ph _ _ _ _
@[simp] theorem taskStore_env (i : Nat) (t : Task) (s : State) : (taskStore i t s).env = s.env := writeEntry_env _ _ _ _

/-- The store step writes `OUT[i]` and nothing else of the memories. -/
@[simp] theorem readByte_taskStore (i : Nat) (t : Task) (s : State) (a : BlockArray) (addr : Nat) :
    readByte (taskStore i t s) a addr = readByte (writeEntry s .output i (finalPermutation (t.l, t.r))) a addr := by
  cases a <;> rfl

/-- So does a read of an entry. -/
@[simp] theorem readEntry_taskStore (i : Nat) (t : Task) (s : State) (a : BlockArray) (k : Nat) :
    readEntry (taskStore i t s) a k = readEntry (writeEntry s .output i (finalPermutation (t.l, t.r))) a k := by
  cases a <;> rfl

/-! ### `writePad`: the bytes `PAD` writes (R212) -/

@[simp] theorem writePad_key (i n : Nat) (s : State) : (writePad i n s).key = s.key := writeEntryBytes_key _ _ _ _ _
@[simp] theorem writePad_cmd (i n : Nat) (s : State) : (writePad i n s).cmd = s.cmd := writeEntryBytes_cmd _ _ _ _ _
@[simp] theorem writePad_done (i n : Nat) (s : State) : (writePad i n s).done = s.done := writeEntryBytes_done _ _ _ _ _
@[simp] theorem writePad_skrev (i n : Nat) (s : State) : (writePad i n s).skrev = s.skrev := writeEntryBytes_skrev _ _ _ _ _
@[simp] theorem writePad_sticky (i n : Nat) (s : State) : (writePad i n s).sticky = s.sticky := writeEntryBytes_sticky _ _ _ _ _
@[simp] theorem writePad_err (i n : Nat) (s : State) : (writePad i n s).err = s.err := writeEntryBytes_err _ _ _ _ _
@[simp] theorem writePad_skw (i n : Nat) (s : State) : (writePad i n s).skw = s.skw := writeEntryBytes_skw _ _ _ _ _
@[simp] theorem writePad_count (i n : Nat) (s : State) : (writePad i n s).count = s.count := writeEntryBytes_count _ _ _ _ _
@[simp] theorem writePad_sk (i n : Nat) (s : State) : (writePad i n s).sk = s.sk := writeEntryBytes_sk _ _ _ _ _
@[simp] theorem writePad_c (i n : Nat) (s : State) : (writePad i n s).c = s.c := writeEntryBytes_c _ _ _ _ _
@[simp] theorem writePad_d (i n : Nat) (s : State) : (writePad i n s).d = s.d := writeEntryBytes_d _ _ _ _ _
@[simp] theorem writePad_opa (i n : Nat) (s : State) : (writePad i n s).opa = s.opa := writeEntryBytes_opa _ _ _ _ _
@[simp] theorem writePad_opb (i n : Nat) (s : State) : (writePad i n s).opb = s.opb := writeEntryBytes_opb _ _ _ _ _
@[simp] theorem writePad_res (i n : Nat) (s : State) : (writePad i n s).res = s.res := writeEntryBytes_res _ _ _ _ _
@[simp] theorem writePad_outArr (i n : Nat) (s : State) : (writePad i n s).outArr = s.outArr := writeEntryBytes_input_outArr _ _ _ _
@[simp] theorem writePad_tasks (i n : Nat) (s : State) : (writePad i n s).tasks = s.tasks := writeEntryBytes_tasks _ _ _ _ _
@[simp] theorem writePad_ph (i n : Nat) (s : State) : (writePad i n s).ph = s.ph := writeEntryBytes_ph _ _ _ _ _
@[simp] theorem writePad_env (i n : Nat) (s : State) : (writePad i n s).env = s.env := writeEntryBytes_env _ _ _ _ _

/-- A read of a byte depends on the memory of its array and the count of resets alone. -/
theorem readByte_congr {s t : State} {a : BlockArray} (h : arrayOf t a = arrayOf s a)
    (r : t.env.resets = s.env.resets) (addr : Nat) : readByte t a addr = readByte s a addr := by
  unfold readByte unlistedByte; rw [h, r]

/-- So does a read of an entry. -/
theorem readEntry_congr {s t : State} {a : BlockArray} (h : arrayOf t a = arrayOf s a)
    (r : t.env.resets = s.env.resets) (i : Nat) : readEntry t a i = readEntry s a i := by
  unfold readEntry
  congr 1
  funext j
  exact readByte_congr h r _

/-- `BUSY` reads `PH` alone (R24). -/
theorem busy_eq_false_iff (s : State) : busy s = false ↔ s.ph = .idle := by
  unfold busy; cases s.ph <;> simp

end Sys2Proof.Machine
end

