-- ==== Sys2Proof/Laws/Commands.lean ====
section
/-! SUPPORT. What the shared operations of the commands and of the step can do, each said once: the operand
forms, the checks of `COUNT`, how a command ends, and the cases of a step. -/

namespace Sys2Proof.Machine

/-! ## Operand forms -/

theorem tableSelect?_eq_none_iff (t : BitVec 8) : tableSelect? t = none ↔ 6 ≤ t.toNat := by
  unfold tableSelect?; split <;> simp_all; omega

theorem roundSelect?_eq_none_iff (k : BitVec 8) : roundSelect? k = none ↔ k.toNat = 0 ∨ 17 ≤ k.toNat := by
  unfold roundSelect?; split <;> simp <;> omega

theorem roundSelect?_legal (k : BitVec 8) (h : 1 ≤ k.toNat ∧ k.toNat ≤ 16) :
    roundSelect? k = some ⟨k.toNat - 1, by omega⟩ := by
  unfold roundSelect?; rw [dif_pos h]

theorem padLength?_eq_none_iff (n : BitVec 8) : padLength? n = none ↔ n.toNat = 0 ∨ 9 ≤ n.toNat := by
  unfold padLength?; split <;> simp <;> omega

theorem padLength?_legal (n : BitVec 8) (h : 1 ≤ n.toNat ∧ n.toNat ≤ 8) : padLength? n = some n.toNat := by
  unfold padLength?; rw [if_pos h]

theorem countError?_eq_none_iff (s : State) : countError? s = none ↔ CountLegal s := by
  unfold countError? CountLegal
  split
  · simp_all
  · split
    · simp; omega
    · simp_all

theorem countError?_zero (s : State) (h : s.count = 0) : countError? s = some .count := by
  unfold countError?; rw [if_pos h]

theorem countError?_above (s : State) (h : s.env.params.maxBlocks < s.count.toNat) :
    countError? s = some .alloc := by
  unfold countError?
  rw [if_neg (by rintro h0; rw [h0] at h; simp at h), if_pos h]

theorem countError?_cases (s : State) (e : ErrCause) (h : countError? s = some e) : e = .count ∨ e = .alloc := by
  unfold countError? at h
  split at h
  · left; simpa using h.symm
  · split at h
    · right; simpa using h.symm
    · simp at h

/-- With a legal `COUNT` the last index lies inside the arrays (R64). -/
theorem lastIndex_lt (s : State) (h : CountLegal s) : lastIndex s < s.env.params.maxBlocks := by
  unfold lastIndex
  have := h.2
  have : s.count.toNat ≠ 0 := fun h0 => h.1 (BitVec.eq_of_toNat_eq h0)
  omega

/-! ## How a command ends -/

/-- A frame may be widened. -/
theorem UnchangedExcept.mono {w w' : List StateItem} {s t : State} (h : UnchangedExcept w s t) (hs : w ⊆ w') :
    UnchangedExcept w' s t := fun x hx => h x fun hw => hx (hs hw)

/-- An item reads the same in a state that differs only in the schedule, the pending events and the replies. -/
theorem sameItem_env (s : State) (e : Env) (h : e.resets = s.env.resets) (x : StateItem) :
    SameItem s { s with env := e } x := by
  have hb : ∀ a addr, readByte { s with env := e } a addr = readByte s a addr := fun a addr =>
    readByte_congr (s := s) (t := { s with env := e }) (by cases a <;> rfl) h addr
  cases x <;> simp [SameItem, hb]

/-- A state that differs only in its model's own fields is unchanged. -/
theorem unchanged_env (s : State) (e : Env) (h : e.resets = s.env.resets) (w : List StateItem) :
    UnchangedExcept w s { s with env := e } := fun x _ => sameItem_env s e h x

theorem UnchangedExcept.trans {w : List StateItem} {s t u : State} (h : UnchangedExcept w s t)
    (h' : UnchangedExcept w t u) : UnchangedExcept w s u := by
  intro x hx
  have h1 := h x hx
  have h2 := h' x hx
  cases x <;> simp_all [SameItem]

/-- An error posted on the state from before the command changes nothing but the status (R236). -/
theorem raiseErr_posts (e : ErrCause) (s : State) : PostedError (errCode e) [] s (raiseErr e s) := by
  refine ⟨rfl, rfl, rfl, rfl, rfl, fun x hx => ?_⟩
  cases x <;> simp_all [SameItem] <;> intros <;> rfl

/-- A command that ends after writing some items writes just those (R98). -/
theorem endCommand_ended {w : List StateItem} {s u : State} (he : u.env = s.env)
    (h : UnchangedExcept (.ph :: .done :: w) s u) : EndedWriting w s (endCommand u) := by
  refine ⟨rfl, rfl, by simp [he], fun x hx => ?_⟩
  have hx' := h x hx
  have hb : ∀ a addr, readByte (endCommand u) a addr = readByte u a addr := fun a addr =>
    readByte_congr (s := u) (t := endCommand u) (by cases a <;> rfl) rfl addr
  cases x <;> simp_all [SameItem]

/-! ## The cases of a step -/

/-- What a step can be: no agent's, or the step of an agent that has one enabled (R247). -/
theorem step_cases {s t : State} (h : step s = .next t) :
    (nextAgent? s = none ∧ t = dropTurn s) ∨
    (nextAgent? s = some .host ∧ t = hostStep (dropTurn s)) ∨
    (nextAgent? s = some .ctrl ∧ ctrlStep (dropTurn s) = .next t) ∨
    (∃ i, nextAgent? s = some (.task i) ∧ taskEnabled i s = true ∧ t = taskStep i (dropTurn s)) := by
  have enabled : ∀ a, nextAgent? s = some a → agentEnabled s a = true := by
    intro a ha
    have default : defaultAgent? s = some a → agentEnabled s a = true := by
      unfold defaultAgent?
      split
      · rintro ⟨⟩; assumption
      · split
        · rintro ⟨⟩
          next i hi =>
          have := List.find?_some hi
          simpa [agentEnabled] using this
        · split
          · rintro ⟨⟩; assumption
          · simp
    unfold nextAgent? at ha
    split at ha
    · exact default ha
    · split at ha
      · cases ha; assumption
      · exact default ha
  unfold step machineStep at h
  split at h
  · next a ha =>
    cases a with
    | host => exact .inr (.inl ⟨ha, by simpa [agentStep] using h.symm⟩)
    | ctrl => exact .inr (.inr (.inl ⟨ha, h⟩))
    | task i => exact .inr (.inr (.inr ⟨i, ha, enabled _ ha, by simpa [agentStep] using h.symm⟩))
  · next ha => exact .inl ⟨ha, by simpa using h.symm⟩

/-- What a command can do, all of it: post an error on the state from before it; `CNTPAD`'s bad pad; start a
batch; or end after writing no other items than `RES`, the key schedule and `IN`, and `IN` only below
`MAXBLOCKS` (R98, R236, R246). -/
theorem exec_cases {i : Instr} {s t : State} (h : exec i s = .next t) :
    (∃ e, t = raiseErr e s) ∨
    (i = .cntpad ∧ t = raiseErr .pad { s with res := 0 }) ∨
    (∃ dir, CountLegal s ∧
      t = { loadBank s dir with tasks := setPhaseBelow s.tasks .pending s.count.toNat, ph := .batch }) ∨
    (∃ res c d sk skw skrev,
      t = endCommand { s with res := res, c := c, d := d, sk := sk, skw := skw, skrev := skrev } ∧
      ∀ b, s.skw.getLsbD b = true → skw.getLsbD b = true) ∨
    (∃ n, CountLegal s ∧ t = endCommand (writePad (lastIndex s) n s)) := by
  have single : ∀ (u : State) (res : Block) (c d : KeyHalf) (sk : Bank) (skw : BitVec 16) (skrev : Bool),
      u = endCommand { s with res := res, c := c, d := d, sk := sk, skw := skw, skrev := skrev } →
      (∀ b, s.skw.getLsbD b = true → skw.getLsbD b = true) → exec i s = .next u → u = t := by
    intro u _ _ _ _ _ _ _ _ he; rw [he] at h; cases h; rfl
  have full : ∀ b, s.skw.getLsbD b = true → fullBankMask.getLsbD b = true := by
    intro b hb
    have hlt : b < 16 := BitVec.lt_of_getLsbD hb
    unfold fullBankMask
    interval_cases b <;> decide
  have mark : ∀ (r : Fin 16) b, s.skw.getLsbD b = true → (markWritten s.skw r).getLsbD b = true := by
    intro r b hb; simp [markWritten, hb]
  have batch : ∀ dir, exec i s = .next (startBatch dir s) →
      (∃ e, t = raiseErr e s) ∨ (∃ dir, CountLegal s ∧
        t = { loadBank s dir with tasks := setPhaseBelow s.tasks .pending s.count.toNat, ph := .batch }) := by
    intro dir he
    rw [he] at h
    injection h with h
    unfold startBatch at h
    split at h
    · exact .inl ⟨_, h.symm⟩
    · next hc => exact .inr ⟨dir, (countError?_eq_none_iff s).mp hc, h.symm⟩
  clear single
  cases i <;> simp only [exec, execPerm, execKperm1, execKrot, execKperm2, execGenkeys, execRevkeys, execSbox,
    execFeistel, execCalcr, execBlock, execEncode, execDecode, execPad, execCntpad] at h batch
  case perm a =>
    split at h <;> injection h with h <;> subst h
    · exact .inl ⟨_, rfl⟩
    · exact .inr (.inr (.inr (.inl ⟨_, _, _, _, _, _, rfl, fun _ h => h⟩)))
  case kperm1 => injection h with h; subst h; exact .inr (.inr (.inr (.inl ⟨_, _, _, _, _, _, rfl, fun _ h => h⟩)))
  case krot a =>
    split at h <;> injection h with h <;> subst h
    · exact .inl ⟨_, rfl⟩
    · exact .inr (.inr (.inr (.inl ⟨_, _, _, _, _, _, rfl, fun _ h => h⟩)))
  case kperm2 a =>
    split at h <;> injection h with h <;> subst h
    · exact .inl ⟨_, rfl⟩
    · exact .inr (.inr (.inr (.inl ⟨_, _, _, _, _, _, rfl, mark _⟩)))
  case genkeys => injection h with h; subst h; exact .inr (.inr (.inr (.inl ⟨_, _, _, _, _, _, rfl, full⟩)))
  case revkeys =>
    split at h <;> injection h with h <;> subst h
    · exact .inr (.inr (.inr (.inl ⟨_, _, _, _, _, _, rfl, fun _ h => h⟩)))
    · exact .inl ⟨_, rfl⟩
  case sbox => injection h with h; subst h; exact .inr (.inr (.inr (.inl ⟨_, _, _, _, _, _, rfl, fun _ h => h⟩)))
  case feistel => injection h with h; subst h; exact .inr (.inr (.inr (.inl ⟨_, _, _, _, _, _, rfl, fun _ h => h⟩)))
  case calcr => injection h with h; subst h; exact .inr (.inr (.inr (.inl ⟨_, _, _, _, _, _, rfl, fun _ h => h⟩)))
  case block =>
    split at h <;> injection h with h <;> subst h
    · exact .inr (.inr (.inr (.inl ⟨_, _, _, _, _, _, rfl, fun _ h => h⟩)))
    · exact .inl ⟨_, rfl⟩
  case encode => rcases batch .forward rfl with h | h; exacts [.inl h, .inr (.inr (.inl h))]
  case decode => rcases batch .reversed rfl with h | h; exacts [.inl h, .inr (.inr (.inl h))]
  case pad a =>
    split at h
    · injection h with h; subst h; exact .inl ⟨_, rfl⟩
    · split at h <;> injection h with h <;> subst h
      · exact .inl ⟨_, rfl⟩
      · next hc => exact .inr (.inr (.inr (.inr ⟨_, (countError?_eq_none_iff s).mp hc, rfl⟩)))
  case cntpad =>
    split at h
    · injection h with h; subst h; exact .inl ⟨_, rfl⟩
    · split at h <;> injection h with h <;> subst h
      · exact .inr (.inl ⟨rfl, rfl⟩)
      · exact .inr (.inr (.inr (.inl ⟨_, _, _, _, _, _, rfl, fun _ h => h⟩)))

/-- What a step of CTRL can be (R98, R196). -/
theorem ctrlStep_cases {s t : State} (h : ctrlStep s = .next t) :
    (s.ph = .idle ∧ t = s) ∨ (s.ph = .batch ∧ t = endBatch s) ∨
    (s.ph = .exec ∧ ((decodeWord s.cmd).instr? = none ∧ t = raiseErr .illegal s ∨
      ∃ i, (decodeWord s.cmd).instr? = some i ∧ exec i s = .next t)) := by
  unfold ctrlStep executeStep at h
  cases hp : s.ph <;> simp only [hp] at h
  · injection h with h; exact .inl ⟨rfl, h.symm⟩
  · refine .inr (.inr ⟨rfl, ?_⟩)
    split at h
    · next i hi => exact .inr ⟨i, hi, h⟩
    · next hi => injection h with h; exact .inl ⟨hi, h.symm⟩
  · injection h with h; exact .inr (.inl ⟨rfl, h.symm⟩)

/-- What a step of a task can be: nothing, a load, a round or a store (R175 to R177). -/
theorem taskStep_cases (i : Nat) (s : State) :
    (((taskOf s.tasks i).ts = .idle ∨ (taskOf s.tasks i).ts = .finished) ∧ taskStep i s = s) ∨
    ((taskOf s.tasks i).ts = .pending ∧ taskStep i s = taskLoad i s) ∨
    (∃ h : (taskOf s.tasks i).rnd.val < 16, (taskOf s.tasks i).ts = .running ∧
      taskStep i s = taskRound i (taskOf s.tasks i) h s) ∨
    ((taskOf s.tasks i).rnd.val = 16 ∧ (taskOf s.tasks i).ts = .running ∧
      taskStep i s = taskStore i (taskOf s.tasks i) s) := by
  unfold taskStep
  simp only []
  split
  · simp_all
  · simp_all
  · split
    · simp_all
    · next h =>
      refine .inr (.inr (.inr ⟨?_, by assumption, rfl⟩))
      have := (taskOf s.tasks i).rnd.isLt
      omega
  · simp_all

/-- What a step of the outside world can be. -/
theorem hostStep_cases (s : State) :
    (s.env.pending = [] ∧ hostStep s = s) ∨
    (∃ idx r, s.env.pending = .read idx :: r ∧ hostStep s = hostRead idx (dropEvent s)) ∨
    (∃ idx v r, s.env.pending = .write idx v :: r ∧ hostStep s = hostWrite idx v (dropEvent s)) ∨
    (∃ r, s.env.pending = .wait :: r ∧ hostStep s = hostRead statusIndex (if s.done then dropEvent s else s)) ∨
    (∃ r, s.env.pending = .reset :: r ∧ hostStep s = applyReset (dropEvent s)) := by
  unfold hostStep
  cases hp : s.env.pending with
  | nil => simp
  | cons e r => cases e <;> simp

/-- The index of an entry of `IN` is below `MAXBLOCKS` (R61, R79). -/
theorem portReg_input_lt (p : Params) (idx i : Nat) (h : portReg p idx = .input i) : i < p.maxBlocks := by
  unfold portReg at h
  repeat' split at h
  all_goals first
    | (injection h with h; subst h; next hb => exact hb.2)
    | exact nomatch h

/-- Only index 0 is `CMD` (R61). -/
theorem portReg_cmd (p : Params) (idx : Nat) (h : portReg p idx = .cmd) : idx = cmdIndex := by
  unfold portReg at h
  split at h
  · assumption
  · repeat' split at h
    all_goals exact nomatch h

/-- What a host write can do (R61, R70): nothing, accept a command, store a register, or store an entry of `IN`
below `MAXBLOCKS`. -/
theorem hostWrite_cases (idx : Nat) (v : Block) (s : State) :
    hostWrite idx v s = s ∨
    (s.ph = .idle ∧ idx = cmdIndex ∧ hostWrite idx v s = acceptCommand (v.setWidth 32) s) ∨
    (s.ph = .idle ∧ ∃ key count opa opb,
      hostWrite idx v s = { s with key := key, count := count, opa := opa, opb := opb }) ∨
    (s.ph = .idle ∧ ∃ i, i < s.env.params.maxBlocks ∧ hostWrite idx v s = writeEntry s .input i v) := by
  unfold hostWrite
  cases hb : busy s
  · have hp := (busy_eq_false_iff s).mp hb
    simp only [if_false, Bool.false_eq_true]
    have hi := portReg_input_lt s.env.params idx
    have hc := portReg_cmd s.env.params idx
    cases hr : portReg s.env.params idx
    case cmd => exact .inr (.inl ⟨hp, hc hr, rfl⟩)
    case input i => exact .inr (.inr (.inr ⟨hp, i, hi i hr, rfl⟩))
    case key => exact .inr (.inr (.inl ⟨hp, _, _, _, _, rfl⟩))
    case count => exact .inr (.inr (.inl ⟨hp, _, _, _, _, rfl⟩))
    case opa => exact .inr (.inr (.inl ⟨hp, _, _, _, _, rfl⟩))
    case opb => exact .inr (.inr (.inl ⟨hp, _, _, _, _, rfl⟩))
    all_goals exact .inl rfl
  · exact .inl (if_pos rfl)

/-- The step of the agent that `nextAgent?` names. -/
theorem step_of_nextAgent {s : State} {a : Agent} (h : nextAgent? s = some a) : step s = agentStep a (dropTurn s) := by
  show machineStep s = _
  simp only [machineStep, h]

/-- A task's step writes nothing but its task state and `OUT` (R175 to R177). -/
theorem taskStep_frame (i : Nat) (s : State) :
    taskStep i s = { s with tasks := (taskStep i s).tasks, outArr := (taskStep i s).outArr } := by
  rcases taskStep_cases i s with ⟨_, h⟩ | ⟨_, h⟩ | ⟨_, _, h⟩ | ⟨_, _, h⟩ <;> rw [h]
  · rfl
  · rfl
  · simp only [taskStore, writeEntry, writeEntryBytes_eq_withArray, withArray]

/-- What it takes for a task to have a step (R174, R195, R245). -/
theorem taskEnabled_iff (i : Nat) (s : State) :
    taskEnabled i s = true ↔ s.ph = .batch ∧ i < s.count.toNat ∧
      (taskPhase s i = .pending ∧ laneFree s = true ∨ taskPhase s i = .running) := by
  unfold taskEnabled
  cases hp : s.ph <;> cases ht : taskPhase s i <;> simp

/-- The three ranges of indices that carry a number (R61). -/
theorem portReg_sk (p : Params) (k : Fin 16) : portReg p (skBase + k.val) = .sk k := by
  have := k.isLt
  unfold portReg cmdIndex statusIndex skBase
  repeat rw [if_neg (by omega)]
  rw [dif_pos (by omega)]
  congr 1
  ext
  simp

theorem portReg_input (p : Params) (i : Nat) (h : i < p.maxBlocks) : portReg p (inBase + i) = .input i := by
  unfold portReg cmdIndex statusIndex skBase inBase
  repeat rw [if_neg (by omega)]
  rw [dif_neg (by omega), if_pos (by omega), Nat.add_sub_cancel_left]

theorem portReg_output (p : Params) (i : Nat) (h : i < p.maxBlocks) : portReg p (outBase + i) = .output i := by
  have : p.maxBlocks ≤ 65536 := p.lastBlock.isLt
  have e : 0x20000 + i - 0x20000 = i := by omega
  unfold portReg cmdIndex statusIndex skBase inBase outBase
  simp only [e]
  iterate 8 rw [if_neg (by omega)]
  rw [dif_neg (by omega), if_neg (by omega), if_pos (by omega)]

/-- The strict count of a pad, said once: the answer is the length of the pad the block ends in (R211). -/
theorem countPaddingBytes_eq_some_iff (b : Block) (n : Nat) : countPaddingBytes b = some n ↔ EndsInPad b n := by
  have hlt := (byteOf b 7).isLt
  have key : ∀ n, n < 256 → ((byteOf b 7).toNat = n ↔ byteOf b 7 = BitVec.ofNat 8 n) := by
    intro n hn
    constructor
    · intro h; apply BitVec.eq_of_toNat_eq; simp [h]; omega
    · intro h; rw [h]; simp; omega
  unfold countPaddingBytes EndsInPad
  simp only []
  split
  · next h =>
    simp only [reduceCtorEq, false_iff]
    rintro ⟨h1, h8, hj⟩
    have := (key n (by omega)).mpr (hj 7 (by simp; omega))
    omega
  · next h =>
    push Not at h
    split
    · next ha =>
      simp only [List.all_eq_true, List.mem_finRange, forall_const, Bool.or_eq_true, decide_eq_true_eq,
        beq_iff_eq] at ha
      simp only [Option.some.injEq]
      constructor
      · rintro rfl
        refine ⟨h.1, h.2, fun j hj => ?_⟩
        rcases ha j with h' | h'
        · omega
        · rw [h']; simp
      · rintro ⟨h1, h8, hj⟩
        exact (key n (by omega)).mpr (hj 7 (by simp; omega))
    · next ha =>
      simp only [reduceCtorEq, false_iff]
      rintro ⟨h1, h8, hj⟩
      have h7 := (key n (by omega)).mpr (hj 7 (by simp; omega))
      apply ha
      simp only [List.all_eq_true, List.mem_finRange, forall_const, Bool.or_eq_true, decide_eq_true_eq, beq_iff_eq]
      intro j
      rw [h7]
      by_cases hjn : j.val < 8 - n
      · exact .inl hjn
      · right; rw [hj j (by omega), hj 7 (by simp; omega)]

end Sys2Proof.Machine
end

