-- ==== Sys2Proof/Laws/Encoding.lean ====
section
/-! SUPPORT. The fields of a command word: of a word built by `formatC`, that they determine the word, and what
selecting a row says about them. -/

namespace Sys2Proof

@[simp] theorem opField_formatC (op arg : BitVec 8) : opField (formatC op arg) = op := by
  apply BitVec.eq_of_getLsbD_eq
  intro i hi
  simp only [opField, formatC, BitVec.getLsbD_extractLsb', BitVec.getLsbD_append]
  interval_cases i <;> simp

@[simp] theorem argField_formatC (op arg : BitVec 8) : argField (formatC op arg) = arg := by
  apply BitVec.eq_of_getLsbD_eq
  intro i hi
  simp only [argField, formatC, BitVec.getLsbD_extractLsb', BitVec.getLsbD_append]
  interval_cases i <;> simp

@[simp] theorem rsvField_formatC (op arg : BitVec 8) : rsvField (formatC op arg) = 0 := by
  apply BitVec.eq_of_getLsbD_eq
  intro i hi
  simp only [rsvField, formatC, BitVec.getLsbD_extractLsb', BitVec.getLsbD_append]
  interval_cases i <;> simp

/-- A word is its three fields (R91). -/
theorem word_eq_fields (w : CommandWord) : w = rsvField w ++ argField w ++ opField w := by
  apply BitVec.eq_of_getLsbD_eq
  intro i hi
  simp only [rsvField, argField, opField, BitVec.getLsbD_append, BitVec.getLsbD_extractLsb']
  interval_cases i <;> simp

/-- Two words with the same fields are the same word. -/
theorem word_ext {w w' : CommandWord} (ho : opField w = opField w') (ha : argField w = argField w')
    (hr : rsvField w = rsvField w') : w = w' := by
  rw [word_eq_fields w, word_eq_fields w', ho, ha, hr]

/-- Under the mask of a row with an argument a word keeps `op` and `rsv`. -/
theorem and_argMask (w : CommandWord) : w &&& argMask = rsvField w ++ 0#8 ++ opField w := by
  apply BitVec.eq_of_getLsbD_eq
  intro i hi
  simp only [argMask, rsvField, opField, BitVec.getLsbD_and, BitVec.getLsbD_append, BitVec.getLsbD_extractLsb']
  interval_cases i <;> simp

/-- Under the full mask a word keeps all of itself. -/
theorem and_fullMask (w : CommandWord) : w &&& fullMask = w := by
  have : fullMask = BitVec.allOnes 32 := by decide
  rw [this, BitVec.and_allOnes]

/-- A row with an argument is selected by its `op` with `rsv` = 0 (R93). -/
theorem and_argMask_eq_iff (w : CommandWord) (op : BitVec 8) :
    w &&& argMask = formatC op 0 ↔ opField w = op ∧ rsvField w = 0 := by
  rw [and_argMask]
  constructor
  · intro h
    have ho := congrArg opField h
    have hr := congrArg rsvField h
    have e : rsvField w ++ 0#8 ++ opField w = w &&& argMask := (and_argMask w).symm
    rw [opField_formatC] at ho
    rw [rsvField_formatC] at hr
    refine ⟨ho ▸ ?_, hr ▸ ?_⟩
    · apply BitVec.eq_of_getLsbD_eq
      intro i hi
      simp only [opField, BitVec.getLsbD_extractLsb', BitVec.getLsbD_append]
      interval_cases i <;> simp
    · apply BitVec.eq_of_getLsbD_eq
      intro i hi
      simp only [rsvField, BitVec.getLsbD_extractLsb', BitVec.getLsbD_append]
      interval_cases i <;> simp
  · rintro ⟨ho, hr⟩
    rw [ho, hr]
    rfl

/-- A row without an argument is selected by its one word (R93). -/
theorem and_fullMask_eq_iff (w : CommandWord) (op : BitVec 8) :
    w &&& fullMask = formatC op 0 ↔ opField w = op ∧ argField w = 0 ∧ rsvField w = 0 := by
  rw [and_fullMask]
  constructor
  · rintro rfl; simp
  · rintro ⟨ho, ha, hr⟩
    exact word_ext (by simp [ho]) (by simp [ha]) (by simp [hr])

/-- The pattern of every row is its `op` in format C with the other fields 0 (R91, R93). -/
theorem opcodeMap_patterns : ∀ r ∈ opcodeMap, r.pattern = formatC (opField r.pattern) 0 := by
  decide +kernel

/-- The mask of every row is one of the two. -/
theorem opcodeMap_masks : ∀ r ∈ opcodeMap, r.mask = argMask ∨ r.mask = fullMask := by
  decide +kernel

/-- What selecting a row says about the fields of a word (R93). -/
theorem fields_of_selects {w : CommandWord} {r : OpcodeRow} (hr : r ∈ opcodeMap) (h : selects w r = true) :
    opField w = opField r.pattern ∧ rsvField w = 0 ∧ (r.mask = fullMask → argField w = 0) := by
  have hs : w &&& r.mask = r.pattern := by simpa [selects] using h
  rw [opcodeMap_patterns r hr] at hs
  rcases opcodeMap_masks r hr with hm | hm <;> rw [hm] at hs
  · obtain ⟨ho, hv⟩ := (and_argMask_eq_iff w _).mp hs
    exact ⟨ho, hv, fun hf => absurd (hm.symm.trans hf) (by decide)⟩
  · obtain ⟨ho, ha, hv⟩ := (and_fullMask_eq_iff w _).mp hs
    exact ⟨ho, hv, fun _ => ha⟩

/-- The answer of the decoder comes from a selected row of the opcode map, or no row is selected (R94). -/
theorem decodeWord_cases (w : CommandWord) :
    (∃ r ∈ opcodeMap, selects w r = true ∧ (decodeWord w).instr? = some (r.build (argField w))) ∨
    ((∀ r ∈ opcodeMap, selects w r = false) ∧ decodeWord w = .illegal (illegalReason w)) := by
  unfold decodeWord
  split
  · next r hr =>
    refine .inl ⟨r, List.mem_of_find?_eq_some hr, List.find?_some hr, ?_⟩
    split <;> rfl
  · next hn => exact .inr ⟨fun r hr => by simpa using List.find?_eq_none.mp hn r hr, rfl⟩

end Sys2Proof
end

