-- ==== Sys2Proof/Laws/PerInstr.lean ====
section
/-! SUPPORT. One fact for every command as syntax: its encoding selects a row of the opcode map, and that row
builds the command again from the field `arg` (R93). -/

namespace Sys2Proof.Laws.SelectsItsRow

/-- The encoding of a command has `rsv` = 0 and selects a row that builds the command from its `arg`. -/
def Statement (i : Instr) : Prop :=
  rsvField (encodeWord i) = 0 ∧
  ∃ r ∈ opcodeMap, selects (encodeWord i) r = true ∧ r.build (argField (encodeWord i)) = i

/-- A row with an argument is selected by its `op` with any `arg`. -/
theorem selects_formatC (m : String) (op arg : BitVec 8) (b : BitVec 8 → Instr) :
    selects (formatC op arg) ⟨m, formatC op 0, argMask, b⟩ = true := by
  have := (and_argMask_eq_iff (formatC op arg) op).mpr (by simp)
  simp only [selects, this, beq_self_eq_true]

theorem perm (t : BitVec 8) : Statement (.perm t) :=
  ⟨rsvField_formatC _ _, ⟨"PERM", formatC 0x10 0, argMask, fun a => .perm a⟩, by simp [opcodeMap, formatC],
    selects_formatC _ _ _ _, by simp [encodeWord]⟩
theorem kperm1 : Statement .kperm1 := ⟨by decide, opcodeMap[1], by simp [opcodeMap], by decide, rfl⟩
theorem krot (k : BitVec 8) : Statement (.krot k) :=
  ⟨rsvField_formatC _ _, ⟨"KROT", formatC 0x21 0, argMask, fun a => .krot a⟩, by simp [opcodeMap, formatC],
    selects_formatC _ _ _ _, by simp [encodeWord]⟩
theorem kperm2 (k : BitVec 8) : Statement (.kperm2 k) :=
  ⟨rsvField_formatC _ _, ⟨"KPERM2", formatC 0x22 0, argMask, fun a => .kperm2 a⟩, by simp [opcodeMap, formatC],
    selects_formatC _ _ _ _, by simp [encodeWord]⟩
theorem genkeys : Statement .genkeys := ⟨by decide, opcodeMap[4], by simp [opcodeMap], by decide, rfl⟩
theorem revkeys : Statement .revkeys := ⟨by decide, opcodeMap[5], by simp [opcodeMap], by decide, rfl⟩
theorem sbox : Statement .sbox := ⟨by decide, opcodeMap[6], by simp [opcodeMap], by decide, rfl⟩
theorem feistel : Statement .feistel := ⟨by decide, opcodeMap[7], by simp [opcodeMap], by decide, rfl⟩
theorem calcr : Statement .calcr := ⟨by decide, opcodeMap[8], by simp [opcodeMap], by decide, rfl⟩
theorem block : Statement .block := ⟨by decide, opcodeMap[9], by simp [opcodeMap], by decide, rfl⟩
theorem encode : Statement .encode := ⟨by decide, opcodeMap[10], by simp [opcodeMap], by decide, rfl⟩
theorem decode : Statement .decode := ⟨by decide, opcodeMap[11], by simp [opcodeMap], by decide, rfl⟩
theorem pad (n : BitVec 8) : Statement (.pad n) :=
  ⟨rsvField_formatC _ _, ⟨"PAD", formatC 0x60 0, argMask, fun a => .pad a⟩, by simp [opcodeMap, formatC],
    selects_formatC _ _ _ _, by simp [encodeWord]⟩
theorem cntpad : Statement .cntpad := ⟨by decide, opcodeMap[13], by simp [opcodeMap], by decide, rfl⟩

end Sys2Proof.Laws.SelectsItsRow
end

