-- ==== Sys2Proof/Machine/Assembler.lean ====
section
/-! DEFINITION. Assembler syntax, pseudo-commands and host scripts (`30_encoding.md` R101 to R103). -/

namespace Sys2Proof.Machine

/-- The names of the tables as an argument of `PERM`, by their select codes (R101). -/
def tableNames : List (String × BitVec 8) :=
  [("IP", 0), ("IPINV", 1), ("E", 2), ("P", 3), ("PC1", 4), ("PC2", 5)]

/-- The value of a decimal digit. -/
def digitValue? (ch : Char) : Option Nat :=
  if '0' ≤ ch ∧ ch ≤ '9' then some (ch.toNat - '0'.toNat) else none

/-- A decimal number; none for the empty string or a character that is no digit. -/
def decimal? (text : String) : Option Nat :=
  match text.toList with
  | [] => none
  | chars => chars.foldlM (fun n ch => (digitValue? ch).map (10 * n + ·)) 0

/-- A decimal argument that fits the field `arg`. -/
def decimalArg? (text : String) : Option (BitVec 8) :=
  (decimal? text).bind fun n => if n < 256 then some (BitVec.ofNat 8 n) else none

/-- The argument of `PERM`: a table name or a decimal number (R101). -/
def permArg? (text : String) : Option (BitVec 8) :=
  match tableNames.lookup text with
  | some t => some t
  | none => decimalArg? text

/-- A line of assembler, given as its words (R101, R102): the command it stands for, if it is one. -/
def assemble : List String → Option Instr
  | ["KPERM1"] => some .kperm1
  | ["GENKEYS"] => some .genkeys
  | ["REVKEYS"] => some .revkeys
  | ["SBOX"] => some .sbox
  | ["FEISTEL"] => some .feistel
  | ["CALCR"] => some .calcr
  | ["BLOCK"] => some .block
  | ["ENCODE"] => some .encode
  | ["DECODE"] => some .decode
  | ["CNTPAD"] => some .cntpad
  | ["IPERM"] => some .iperm
  | ["FPERM"] => some .fperm
  | ["EXPAND"] => some .expand
  | ["PPERM"] => some .pperm
  | ["PERM", t] => (permArg? t).map .perm
  | ["KROT", k] => (decimalArg? k).map .krot
  | ["KPERM2", k] => (decimalArg? k).map .kperm2
  | ["PAD", n] => (decimalArg? n).map .pad
  | _ => none

/-- A directive of a host script (R103). -/
inductive Directive where
  /-- `WR reg, value`, the register by its index. -/
  | wr (idx : Nat) (v : Block)
  /-- `RD reg`. -/
  | rd (idx : Nat)
  /-- A command alone: `WR CMD, word`, then `WAIT`. -/
  | cmd (i : Instr)
  /-- `WAIT`. -/
  | wait
  deriving DecidableEq, Repr

/-- The events of the outside world a directive stands for (R103). -/
def directiveEvents : Directive → List HostEvent
  | .wr idx v => [.write idx v]
  | .rd idx => [.read idx]
  | .cmd i => [.write cmdIndex (zext64 (encodeWord i)), .wait]
  | .wait => [.wait]

/-- The state in which the outside world has a script still to perform, after what it had pending. -/
def withScript (script : List Directive) (s : State) : State :=
  { s with env := { s.env with pending := s.env.pending ++ script.flatMap directiveEvents } }

end Sys2Proof.Machine
end

