-- ==== Sys2Proof/Tests/Slice0.lean ====
section
/-! SUPPORT. Tests: the checks of WellFormed, one word of every command written out from R91 and R93, single
steps on the vectors of `95_test_vectors.md` (named V, S and P there), and a witness for the hypotheses of
every statement that has some. -/

namespace Sys2Proof.Tests

open Sys2Proof Sys2Proof.Machine

/-! ## WellFormed refuses what R92 calls out of range -/

theorem test_wf_perm_6 : (Instr.perm 6).wf = false ∧ (Instr.perm 5).wf = true := by decide
theorem test_wf_krot_0 : (Instr.krot 0).wf = false ∧ (Instr.krot 1).wf = true := by decide
theorem test_wf_krot_17 : (Instr.krot 17).wf = false ∧ (Instr.krot 16).wf = true := by decide
theorem test_wf_kperm2_0 : (Instr.kperm2 0).wf = false ∧ (Instr.kperm2 1).wf = true := by decide
theorem test_wf_kperm2_17 : (Instr.kperm2 17).wf = false ∧ (Instr.kperm2 16).wf = true := by decide
theorem test_wf_pad_0 : (Instr.pad 0).wf = false ∧ (Instr.pad 1).wf = true := by decide
theorem test_wf_pad_9 : (Instr.pad 9).wf = false ∧ (Instr.pad 8).wf = true := by decide

/-! ## Decoding: `rsv` (16 bits), `arg` (8 bits), `op` (8 bits), from R91 and the column `op` of R93 -/

theorem test_decode_perm :
    decodeWord (0b0000000000000000#16 ++ 0b00000101#8 ++ 0b00010000#8) = .command (.perm 5) := by decide +kernel
theorem test_decode_kperm1 :
    decodeWord (0b0000000000000000#16 ++ 0b00000000#8 ++ 0b00100000#8) = .command .kperm1 := by decide +kernel
theorem test_decode_krot :
    decodeWord (0b0000000000000000#16 ++ 0b00001001#8 ++ 0b00100001#8) = .command (.krot 9) := by decide +kernel
theorem test_decode_kperm2 :
    decodeWord (0b0000000000000000#16 ++ 0b00010000#8 ++ 0b00100010#8) = .command (.kperm2 16) := by decide +kernel
theorem test_decode_genkeys :
    decodeWord (0b0000000000000000#16 ++ 0b00000000#8 ++ 0b00100011#8) = .command .genkeys := by decide +kernel
theorem test_decode_revkeys :
    decodeWord (0b0000000000000000#16 ++ 0b00000000#8 ++ 0b00100100#8) = .command .revkeys := by decide +kernel
theorem test_decode_sbox :
    decodeWord (0b0000000000000000#16 ++ 0b00000000#8 ++ 0b00110000#8) = .command .sbox := by decide +kernel
theorem test_decode_feistel :
    decodeWord (0b0000000000000000#16 ++ 0b00000000#8 ++ 0b00110001#8) = .command .feistel := by decide +kernel
theorem test_decode_calcr :
    decodeWord (0b0000000000000000#16 ++ 0b00000000#8 ++ 0b00110010#8) = .command .calcr := by decide +kernel
theorem test_decode_block :
    decodeWord (0b0000000000000000#16 ++ 0b00000000#8 ++ 0b01000000#8) = .command .block := by decide +kernel
theorem test_decode_encode :
    decodeWord (0b0000000000000000#16 ++ 0b00000000#8 ++ 0b01010000#8) = .command .encode := by decide +kernel
theorem test_decode_decode :
    decodeWord (0b0000000000000000#16 ++ 0b00000000#8 ++ 0b01010001#8) = .command .decode := by decide +kernel
theorem test_decode_pad :
    decodeWord (0b0000000000000000#16 ++ 0b00000111#8 ++ 0b01100000#8) = .command (.pad 7) := by decide +kernel
theorem test_decode_cntpad :
    decodeWord (0b0000000000000000#16 ++ 0b00000000#8 ++ 0b01100001#8) = .command .cntpad := by decide +kernel

/-- Vector V12: words that are no command, each by the name of its reason. -/
theorem test_decode_illegal :
    decodeWord 0x00000011 = .illegal .unknownOpcode ∧ decodeWord 0xFFFFFFFF = .illegal .reservedBits ∧
    decodeWord 0x00000150 = .illegal .argumentNotZero ∧ decodeWord 0x80000010 = .illegal .reservedBits := by
  decide +kernel

/-- R95: no two rows of the opcode map can select one word. -/
theorem test_rows_disjoint :
    opcodeMap.Pairwise fun r r' => r.pattern &&& r'.mask ≠ r'.pattern &&& r.mask := by decide +kernel

/-- R101: the words of the assembler. -/
theorem test_assemble :
    (assemble ["PERM", "PC1"]).map encodeWord = some 0x00000410 ∧
    (assemble ["EXPAND"]).map encodeWord = some 0x00000210 ∧
    (assemble ["KROT", "16"]).map encodeWord = some 0x00001021 ∧
    assemble ["PAD", "256"] = none ∧ assemble ["NOP"] = none := by decide +kernel

/-- R103: a command alone is a write of `CMD`, then `WAIT`. -/
theorem test_directive_command :
    directiveEvents (.cmd (.pad 3)) = [.write 0 0x360, .wait] := by decide +kernel

/-! ## Single steps, each the command of a word in `CMD`, on the spec's vectors -/

/-- The state one step after a command word has been placed. -/
def after (w : Nat) (s : State) : State :=
  match step (s.withFetchWord 32 w) with
  | .next t => t
  | .fault _ => s
  | .refused _ => s

/-- A memory of one block at entry 0. -/
def oneBlock (b : Block) : Memory := (List.finRange 8).map fun j => (j.val, byteOf b j)

/-- V4: `PERM E` ignores `OPA[63:32]`. -/
theorem test_perm_e : (after 0x00000210 { State.reset with opa := 0xFFFFFFFFF0AAF0AA }).res = 0x00007A15557A1555 := by
  decide +kernel
/-- V4: `PERM 6` ends with `ERR_OPERAND`. -/
theorem test_perm_6 :
    let t := after 0x00000610 { State.reset with res := 7 }
    (statusWord t, t.res) = (0x00000212, 7) := by decide +kernel
/-- V2: `C0` and `D0`. -/
theorem test_kperm1 :
    let t := after 0x00000020 { State.reset with key := 0x133457799BBCDFF1 }
    (t.c, t.d, statusWord t) = (0xF0CCAAF, 0x556678F, 0x00000002) := by decide +kernel
/-- V5: the top bit of `C` wraps to the bottom of `C`. -/
theorem test_krot_wrap :
    let t := after 0x00000121 { State.reset with c := 0x8000000 }
    (t.c, t.d) = (0x0000001, 0) := by decide +kernel
/-- V5: `KROT 3` rotates by two. -/
theorem test_krot_3 :
    let t := after 0x00000321 { State.reset with c := 0xC332ABF, d := 0x5599E3D }
    (t.c, t.d) = (0x0CCAAFF, 0x56678F5) := by decide +kernel
/-- V2: subkey 1, at the first entry. -/
theorem test_kperm2_1 :
    let t := after 0x00000122 { State.reset with c := 0xE19955F, d := 0xAACCF1E }
    (t.sk[0], t.sk[1], statusWord t) = (0x1B02EFFC7072, 0, 0x00010002) := by decide +kernel
/-- V7: `KPERM2 16` after `KPERM2 1`: bit 31 of `STATUS`. -/
theorem test_kperm2_16 :
    let t := after 0x00001022 { State.reset with c := 0xF0CCAAF, d := 0x556678F, skw := 1 }
    (t.sk[15], statusWord t) = (0xCB3D8B0E17F5, 0x80010002) := by decide +kernel
/-- V2: the first and the last subkey, and the halves back at their start. -/
theorem test_genkeys :
    let t := after 0x00000023 { State.reset with key := 0x133457799BBCDFF1 }
    (t.sk[0], t.sk[15], t.c, t.d, statusWord t) = (0x1B02EFFC7072, 0xCB3D8B0E17F5, 0xF0CCAAF, 0x556678F, 0xFFFF0006) := by
  decide +kernel
/-- R142: entry 1 and entry 16 change places, `SKREV` is set. -/
theorem test_revkeys :
    let t := after 0x00000024 { State.reset with sk := (Vector.replicate 16 0).set 0 5, skw := 0xFFFF }
    (t.sk[0], t.sk[15], statusWord t) = (0, 5, 0xFFFF000E) := by decide +kernel
/-- R234: `REVKEYS` with fifteen of sixteen subkeys written. -/
theorem test_revkeys_nokeys : statusWord (after 0x00000024 { State.reset with skw := 0x7FFF }) = 0x7FFF0512 := by
  decide +kernel
/-- V6: row and column of the S-boxes, chunk `100000`. -/
theorem test_sbox : (after 0x00000030 { State.reset with opa := 0x820820820820 }).res = 0x40DA4917 := by
  decide +kernel
/-- V6: `SBOX` ignores `OPA[63:48]`. -/
theorem test_sbox_high : (after 0x00000030 { State.reset with opa := 0xFFFF000000000000 }).res = 0xEFA72C4D := by
  decide +kernel
/-- V6: `FEISTEL` ignores the high bits of both operands. -/
theorem test_feistel :
    (after 0x00000031 { State.reset with opa := 0xDEADBEEFF0AAF0AA, opb := 0xFFFF1B02EFFC7072 }).res = 0x234AA9BB := by
  decide +kernel
/-- V6: round 1 of the known-answer block. -/
theorem test_calcr :
    (after 0x00000032 { State.reset with opa := 0xCC00CCFFF0AAF0AA, opb := 0x1B02EFFC7072 }).res = 0xF0AAF0AAEF4A6544 := by
  decide +kernel
/-- V7: `BLOCK` with sixteen zero subkeys. -/
theorem test_block :
    (after 0x00000040 { State.reset with opa := 0x0123456789ABCDEF, skw := 0xFFFF }).res = 0x617B3A0CE8F07100 := by
  decide +kernel
/-- V7: `BLOCK` with entries 1 and 16 written. -/
theorem test_block_nokeys : statusWord (after 0x00000040 { State.reset with skw := 0x8001 }) = 0x80010512 := by
  decide +kernel
/-- R193: the start of a batch makes the tasks below `COUNT` pending and does not end the command. The `STATUS`
is that of R23 and R26, with `SKVALID` set (log entry 6). -/
theorem test_encode_starts :
    let t := after 0x00000050 { State.reset with count := 2 }
    (t.ph, t.done, taskPhase t 1, taskPhase t 2, statusWord t) = (.batch, false, .pending, .idle, 0xFFFF0005) := by
  decide +kernel
/-- V13: `ENCODE` with `COUNT` = 0. -/
theorem test_encode_count_0 : statusWord (after 0x00000050 State.reset) = 0x00000312 := by decide +kernel
/-- R194: `DECODE` loads the bank in reversed order: entry 1 is subkey 16 of V2. -/
theorem test_decode_bank :
    let t := after 0x00000051 { State.reset with key := 0x133457799BBCDFF1, count := 1 }
    (t.sk[0], t.skrev) = (0xCB3D8B0E17F5, true) := by decide +kernel
/-- V13: `DECODE` with `COUNT` = `MAXBLOCKS` + 1. -/
theorem test_decode_alloc :
    statusWord (after 0x00000051 { State.reset with count := 5 }) = 0x00000412 := by decide +kernel
/-- V10: `PAD 3`. -/
theorem test_pad :
    (after 0x00000360 { State.reset with count := 1, inArr := oneBlock 0x1122334455667788 }).inArr =
      oneBlock 0x1122334455030303 := by decide +kernel
/-- V10: `PAD 9` with `COUNT` = 0: the lower code wins. -/
theorem test_pad_9 : statusWord (after 0x00000960 State.reset) = 0x00000212 := by decide +kernel
/-- V11: a pad of three bytes. -/
theorem test_cntpad :
    (after 0x00000061 { State.reset with count := 1, outArr := oneBlock 0x68656C6C6F030303 }).res = 3 := by
  decide +kernel
/-- V11: a last byte of 0 is no pad; `RES` becomes 0. -/
theorem test_cntpad_bad :
    let t := after 0x00000061 { State.reset with count := 1, outArr := oneBlock 0x1122334455667700, res := 9 }
    (t.res, statusWord t) = (0, 0x00000612) := by decide +kernel
/-- V13: word 0 is illegal. -/
theorem test_illegal : statusWord (after 0x00000000 State.reset) = 0x00000112 := by decide +kernel

/-! ## Witnesses: for every statement with hypotheses, states and operands that meet all of them -/

/-- The state with one event of the outside world pending and the next turn its own. -/
def facing (e : HostEvent) (s : State) : State := { s with env := { s.env with pending := [e], sched := [.host] } }

/-- A state with a command word accepted. -/
def accepted (w : CommandWord) : State := { State.reset with cmd := w, ph := .exec }

/-- A state with a full bank. -/
def fullBank : State := { State.reset with skw := 0xFFFF }

/-- `MAXBLOCKS` = `last + 1`, at most `lanes + 1` tasks running, and the given `COUNT`. -/
def sized (last : Fin 65536) (lanes : Nat) (count : BitVec 32) (s : State) : State :=
  { s with count := count, env := { s.env with params := { lastBlock := last, lanes := .bounded lanes } } }

/-- A batch over one block of zeros with the key 0, its task as given: one lane, `MAXBLOCKS` = 1, `COUNT` = 1. -/
def batchOf (t : Task) (out : Memory) : State :=
  { sized 0 0 1 State.reset with
    ph := .batch, skw := fullBankMask, sk := bankOf 0 .forward, inArr := oneBlock 0, outArr := out, tasks := [(0, t)] }

/-- That batch with its task pending. -/
def batchPending : State := batchOf { Task.reset with ts := .pending } []

/-- That batch with its task loaded. -/
def batchRunning : State := batchOf { ts := .running, l := (ipSplit 0).1, r := (ipSplit 0).2, rnd := 0 } []

/-- The halves after sixteen rounds of that block. -/
def lastHalves : Half × Half := roundsAfter (bankOf 0 .forward) 0 16

/-- That batch with its task finished. -/
def batchFinished : State :=
  batchOf { ts := .finished, l := lastHalves.1, r := lastHalves.2, rnd := 16 } (oneBlock (finalPermutation lastHalves))

/-- The outside world can be made the next agent with any event, in any state. -/
theorem witness_HostActs (e : HostEvent) (s : State) : HostActs e (facing e s) := ⟨rfl, rfl⟩

theorem witness_DecodedWordIsItsEncoding : (decodeWord 0x00001121).instr? = some (.krot 17) := by decide +kernel

theorem witness_StepRunsDecodedCommand :
    (accepted 0x210).ph = .exec ∧ (decodeWord (accepted 0x210).cmd).instr? = some (.perm 2) ∧
    ((accepted 0x210).env.sched.head? = some .host → (accepted 0x210).env.pending = []) := by
  refine ⟨rfl, by decide +kernel, fun _ => rfl⟩

theorem witness_CommandWriteIsAccepted :
    (HostActs (.write 0x00000 0x210) (facing (.write 0 0x210) State.reset) ∧ State.reset.ph = .idle) ∧
    (HostActs (.write 0x00000 0x210) (facing (.write 0 0x210) (accepted 0x50)) ∧ (accepted 0x50).ph ≠ .idle) :=
  ⟨⟨witness_HostActs _ _, rfl⟩, ⟨witness_HostActs _ _, by decide⟩⟩

/-- The storage and batch invariants hold of a state in no batch with nothing stored. -/
theorem invariants_of_idle (s : State) (hb : s.ph ≠ .batch) (hi : s.inArr = []) (ho : s.outArr = [])
    (ht : s.tasks = []) : StorageInv s ∧ BatchInv s := by
  constructor
  · constructor <;> simp [hi, ho, ht, Memory.wf, TaskBank.wf, RisingKeys]
  · constructor
    · intro _ i; simp [taskPhase, ht, taskOf, lookupCell, Task.reset]
    all_goals exact fun h => absurd h hb

/-- The batch invariant of the one-block batch, from where its task stands. -/
theorem batchInv_of (t : Task) (out : Memory) (h : TaskOnTrack (batchOf t out) 0) : BatchInv (batchOf t out) where
  idle_outside hp := absurd rfl hp
  count_legal _ := ⟨by show (1#32) ≠ 0; decide, by show (1#32).toNat ≤ 1; decide⟩
  bank _ := ⟨rfl, rfl⟩
  on_track _ i hi := by
    have h1 : (batchOf t out).count.toNat = 1 := rfl
    obtain rfl : i = 0 := by omega
    exact h
  idle_above _ i hi := by
    have h1 : (batchOf t out).count.toNat = 1 := rfl
    have hne : i ≠ 0 := by omega
    simp [taskPhase, batchOf, taskOf, lookupCell, Ne.symm hne, Task.reset]

/-- The block of the one-block batch. -/
theorem batchOf_input (t : Task) (out : Memory) : readEntry (batchOf t out) .input 0 = 0 := by
  have h : readEntry (batchOf t out) .input 0 = blockOfBytes (byteOf 0) := rfl
  rw [h, blockOfBytes_byteOf]

/-- The result of the one-block batch. -/
theorem batchOf_output (t : Task) (b : Block) : readEntry (batchOf t (oneBlock b)) .output 0 = b := by
  have h : readEntry (batchOf t (oneBlock b)) .output 0 = blockOfBytes (byteOf b) := rfl
  rw [h, blockOfBytes_byteOf]

theorem batchPending_inv : BatchInv batchPending := batchInv_of _ _ trivial
theorem batchRunning_inv : BatchInv batchRunning := by
  refine batchInv_of _ _ ?_
  show (_, _) = roundsAfter _ (readEntry (batchOf _ []) .input 0) 0
  rw [batchOf_input, roundsAfter_zero]
  rfl
theorem batchFinished_inv : BatchInv batchFinished := by
  refine batchInv_of _ _ ⟨rfl, ?_, ?_⟩
  · rw [batchOf_input]; rfl
  · rw [batchOf_input, batchOf_output]; rfl

/-- The one-block batch stores within its one entry. -/
theorem batchPending_storage : StorageInv batchPending := by constructor <;> decide +kernel
theorem batchRunning_storage : StorageInv batchRunning := by constructor <;> decide +kernel

/-- An accepted array command with nothing stored, one lane. -/
def acceptedArray (w : CommandWord) (last : Fin 65536) (count : BitVec 32) : State := sized last 0 count (accepted w)

theorem acceptedArray_invs (w : CommandWord) (last : Fin 65536) (count : BitVec 32) :
    StorageInv (acceptedArray w last count) ∧ BatchInv (acceptedArray w last count) :=
  invariants_of_idle _ (by show Phase.exec ≠ .batch; decide) rfl rfl rfl

theorem witness_BusyBlockCanStep :
    ((accepted 0).tasks.wf ∧ BatchInv (accepted 0) ∧ busy (accepted 0) = true) ∧
    (batchPending.tasks.wf ∧ BatchInv batchPending ∧ busy batchPending = true) ∧
    (batchRunning.tasks.wf ∧ BatchInv batchRunning ∧ busy batchRunning = true) ∧
    (BatchInv batchFinished ∧ busy batchFinished = true) :=
  ⟨⟨(invariants_of_idle _ (by show Phase.exec ≠ .batch; decide) rfl rfl rfl).1.tasks_wf, (invariants_of_idle _ (by show Phase.exec ≠ .batch; decide) rfl rfl rfl).2, rfl⟩,
   ⟨batchPending_storage.tasks_wf, batchPending_inv, rfl⟩, ⟨batchRunning_storage.tasks_wf, batchRunning_inv, rfl⟩,
   ⟨batchFinished_inv, rfl⟩⟩

theorem witness_OnlyTheHostWritesOperands :
    (∃ t, agentStep .ctrl { accepted 0x20 with ph := .batch } = .next t) ∧ (∃ t, agentStep (.task 0) batchPending = .next t) :=
  ⟨⟨_, rfl⟩, _, rfl⟩

theorem witness_OnlyResetClearsStickyAndSkw :
    let s := { State.reset with sticky := true, skw := 0x8001 }
    step s = .next (dropTurn s) ∧ ¬ ResetActs s ∧ s.sticky = true ∧ s.skw.getLsbD 15 = true :=
  ⟨rfl, by simp [ResetActs, HostActs, State.reset, Env.reset], rfl, rfl⟩

theorem witness_OnlyCommandsRaiseErrors :
    (let s := facing (.write cmdIndex 0x23) { State.reset with err := 5 }
     ∃ t, step s = .next t ∧ ¬ ResetActs s ∧ nextAgent? s ≠ some .ctrl ∧ t.err ≠ s.err) ∧
    (let s := acceptedArray 0x50 0 1
     ∃ t, step s = .next t ∧ ¬ ResetActs s ∧ nextAgent? s = some .ctrl ∧ t.ph ≠ .idle) :=
  ⟨⟨_, rfl, by simp [ResetActs, HostActs, facing], by decide, by decide⟩,
   ⟨_, rfl, by simp [ResetActs, HostActs, acceptedArray, sized, accepted, State.reset, Env.reset], by decide, by decide⟩⟩

theorem witness_HostReadReturns : State.reset.ph = .idle ∧ 3 < State.reset.env.params.maxBlocks := by decide

theorem witness_HostReadHasNoSideEffect :
    HostActs (.read 0x2FFFF) (facing (.read 0x2FFFF) State.reset) ∧ HostActs .wait (facing .wait (accepted 0x50)) :=
  ⟨witness_HostActs _ _, witness_HostActs _ _⟩

theorem witness_HostAccessWhileBusy :
    (facing (.read 1) (accepted 0x50)).ph ≠ .idle ∧ HostActs (.read 1) (facing (.read 1) (accepted 0x50)) ∧
    HostActs (.read 0) (facing (.read 0) (accepted 0x50)) ∧ HostActs (.read 2) (facing (.read 2) (accepted 0x50)) ∧
    HostActs (.write 0 0x23) (facing (.write 0 0x23) (accepted 0x50)) :=
  ⟨by decide, witness_HostActs _ _, witness_HostActs _ _, witness_HostActs _ _, witness_HostActs _ _⟩

/-- One state for each of the clauses, `IN` at its first and its last index. -/
theorem witness_HostWriteStores :
    State.reset.ph = .idle ∧ 0 < State.reset.env.params.maxBlocks ∧ 3 < State.reset.env.params.maxBlocks ∧
    ∀ idx ∈ [2, 3, 4, 5, 0x10000 + 0, 0x10000 + 3],
      HostActs (.write idx 7) (facing (.write idx 7) State.reset) ∧ (facing (.write idx 7) State.reset).ph = .idle :=
  ⟨rfl, by decide, by decide, fun _ _ => ⟨witness_HostActs _ _, rfl⟩⟩

/-- The ends of each range of unmapped and of read-only indices, with `MAXBLOCKS` = 4. -/
theorem witness_ReadOnlyAndUnmappedIndices :
    (∀ idx ∈ [0x8, 0xF, 0x20, 0xFFFF, 0x10004, 0x1FFFF, 0x20004, 0x100000],
      ((8 ≤ idx ∧ idx < 0x10) ∨ (0x20 ≤ idx ∧ idx < 0x10000) ∨
        (0x10000 + State.reset.env.params.maxBlocks ≤ idx ∧ idx < 0x20000) ∨
        0x20000 + State.reset.env.params.maxBlocks ≤ idx)) ∧
    (∀ idx ∈ [1, 6, 7, 0x10, 0x1F, 0x20000, 0x20003],
      (idx = 1 ∨ idx = 6 ∨ idx = 7 ∨ (0x10 ≤ idx ∧ idx < 0x20) ∨
        (0x20000 ≤ idx ∧ idx < 0x20000 + State.reset.env.params.maxBlocks))) ∧
    ∀ idx v, HostActs (.write idx v) (facing (.write idx v) State.reset) :=
  ⟨by decide, by decide, fun _ _ => witness_HostActs _ _⟩

theorem witness_ResetInOneStep :
    ResetActs (facing .reset State.reset) ∧ ResetActs (facing .reset (accepted 0x50)) ∧
    ResetActs (facing .reset batchRunning) := ⟨witness_HostActs _ _, witness_HostActs _ _, witness_HostActs _ _⟩

theorem witness_IllegalWordPostsError :
    ∀ w ∈ [0x00000000, 0x00000011, 0x00000150, 0x80000010, 0xFFFFFFFF],
      (accepted (BitVec.ofNat 32 w)).ph = .exec ∧
      ∀ r ∈ opcodeMap, (accepted (BitVec.ofNat 32 w)).cmd &&& r.mask ≠ r.pattern := by
  decide +kernel

/-- The ends of each range of bad arguments. -/
theorem witness_BadArgumentPostsOperandError :
    (∀ a ∈ [6, 255], 6 ≤ (BitVec.ofNat 8 a).toNat) ∧
    (∀ a ∈ [0, 17, 255], BitVec.ofNat 8 a = 0 ∨ 17 ≤ (BitVec.ofNat 8 a).toNat) ∧
    (∀ a ∈ [0, 9, 255], BitVec.ofNat 8 a = 0 ∨ 9 ≤ (BitVec.ofNat 8 a).toNat) := by decide

theorem witness_ZeroCountPostsError :
    State.reset.count = 0 ∧ 1 ≤ (1#8).toNat ∧ (8#8).toNat ≤ 8 := by decide

/-- One above `MAXBLOCKS`, and `MAXBLOCKS` itself, at the largest and the smallest `MAXBLOCKS`. -/
theorem witness_CountAboveCapacityPostsError :
    (sized 0 0 2 State.reset).env.params.maxBlocks < (sized 0 0 2 State.reset).count.toNat ∧
    (sized 65535 0 65537 State.reset).env.params.maxBlocks < (sized 65535 0 65537 State.reset).count.toNat ∧
    (sized 65535 0 65536 State.reset).count.toNat = (sized 65535 0 65536 State.reset).env.params.maxBlocks ∧
    (sized 65535 0 65536 State.reset).err ≠ 4 := by decide +kernel

theorem witness_MissingSubkeyPostsError :
    State.reset.skw ≠ 0xFFFF ∧ { State.reset with skw := 0x7FFF }.skw ≠ 0xFFFF ∧ State.reset.err ≠ 5 := by decide

/-- For `BatchStart`, `HalvesReturnAfterSixteenRounds` and `PadResult`: `COUNT` = 1 and `COUNT` = `MAXBLOCKS` are legal. -/
theorem witness_CountLegal :
    CountLegal (sized 0 0 1 State.reset) ∧ CountLegal (sized 3 0 1 State.reset) ∧ CountLegal (sized 3 0 4 State.reset) ∧
    CountLegal (sized 65535 0 65536 State.reset) := by
  refine ⟨⟨?_, ?_⟩, ⟨?_, ?_⟩, ⟨?_, ?_⟩, ⟨?_, ?_⟩⟩ <;> decide +kernel

/-- A block whose last bytes are no pad (V11). -/
theorem witness_BadPadPostsError :
    let s := { State.reset with count := 1, outArr := oneBlock 0x68656C6C6F030302 }
    CountLegal s ∧ ∀ n, ¬ EndsInPad (readEntry s .output (s.count.toNat - 1)) n := by
  refine ⟨⟨by decide, by decide⟩, fun n hn => ?_⟩
  obtain ⟨h1, h8, h⟩ := hn
  have e : ∀ j, byteOf (readEntry { State.reset with count := 1, outArr := oneBlock 0x68656C6C6F030302 } .output 0) j =
      byteOf 0x68656C6C6F030302 j := by
    have hr : readEntry { State.reset with count := 1, outArr := oneBlock 0x68656C6C6F030302 } .output 0 =
        blockOfBytes (byteOf 0x68656C6C6F030302) := rfl
    intro j; rw [hr, blockOfBytes_byteOf]
  have h7 := (e 7).symm.trans (h 7 (by show 8 - n ≤ 7; omega))
  have h2 : n = 2 := by
    have : (byteOf 0x68656C6C6F030302 7).toNat = n % 2 ^ 8 := by rw [h7]; exact BitVec.toNat_ofNat n 8
    have h7' : (byteOf 0x68656C6C6F030302 7).toNat = 2 := by decide
    omega
  subst h2
  exact absurd ((e 6).symm.trans (h 6 (by decide))) (by decide)

/-- An error of every other command leaves only the status; that of `CNTPAD` leaves `RES` = 0 as well. -/
theorem witness_ErrorsArePrecise :
    (State.reset.err = 0 ∧ ∃ t, exec .encode State.reset = .next t ∧ t.err ≠ 0) ∧
    (let s := { State.reset with count := 1, outArr := oneBlock 0 }
     s.err = 0 ∧ ∃ t, exec .cntpad s = .next t ∧ t.err = 6) := by
  refine ⟨⟨rfl, _, rfl, by decide⟩, rfl, raiseErr .pad { State.reset with count := 1, outArr := oneBlock 0, res := 0 }, ?_, rfl⟩
  have hc : countError? { State.reset with count := 1, outArr := oneBlock 0 } = none := by decide
  have hp : countPaddingBytes (readEntry { State.reset with count := 1, outArr := oneBlock 0 } .output
      (lastIndex { State.reset with count := 1, outArr := oneBlock 0 })) = none := by decide +kernel
  simp only [exec, execCntpad, hc, hp]

theorem witness_PermResult :
    ((0 : BitVec 8), PermTable.ip) ∈ [((0 : BitVec 8), PermTable.ip), (1, .ipinv), (2, .e), (3, .p), (4, .pc1), (5, .pc2)] ∧
    ((5 : BitVec 8), PermTable.pc2) ∈ [((0 : BitVec 8), PermTable.ip), (1, .ipinv), (2, .e), (3, .p), (4, .pc1), (5, .pc2)] := by
  decide

theorem witness_KrotResult : ∀ k ∈ [1, 2, 3, 9, 15, 16], 1 ≤ (BitVec.ofNat 8 k).toNat ∧ (BitVec.ofNat 8 k).toNat ≤ 16 := by
  decide

theorem witness_SubkeysIgnoreDroppedKeyBits : (0x0101010101010101 : Block) &&& 0xFEFEFEFEFEFEFEFE = 0 := by decide

/-- The full bank of `RevkeysResult`, `BlockResult` and `BlockInvertedByReversedBank`. -/
theorem witness_fullBank : fullBank.skw = 0xFFFF := rfl

/-- For every chunk there are the row and the column that the statement speaks of. -/
theorem witness_SboxResult (chunk : BitVec 6) :
    ∃ (row : Fin 4) (col : Fin 16), row.val = 2 * (chunk.getLsbD 5).toNat + (chunk.getLsbD 0).toNat ∧
      col.val = (chunk.extractLsb' 1 4).toNat := by
  revert chunk; decide +kernel

theorem witness_TaskSteps :
    (taskOf batchPending.tasks 0).ts = .pending ∧
    ((taskOf batchRunning.tasks 0).ts = .running ∧ (taskOf batchRunning.tasks 0).rnd.val < 16) ∧
    (let s := batchOf { Task.reset with ts := .running, rnd := 16 } []
     (taskOf s.tasks 0).ts = .running ∧ (taskOf s.tasks 0).rnd.val = 16) := by decide +kernel

theorem witness_TaskStepsCommute : StorageInv batchPending ∧ (0 : Nat) ≠ 1 := ⟨batchPending_storage, by decide⟩

theorem witness_BatchEnd : batchFinished.ph = .batch ∧ batchPending.ph = .batch := ⟨rfl, rfl⟩

theorem witness_BankConstantDuringBatch :
    batchPending.ph = .batch ∧ ¬ ResetActs batchPending ∧ ∃ t, step batchPending = .next t :=
  ⟨rfl, by simp [ResetActs, HostActs, batchPending, batchOf, sized, State.reset, Env.reset], _, rfl⟩

theorem witness_BatchEndsWithEveryResult :
    BatchInv batchFinished ∧ batchFinished.ph = .batch ∧ ¬ ResetActs batchFinished ∧
    ∃ t, step batchFinished = .next t ∧ t.ph ≠ .batch :=
  ⟨batchFinished_inv, rfl, by simp [ResetActs, HostActs, batchFinished, batchOf, sized, State.reset, Env.reset], _, rfl,
    by show Phase.idle ≠ .batch; decide⟩

/-- For `ArrayCommandComputesItsFunction` and `ScheduleIsInvisible`: an accepted `ENCODE` and an accepted `DECODE`, one
lane, `COUNT` = `MAXBLOCKS`. -/
theorem witness_ArrayCommandComputesItsFunction :
    ∀ x ∈ [((0x50 : CommandWord), Direction.forward), (0x51, .reversed)],
      let s := acceptedArray x.1 1 2
      StorageInv s ∧ BatchInv s ∧ CountLegal s ∧ s.ph = .exec ∧ s.env.pending = [] ∧
      decodeWord s.cmd = .command (match x.2 with | .forward => .encode | .reversed => .decode) := by
  intro x hx
  refine ⟨(acceptedArray_invs _ _ _).1, (acceptedArray_invs _ _ _).2, ⟨by show (2#32) ≠ 0; decide, by
    show (2#32).toNat ≤ 2; decide⟩, rfl, rfl, ?_⟩
  revert x; decide +kernel

/-- Blocks that end in a pad of 1, 3 and 8 bytes (V10, V11), each the last block of a state with a legal `COUNT`. -/
theorem witness_CntpadResult :
    EndsInPad 0x1122334455667701 1 ∧ EndsInPad 0x1122334455030303 3 ∧ EndsInPad 0x0808080808080808 8 ∧
    ∀ t b, CountLegal (batchOf t (oneBlock b)) ∧
      readEntry (batchOf t (oneBlock b)) .output ((batchOf t (oneBlock b)).count.toNat - 1) = b := by
  refine ⟨⟨by decide, by decide, by decide +kernel⟩, ⟨by decide, by decide, by decide +kernel⟩,
    ⟨by decide, by decide, by decide +kernel⟩, fun t b => ⟨⟨?_, ?_⟩, batchOf_output t b⟩⟩
  · show (1#32) ≠ 0; decide
  · show (1#32).toNat ≤ 1; decide

/-- The ends of the legal pad lengths, for `PadResult` and `CountOfPaddedBlock`. -/
theorem witness_PadResult : ∀ n ∈ [1, 8], 1 ≤ (BitVec.ofNat 8 n).toNat ∧ (BitVec.ofNat 8 n).toNat ≤ 8 := by decide

/-- `StatusInv` with a command in progress that has a step, after one that ended well, and after one that ended with
an error. -/
theorem witness_StepKeepsStatusInv :
    StatusInv batchPending ∧ (∃ t, step batchPending = .next t) ∧ StatusInv { State.reset with done := true } ∧
    StatusInv (raiseErr .pad State.reset) := by
  refine ⟨⟨?_, ?_, ?_, ?_, ?_⟩, ⟨_, rfl⟩, ⟨?_, ?_, ?_, ?_, ?_⟩, ⟨?_, ?_, ?_, ?_, ?_⟩⟩ <;>
    first | exact fun _ => rfl | decide +kernel

/-- For `StepKeepsStorageInv` and `StepKeepsBatchInv`: the load step, a round step and the end of the batch. -/
theorem witness_StepKeepsBatchInv :
    (StorageInv batchPending ∧ BatchInv batchPending ∧ ∃ t, step batchPending = .next t) ∧
    (StorageInv batchRunning ∧ BatchInv batchRunning ∧ ∃ t, step batchRunning = .next t) ∧
    (BatchInv batchFinished ∧ ∃ t, step batchFinished = .next t) :=
  ⟨⟨batchPending_storage, batchPending_inv, _, rfl⟩, ⟨batchRunning_storage, batchRunning_inv, _, rfl⟩,
   ⟨batchFinished_inv, _, rfl⟩⟩

/-- A step in a batch with its one lane taken, from a state that meets the invariants. -/
theorem witness_StepKeepsLanesInv :
    StorageInv batchRunning ∧ BatchInv batchRunning ∧ LanesInv batchRunning ∧ ∃ t, step batchRunning = .next t :=
  ⟨batchRunning_storage, batchRunning_inv, by show runningTasks _ ≤ 1; decide +kernel, _, rfl⟩

end Sys2Proof.Tests
end

section
/-! PROOFS. The obligations of `10_state.md`: the register `STATUS`, the state after reset, who writes the operand
registers, and the invariant of the flags and `ERR`. -/

namespace Sys2Proof

open Sys2Proof.Machine

/-! ## The register `STATUS` (R23, R24, R26) -/

/-- Each flag of `STATUS` by its bit number (R23). -/
theorem statusWord_flags (s : State) :
    (statusWord s).getLsbD 0 = busy s ∧ (statusWord s).getLsbD 1 = s.done ∧
    (statusWord s).getLsbD 2 = skvalid s ∧ (statusWord s).getLsbD 3 = s.skrev ∧
    (statusWord s).getLsbD 4 = s.sticky := by
  simp only [statusWord, flagBit, BitVec.getLsbD_append]
  simp

/-- The fields of `STATUS` that are wider than a bit: zeros 7:5, `ERR` 15:8, `SKW` 31:16 (R23). -/
theorem statusWord_fields (s : State) :
    (statusWord s).extractLsb' 5 3 = 0 ∧ (statusWord s).extractLsb' 8 8 = s.err ∧
    (statusWord s).extractLsb' 16 16 = s.skw := by
  simp (disch := decide) only [statusWord, BitVec.extractLsb'_append_eq_of_le,
    BitVec.extractLsb'_append_eq_of_add_le]
  simp

/-- `SKVALID` is whether `SKW` is full (R26). -/
theorem skvalid_eq_decide (s : State) : skvalid s = decide (s.skw = 0xFFFF) := by
  rw [skvalid, fullBankMask, beq_eq_decide]

/-- `BUSY` is 1 exactly when `PH` is not `IDLE` (R24). -/
theorem busy_eq_true_iff (s : State) : busy s = true ↔ s.ph ≠ .idle := by
  rw [← Bool.not_eq_false, ne_eq, busy_eq_false_iff]

/-- Settles O12, field by field. -/
theorem statusFields : Obligations.StatusFields := by
  intro s
  obtain ⟨hbusy, hdone, hskvalid, hskrev, hsticky⟩ := statusWord_flags s
  obtain ⟨hzeros, herr, hskw⟩ := statusWord_fields s
  exact ⟨hbusy, hdone, hskvalid.trans (skvalid_eq_decide s), hskrev, hsticky, hzeros, herr, hskw,
    busy_eq_true_iff s⟩

/-! ## The state after reset (R44) -/

/-- After reset `STATUS` reads 0 (R44). -/
theorem statusWord_reset : statusWord State.reset = 0 := by decide

/-- After reset every task holds its reset state (R36, R44). -/
theorem taskOf_reset (i : Nat) : taskOf State.reset.tasks i = Task.reset := rfl

/-- After reset no byte of an array is listed, so each reads as the free value (R44). -/
theorem readByte_reset (a : BlockArray) (addr : Nat) :
    readByte State.reset a addr = Config.unwrittenByte a 0 addr := by
  cases a <;> rfl

/-- After reset every entry of the bank is 0 (R44). -/
theorem sk_reset (k : Fin 16) : State.reset.sk[k] = 0 := by simp [State.reset]

/-- Settles O19, register by register. -/
theorem resetStateIsAsListed : Obligations.ResetStateIsAsListed :=
  ⟨rfl, rfl, rfl, rfl, rfl, rfl, rfl, rfl, sk_reset, rfl, rfl, rfl, rfl, rfl, rfl, statusWord_reset,
    taskOf_reset, readByte_reset⟩

theorem statusInv_reset : StatusInv State.reset := by constructor <;> decide

/-- After reset nothing is listed, so every clause about the lists holds of no entry. -/
theorem storageInv_reset : StorageInv State.reset where
  input_wf := .nil
  output_wf := .nil
  tasks_wf := ⟨.nil, by simp [State.reset]⟩
  input_bound := by simp [State.reset]
  output_bound := by simp [State.reset]
  tasks_bound := by simp [State.reset]

/-- After reset there is no batch, and every task is idle. -/
theorem batchInv_reset : BatchInv State.reset where
  idle_outside := fun _ _ => rfl
  count_legal := nofun
  bank := nofun
  on_track := nofun
  idle_above := nofun

/-- After reset `NLANES` is unbounded (log entry 1). -/
theorem lanesInv_reset : LanesInv State.reset := trivial

/-- Settles O59, invariant by invariant. -/
theorem resetMeetsInvariants : Obligations.ResetMeetsInvariants :=
  ⟨statusInv_reset, storageInv_reset, batchInv_reset, lanesInv_reset⟩

/-! ## The registers only the host writes (R21, R22, R30, R39, R41, R246) -/

/-- The registers a host write alone changes, and the model's own fields, are in `t` what they were in `s`. -/
def SameOperands (s t : State) : Prop :=
  t.key = s.key ∧ t.cmd = s.cmd ∧ t.count = s.count ∧ t.opa = s.opa ∧ t.opb = s.opb ∧ t.env = s.env

/-- A command reads its operands and does not write them. -/
theorem sameOperands_exec {i : Instr} {s t : State} (h : exec i s = .next t) : SameOperands s t := by
  rcases exec_cases h with ⟨e, rfl⟩ | ⟨-, rfl⟩ | ⟨dir, -, rfl⟩ | ⟨_, _, _, _, _, _, rfl, -⟩ | ⟨n, -, rfl⟩ <;>
    simp [SameOperands]

theorem sameOperands_ctrlStep {s t : State} (h : ctrlStep s = .next t) : SameOperands s t := by
  rcases ctrlStep_cases h with ⟨-, rfl⟩ | ⟨-, rfl⟩ | ⟨-, ⟨-, rfl⟩ | ⟨i, -, hexec⟩⟩
  · simp [SameOperands]
  · simp [SameOperands, endBatch]
  · simp [SameOperands]
  · exact sameOperands_exec hexec

theorem sameOperands_taskStep (i : Nat) (s : State) : SameOperands s (taskStep i s) := by
  rw [taskStep_frame]
  simp [SameOperands]

/-- Settles O9, agent by agent. -/
theorem onlyTheHostWritesOperands : Obligations.OnlyTheHostWritesOperands := by
  intro s t a ha h
  cases a with
  | host => exact absurd rfl ha
  | ctrl => exact sameOperands_ctrlStep h
  | task i =>
    obtain rfl : taskStep i s = t := by simpa [agentStep] using h
    exact sameOperands_taskStep i s

/-! ## The invariant of the flags and `ERR` (R25, R28, R29, R236) -/

/-- The invariant reads `PH`, `DONE`, `ERR` and `STICKY` alone. -/
theorem StatusInv.congr {s t : State} (h : StatusInv s) (hph : t.ph = s.ph) (hdone : t.done = s.done)
    (herr : t.err = s.err) (hsticky : t.sticky = s.sticky) : StatusInv t := by
  have hbusy : busy t = busy s := by rw [busy, busy, hph]
  constructor <;> simp only [hbusy, hdone, herr, hsticky]
  exacts [h.err_le, h.busy_not_done, h.busy_ok, h.err_sticky, h.err_done]

/-- No error code is above 6 (R29, R230). -/
theorem errCode_le (e : ErrCause) : (errCode e).toNat ≤ 6 := by cases e <;> decide

/-- Posting an error gives the invariant from any state: the code is one of the six, and `STICKY` and `DONE` are set
with it (R236). -/
theorem statusInv_raiseErr (e : ErrCause) (s : State) : StatusInv (raiseErr e s) where
  err_le := errCode_le e
  busy_not_done := nofun
  busy_ok := nofun
  err_sticky := fun _ => rfl
  err_done := fun _ => rfl

/-- Ending a command keeps the invariant: `BUSY` falls as `DONE` rises (R98). -/
theorem statusInv_endCommand {s : State} (h : StatusInv s) : StatusInv (endCommand s) where
  err_le := h.err_le
  busy_not_done := nofun
  busy_ok := nofun
  err_sticky := h.err_sticky
  err_done := fun _ => rfl

/-- Accepting a command gives the invariant from any state: `ERR` and `DONE` are cleared (R97). -/
theorem statusInv_acceptCommand (w : CommandWord) (s : State) : StatusInv (acceptCommand w s) where
  err_le := by simp
  busy_not_done := fun _ => rfl
  busy_ok := fun _ => rfl
  err_sticky := fun h => absurd rfl h
  err_done := fun h => absurd rfl h

/-- A command run in phase `EXEC` keeps the invariant. Starting a batch keeps `BUSY` at 1; every other command ends,
with an error or without. -/
theorem statusInv_exec {i : Instr} {s t : State} (hs : StatusInv s) (hph : s.ph = .exec)
    (h : exec i s = .next t) : StatusInv t := by
  rcases exec_cases h with ⟨e, rfl⟩ | ⟨-, rfl⟩ | ⟨dir, -, rfl⟩ | ⟨_, _, _, _, _, _, rfl, -⟩ | ⟨n, -, rfl⟩
  · exact statusInv_raiseErr e s
  · exact statusInv_raiseErr .pad _
  · have hbusy : busy s = true := (busy_eq_true_iff s).mpr (by simp [hph])
    exact ⟨hs.err_le, fun _ => hs.busy_not_done hbusy, fun _ => hs.busy_ok hbusy, hs.err_sticky, hs.err_done⟩
  · exact statusInv_endCommand (hs.congr rfl rfl rfl rfl)
  · exact statusInv_endCommand (hs.congr (writePad_ph _ _ _) (writePad_done _ _ _) (writePad_err _ _ _)
      (writePad_sticky _ _ _))

theorem statusInv_ctrlStep {s t : State} (hs : StatusInv s) (h : ctrlStep s = .next t) : StatusInv t := by
  rcases ctrlStep_cases h with ⟨-, rfl⟩ | ⟨-, rfl⟩ | ⟨hph, ⟨-, rfl⟩ | ⟨i, -, hexec⟩⟩
  · exact hs
  · exact statusInv_endCommand (hs.congr rfl rfl rfl rfl)
  · exact statusInv_raiseErr .illegal s
  · exact statusInv_exec hs hph hexec

/-- A task does not touch the flags (R231). -/
theorem statusInv_taskStep {s : State} (h : StatusInv s) (i : Nat) : StatusInv (taskStep i s) := by
  rw [taskStep_frame]
  exact h.congr rfl rfl rfl rfl

/-- Of the host's writes only the one that `CMD` accepts touches the flags (R61, R97). -/
theorem statusInv_hostWrite {s : State} (h : StatusInv s) (idx : Nat) (v : Block) :
    StatusInv (hostWrite idx v s) := by
  rcases hostWrite_cases idx v s with he | ⟨-, -, he⟩ | ⟨-, _, _, _, _, he⟩ | ⟨-, i, -, he⟩ <;> rw [he]
  · exact h
  · exact statusInv_acceptCommand _ s
  · exact h.congr rfl rfl rfl rfl
  · exact h.congr (writeEntry_ph _ _ _ _) (writeEntry_done _ _ _ _) (writeEntry_err _ _ _ _)
      (writeEntry_sticky _ _ _ _)

theorem statusInv_hostStep {s : State} (h : StatusInv s) : StatusInv (hostStep s) := by
  have hdrop : StatusInv (dropEvent s) := h.congr rfl rfl rfl rfl
  rcases hostStep_cases s with ⟨-, he⟩ | ⟨idx, _, -, he⟩ | ⟨idx, v, _, -, he⟩ | ⟨_, -, he⟩ | ⟨_, -, he⟩ <;> rw [he]
  · exact h
  · exact hdrop.congr rfl rfl rfl rfl
  · exact statusInv_hostWrite hdrop idx v
  · have hpoll : StatusInv (if s.done then dropEvent s else s) := by split <;> assumption
    exact hpoll.congr rfl rfl rfl rfl
  · exact statusInv_reset.congr rfl rfl rfl rfl

/-- Settles O55, by the agent that steps. -/
theorem stepKeepsStatusInv : Obligations.StepKeepsStatusInv := by
  intro s t hs h
  have hturn : StatusInv (dropTurn s) := hs.congr rfl rfl rfl rfl
  rcases step_cases h with ⟨-, rfl⟩ | ⟨-, rfl⟩ | ⟨-, hctrl⟩ | ⟨i, -, -, rfl⟩
  · exact hturn
  · exact statusInv_hostStep hturn
  · exact statusInv_ctrlStep hturn hctrl
  · exact statusInv_taskStep hturn i

end Sys2Proof
end

section
/-! PROOFS. The obligations of `20_memory.md`: what the host port reads and writes, what each step keeps of the
memories and of a batch, and that the steps of different tasks commute. -/

namespace Sys2Proof

open Sys2Proof.Machine

/-! ## States that differ only in the model's own fields -/

/-- `t` is `s` but for the schedule, the pending events, the replies and the count of unspecified reads: the block,
the parameters and what unwritten bytes read as are the same. -/
def SameBlock (s t : State) : Prop :=
  ∃ e : Env, t = { s with env := e } ∧ e.resets = s.env.resets ∧ e.params = s.env.params

theorem SameBlock.refl (s : State) : SameBlock s s := ⟨s.env, rfl, rfl, rfl⟩

theorem SameBlock.trans {s t u : State} (h : SameBlock s t) (h' : SameBlock t u) : SameBlock s u := by
  obtain ⟨e, rfl, hresets, hparams⟩ := h
  obtain ⟨e', rfl, hresets', hparams'⟩ := h'
  exact ⟨e', rfl, hresets'.trans hresets, hparams'.trans hparams⟩

theorem sameBlock_dropTurn (s : State) : SameBlock s (dropTurn s) := ⟨_, rfl, rfl, rfl⟩

theorem sameBlock_dropEvent (s : State) : SameBlock s (dropEvent s) := ⟨_, rfl, rfl, rfl⟩

theorem sameBlock_hostRead (idx : Nat) (s : State) : SameBlock s (hostRead idx s) := ⟨_, rfl, rfl, rfl⟩

theorem SameBlock.ph_eq {s t : State} (h : SameBlock s t) : t.ph = s.ph := by
  obtain ⟨e, rfl, -⟩ := h; rfl

theorem SameBlock.unchanged {s t : State} (h : SameBlock s t) (w : List StateItem) : UnchangedExcept w s t := by
  obtain ⟨e, rfl, hresets, -⟩ := h
  exact unchanged_env s e hresets w

theorem SameBlock.unchanged_trans {s t u : State} {w : List StateItem} (h : SameBlock s t)
    (h' : UnchangedExcept w t u) : UnchangedExcept w s u := UnchangedExcept.trans (h.unchanged w) h'

/-! ## The steps of the agents, said once more closely -/

/-- The agent chosen without the schedule has an enabled step (R247). -/
theorem agentEnabled_of_defaultAgent? {s : State} {a : Agent} (h : defaultAgent? s = some a) :
    agentEnabled s a = true := by
  unfold defaultAgent? at h
  split at h
  · next hctrl => cases h; exact hctrl
  · split at h
    · next i hi => cases h; exact List.find?_some (p := fun i => taskEnabled i s) hi
    · split at h
      · next hhost => cases h; exact hhost
      · cases h

/-- An agent that steps has an enabled step (R247). -/
theorem agentEnabled_of_nextAgent? {s : State} {a : Agent} (h : nextAgent? s = some a) : agentEnabled s a = true := by
  unfold nextAgent? at h
  split at h
  · exact agentEnabled_of_defaultAgent? h
  · split at h
    · next henabled => cases h; exact henabled
    · exact agentEnabled_of_defaultAgent? h

/-- CTRL steps in a batch only once every task below `COUNT` is finished (R196). -/
theorem finished_of_nextAgent?_ctrl {s : State} (hph : s.ph = .batch) (h : nextAgent? s = some .ctrl) :
    ∀ i, i < s.count.toNat → taskPhase s i = .finished := by
  have hall : allFinished s = true := by simpa [agentEnabled, ctrlEnabled, hph] using agentEnabled_of_nextAgent? h
  simpa [allFinished] using hall

/-- A write to the port is ignored while `BUSY` is 1 (R70). -/
theorem hostWrite_busy {s : State} (h : s.ph ≠ .idle) (idx : Nat) (v : Block) : hostWrite idx v s = s :=
  if_pos ((busy_eq_true_iff s).mpr h)

/-- A write to the port while idle writes the register its index names (R61). -/
theorem hostWrite_idle {s : State} (h : s.ph = .idle) (idx : Nat) (v : Block) :
    hostWrite idx v s = writeReg s v (portReg s.env.params idx) := by
  rw [hostWrite, (busy_eq_false_iff s).mpr h]
  rfl

/-- The outside world leaves the block as it is, or writes to the port of an idle block, or resets it (R69, R70,
R260). -/
theorem hostStep_outcomes (s : State) :
    SameBlock s (hostStep s) ∨
    (s.ph = .idle ∧ ∃ idx v, hostStep s = hostWrite idx v (dropEvent s)) ∨
    (s.env.pending.head? = some .reset ∧ hostStep s = applyReset (dropEvent s)) := by
  rcases hostStep_cases s with ⟨-, he⟩ | ⟨idx, _, -, he⟩ | ⟨idx, v, _, -, he⟩ | ⟨_, -, he⟩ | ⟨_, hp, he⟩ <;> rw [he]
  · exact .inl (.refl s)
  · exact .inl ((sameBlock_dropEvent s).trans (sameBlock_hostRead idx _))
  · by_cases hph : s.ph = .idle
    · exact .inr (.inl ⟨hph, idx, v, rfl⟩)
    · rw [hostWrite_busy (s := dropEvent s) hph]
      exact .inl (sameBlock_dropEvent s)
  · refine .inl (SameBlock.trans ?_ (sameBlock_hostRead statusIndex _))
    split
    · exact sameBlock_dropEvent s
    · exact .refl s
  · exact .inr (.inr ⟨by rw [hp]; rfl, rfl⟩)

/-- What a step taken in a batch can do, unless it is reset: nothing to the block; the end of the batch, with every
task below `COUNT` finished; or a step of an enabled task (R70, R247). -/
theorem step_batch_cases {s t : State} (hph : s.ph = .batch) (hreset : ¬ ResetActs s) (h : step s = .next t) :
    SameBlock s t ∨
    ((∀ i, i < s.count.toNat → taskPhase s i = .finished) ∧ t = endBatch (dropTurn s)) ∨
    (∃ i, i < s.count.toNat ∧ t = taskStep i (dropTurn s)) := by
  rcases step_cases h with ⟨-, rfl⟩ | ⟨hnext, rfl⟩ | ⟨hnext, hctrl⟩ | ⟨i, -, henabled, rfl⟩
  · exact .inl (sameBlock_dropTurn s)
  · rcases hostStep_outcomes (dropTurn s) with hsame | ⟨hidle, -⟩ | ⟨hhead, -⟩
    · exact .inl ((sameBlock_dropTurn s).trans hsame)
    · rw [dropTurn_ph, hph] at hidle; cases hidle
    · exact absurd ⟨hnext, hhead⟩ hreset
  · refine .inr (.inl ⟨finished_of_nextAgent?_ctrl hph hnext, ?_⟩)
    rw [ctrlStep, dropTurn_ph, hph] at hctrl
    injection hctrl with hctrl
    exact hctrl.symm
  · obtain ⟨-, hi, -⟩ := (taskEnabled_iff i s).mp henabled
    exact .inr (.inr ⟨i, hi, rfl⟩)

/-! ## The step of a task as a function of what it reads (R174 to R177) -/

/-- The task state that a step leaves of task state `t`, under bank `sk`, for the block `b` of `IN` (R175 to R177). -/
def advanceTask (sk : Bank) (b : Block) (t : Task) : Task :=
  match t.ts with
  | .idle => t
  | .pending => { ts := .running, l := (ipSplit b).1, r := (ipSplit b).2, rnd := 0 }
  | .running =>
    if h : t.rnd.val < 16 then
      { ts := .running, l := t.r, r := calculateR t.l t.r sk[t.rnd.val], rnd := ⟨t.rnd.val + 1, by omega⟩ }
    else { t with ts := .finished }
  | .finished => t

/-- A memory with entry `i` written whole, as a list (R64). -/
def storeEntry (m : Memory) (i : Nat) (v : Block) : Memory :=
  (List.finRange 8).foldl (fun m j => storeCell m (byteAddr i j) (byteOf v j)) m

/-- What a step of task `i` in state `t` leaves of `OUT`: the result stored, when the rounds are done (R177). -/
def storeResult (i : Nat) (t : Task) (m : Memory) : Memory :=
  if t.ts = .running ∧ t.rnd.val = 16 then storeEntry m i (finalPermutation (t.l, t.r)) else m

theorem outArr_writeEntry_output (s : State) (i : Nat) (v : Block) :
    (writeEntry s .output i v).outArr = storeEntry s.outArr i v := by
  rw [writeEntry, writeEntryBytes_eq_withArray]
  rfl

theorem outArr_taskStore (i : Nat) (t : Task) (s : State) :
    (taskStore i t s).outArr = storeEntry s.outArr i (finalPermutation (t.l, t.r)) := by
  rw [← outArr_writeEntry_output, taskStore]

/-- A task reads its own state, its own entry of `IN` and the bank, and writes no other task's state (R174). -/
theorem taskOf_taskStep (i j : Nat) (s : State) :
    taskOf (taskStep i s).tasks j =
      if i = j then advanceTask s.sk (readEntry s .input i) (taskOf s.tasks i) else taskOf s.tasks j := by
  rcases taskStep_cases i s with ⟨hts | hts, he⟩ | ⟨hts, he⟩ | ⟨hrnd, hts, he⟩ | ⟨hrnd, hts, he⟩ <;>
    rw [he, advanceTask, hts]
  · split <;> simp_all
  · split <;> simp_all
  · rw [taskLoad_tasks, taskOf_setTask]
  · rw [taskRound_tasks, taskOf_setTask]
    simp only [hrnd, dite_true]
  · rw [taskStore_tasks, taskOf_setTask]
    simp [hrnd]

theorem outArr_taskStep (i : Nat) (s : State) :
    (taskStep i s).outArr = storeResult i (taskOf s.tasks i) s.outArr := by
  rcases taskStep_cases i s with ⟨hts | hts, he⟩ | ⟨hts, he⟩ | ⟨hrnd, hts, he⟩ | ⟨hrnd, hts, he⟩ <;>
    rw [he, storeResult, hts]
  · simp
  · simp
  · simp
  · rw [if_neg (by omega), taskRound_outArr]
  · rw [if_pos ⟨rfl, hrnd⟩, outArr_taskStore]

/-- A task's step keeps the canonical form of the task states. -/
theorem taskStep_tasks_wf (i : Nat) {s : State} (h : s.tasks.wf) : (taskStep i s).tasks.wf := by
  rcases taskStep_cases i s with ⟨-, he⟩ | ⟨-, he⟩ | ⟨_, -, he⟩ | ⟨-, -, he⟩ <;> rw [he]
  · exact h
  · rw [taskLoad_tasks]; exact setTask_wf _ _ _ h
  · rw [taskRound_tasks]; exact setTask_wf _ _ _ h
  · rw [taskStore_tasks]; exact setTask_wf _ _ _ h

/-- From canonical task states, the whole effect of a task's step. -/
theorem taskStep_eq (i : Nat) {s : State} (h : s.tasks.wf) :
    taskStep i s = { s with
      tasks := setTask s.tasks i (advanceTask s.sk (readEntry s .input i) (taskOf s.tasks i))
      outArr := storeResult i (taskOf s.tasks i) s.outArr } := by
  have htasks : (taskStep i s).tasks =
      setTask s.tasks i (advanceTask s.sk (readEntry s .input i) (taskOf s.tasks i)) :=
    taskBank_ext (taskStep_tasks_wf i h) (setTask_wf _ _ _ h) fun j => by rw [taskOf_taskStep, taskOf_setTask]
  rw [taskStep_frame, htasks, outArr_taskStep]

/-! ## The steps of different tasks commute (R74) -/

/-- Stores under different keys commute. -/
theorem storeCell_comm {α : Type} (m : List (Nat × α)) {k k' : Nat} (h : k ≠ k') (v v' : α) :
    storeCell (storeCell m k v) k' v' = storeCell (storeCell m k' v') k v := by
  induction m with
  | nil => grind [storeCell]
  | cons e m ih => grind [storeCell]

/-- Writes of different entries commute (R64). -/
theorem storeEntry_comm (m : Memory) {i j : Nat} (h : i ≠ j) (v w : Block) :
    storeEntry (storeEntry m i v) j w = storeEntry (storeEntry m j w) i v := by
  have hne : ∀ a b : Fin 8, byteAddr i a ≠ byteAddr j b := by
    intro a b; unfold byteAddr; omega
  have hcell : ∀ (m : Memory) (b : Fin 8), storeEntry (storeCell m (byteAddr j b) (byteOf w b)) i v =
      storeCell (storeEntry m i v) (byteAddr j b) (byteOf w b) := fun m b =>
    List.foldl_hom (fun m => storeCell m (byteAddr j b) (byteOf w b)) fun m a => storeCell_comm m (hne a b).symm _ _
  exact List.foldl_hom (fun m => storeEntry m i v) fun m b => (hcell m b).symm

theorem storeResult_comm (m : Memory) {i j : Nat} (h : i ≠ j) (t u : Task) :
    storeResult i t (storeResult j u m) = storeResult j u (storeResult i t m) := by
  unfold storeResult
  split
  · split
    · exact storeEntry_comm m h.symm _ _
    · rfl
  · rfl

/-- Writes of different tasks' states commute, from canonical task states. -/
theorem setTask_comm {m : TaskBank} (hm : m.wf) {i j : Nat} (h : i ≠ j) (t u : Task) :
    setTask (setTask m j u) i t = setTask (setTask m i t) j u := by
  refine taskBank_ext (setTask_wf _ _ _ (setTask_wf _ _ _ hm)) (setTask_wf _ _ _ (setTask_wf _ _ _ hm)) fun k => ?_
  simp only [taskOf_setTask]
  grind

/-- Settles O44: a task's step reads nothing that another's writes, and their writes commute. -/
theorem taskStepsCommute : Obligations.TaskStepsCommute := by
  intro s i j hs h
  have hi := taskStep_tasks_wf i hs.tasks_wf
  have hj := taskStep_tasks_wf j hs.tasks_wf
  rw [taskStep_eq i hj, taskStep_eq j hi, taskStep_eq i hs.tasks_wf, taskStep_eq j hs.tasks_wf]
  have hti : ∀ t, taskOf (setTask s.tasks j t) i = taskOf s.tasks i := fun t => by rw [taskOf_setTask, if_neg h.symm]
  have htj : ∀ t, taskOf (setTask s.tasks i t) j = taskOf s.tasks j := fun t => by rw [taskOf_setTask, if_neg h]
  simp only [hti, htj, storeResult_comm _ h]
  rw [setTask_comm hs.tasks_wf h]
  rfl

/-! ## The canonical form of the memories and the task states (R64, R232, R233) -/

/-- The invariant, array by array. -/
theorem storageInv_iff (s : State) : StorageInv s ↔
    (∀ a, (arrayOf s a).wf ∧ ∀ e ∈ arrayOf s a, e.1 < 8 * s.env.params.maxBlocks) ∧
    s.tasks.wf ∧ ∀ e ∈ s.tasks, e.1 < s.env.params.maxBlocks := by
  constructor
  · intro h
    refine ⟨fun a => ?_, h.tasks_wf, h.tasks_bound⟩
    cases a with
    | input => exact ⟨h.input_wf, h.input_bound⟩
    | output => exact ⟨h.output_wf, h.output_bound⟩
  · rintro ⟨harr, htasks, htasksBound⟩
    exact ⟨(harr .input).1, (harr .output).1, htasks, (harr .input).2, (harr .output).2, htasksBound⟩

/-- The invariant reads the memories, the task states and the parameters alone. -/
theorem StorageInv.congr {s t : State} (h : StorageInv s) (hin : t.inArr = s.inArr) (hout : t.outArr = s.outArr)
    (htasks : t.tasks = s.tasks) (hparams : t.env.params = s.env.params) : StorageInv t := by
  constructor <;> simp only [hin, hout, htasks, hparams]
  exacts [h.input_wf, h.output_wf, h.tasks_wf, h.input_bound, h.output_bound, h.tasks_bound]

theorem SameBlock.storageInv {s t : State} (h : SameBlock s t) (hs : StorageInv s) : StorageInv t := by
  obtain ⟨e, rfl, -, hparams⟩ := h
  exact hs.congr rfl rfl rfl hparams

/-- Writing bytes of an entry inside the arrays keeps the invariant (R64). -/
theorem storageInv_writeEntryBytes {s : State} (h : StorageInv s) (a : BlockArray) {i : Nat}
    (hi : i < s.env.params.maxBlocks) (f : Fin 8 → Byte) (js : List (Fin 8)) :
    StorageInv (writeEntryBytes s a i f js) := by
  obtain ⟨harr, htasks, htasksBound⟩ := (storageInv_iff s).mp h
  rw [storageInv_iff, writeEntryBytes_env, writeEntryBytes_tasks]
  refine ⟨fun a' => ⟨writeEntryBytes_wf s a a' i f js (harr a').1, fun e he => ?_⟩, htasks, htasksBound⟩
  rcases mem_writeEntryBytes s a a' i f js e he with hmem | ⟨-, j, hj⟩
  · exact (harr a').2 e hmem
  · rw [hj, byteAddr]; omega

theorem storageInv_writeEntry {s : State} (h : StorageInv s) (a : BlockArray) {i : Nat}
    (hi : i < s.env.params.maxBlocks) (v : Block) : StorageInv (writeEntry s a i v) :=
  storageInv_writeEntryBytes h a hi _ _

/-- Writing the state of a task inside the arrays keeps the invariant. -/
theorem storageInv_setTask {s : State} (h : StorageInv s) {i : Nat} (hi : i < s.env.params.maxBlocks) (t : Task) :
    StorageInv { s with tasks := setTask s.tasks i t } :=
  { h with
    tasks_wf := setTask_wf _ _ _ h.tasks_wf
    tasks_bound := fun e he => by
      rcases mem_setTask _ _ _ _ he with hmem | hkey
      · exact h.tasks_bound e hmem
      · exact hkey ▸ hi }

/-- Setting the phase of the tasks below `COUNT` keeps the invariant when `COUNT` is legal (R193, R196, R233). -/
theorem storageInv_setPhaseBelow {s : State} (h : StorageInv s) (hcount : CountLegal s) (p : TaskPhase) :
    StorageInv { s with tasks := setPhaseBelow s.tasks p s.count.toNat } :=
  { h with
    tasks_wf := setPhaseBelow_wf _ _ _ h.tasks_wf
    tasks_bound := fun e he => by
      rcases mem_setPhaseBelow _ _ _ _ he with hmem | hlt
      · exact h.tasks_bound e hmem
      · exact hlt.trans_le hcount.2 }

theorem storageInv_exec {i : Instr} {s t : State} (hs : StorageInv s) (h : exec i s = .next t) : StorageInv t := by
  rcases exec_cases h with ⟨e, rfl⟩ | ⟨-, rfl⟩ | ⟨dir, hcount, rfl⟩ | ⟨_, _, _, _, _, _, rfl, -⟩ | ⟨n, hcount, rfl⟩
  · exact hs.congr rfl rfl rfl rfl
  · exact hs.congr rfl rfl rfl rfl
  · exact (storageInv_setPhaseBelow hs hcount .pending).congr rfl rfl rfl rfl
  · exact hs.congr rfl rfl rfl rfl
  · exact (storageInv_writeEntryBytes hs .input (lastIndex_lt s hcount) _ _).congr rfl rfl rfl rfl

theorem storageInv_ctrlStep {s t : State} (hs : StorageInv s) (hbatch : BatchInv s) (h : ctrlStep s = .next t) :
    StorageInv t := by
  rcases ctrlStep_cases h with ⟨-, rfl⟩ | ⟨hph, rfl⟩ | ⟨-, ⟨-, rfl⟩ | ⟨i, -, hexec⟩⟩
  · exact hs
  · exact (storageInv_setPhaseBelow hs (hbatch.count_legal hph) .idle).congr rfl rfl rfl rfl
  · exact hs.congr rfl rfl rfl rfl
  · exact storageInv_exec hs hexec

theorem storageInv_taskStore {s : State} (h : StorageInv s) {i : Nat} (hi : i < s.env.params.maxBlocks) (t : Task) :
    StorageInv (taskStore i t s) := by
  have hstored := storageInv_writeEntry h .output hi (finalPermutation (t.l, t.r))
  have hset := storageInv_setTask hstored (i := i) (by rwa [writeEntry_env]) { t with ts := .finished }
  rw [writeEntry_tasks] at hset
  exact hset

theorem storageInv_taskStep {s : State} (h : StorageInv s) {i : Nat} (hi : i < s.env.params.maxBlocks) :
    StorageInv (taskStep i s) := by
  rcases taskStep_cases i s with ⟨-, he⟩ | ⟨-, he⟩ | ⟨_, -, he⟩ | ⟨-, -, he⟩ <;> rw [he]
  · exact h
  · exact storageInv_setTask h hi _
  · exact storageInv_setTask h hi _
  · exact storageInv_taskStore h hi _

theorem storageInv_hostWrite {s : State} (h : StorageInv s) (idx : Nat) (v : Block) :
    StorageInv (hostWrite idx v s) := by
  rcases hostWrite_cases idx v s with he | ⟨-, -, he⟩ | ⟨-, _, _, _, _, he⟩ | ⟨-, i, hi, he⟩ <;> rw [he]
  · exact h
  · exact h.congr rfl rfl rfl rfl
  · exact h.congr rfl rfl rfl rfl
  · exact storageInv_writeEntry h .input hi v

/-- Reset leaves nothing listed, whatever the parameters are (R44). -/
theorem storageInv_applyReset (s : State) : StorageInv (applyReset s) :=
  { storageInv_reset with
    input_bound := by simp [applyReset, State.reset]
    output_bound := by simp [applyReset, State.reset]
    tasks_bound := by simp [applyReset, State.reset] }

theorem storageInv_hostStep {s : State} (h : StorageInv s) : StorageInv (hostStep s) := by
  rcases hostStep_outcomes s with hsame | ⟨-, idx, v, he⟩ | ⟨-, he⟩
  · exact hsame.storageInv h
  · rw [he]; exact storageInv_hostWrite ((sameBlock_dropEvent s).storageInv h) idx v
  · rw [he]; exact storageInv_applyReset _

/-! ## The invariant of a batch (R73, R74, R175 to R178, R193, R196) -/

/-- Where a task stands is a matter of its own state, the bank, and its own entries of `IN` and `OUT` (R174). -/
theorem TaskOnTrack.congr {s t : State} {i : Nat} (h : TaskOnTrack s i) (htask : taskOf t.tasks i = taskOf s.tasks i)
    (hsk : t.sk = s.sk) (hin : readEntry t .input i = readEntry s .input i)
    (hout : readEntry t .output i = readEntry s .output i) : TaskOnTrack t i := by
  unfold TaskOnTrack
  rw [htask, hsk, hin, hout]
  exact h

theorem taskOnTrack_of_pending {s : State} {i : Nat} (hts : (taskOf s.tasks i).ts = .pending) : TaskOnTrack s i := by
  simp only [TaskOnTrack, hts]

theorem taskOnTrack_running_iff {s : State} {i : Nat} (hts : (taskOf s.tasks i).ts = .running) :
    TaskOnTrack s i ↔ ((taskOf s.tasks i).l, (taskOf s.tasks i).r) =
      roundsAfter s.sk (readEntry s .input i) (taskOf s.tasks i).rnd.val := by
  simp only [TaskOnTrack, hts]

theorem taskOnTrack_finished_iff {s : State} {i : Nat} (hts : (taskOf s.tasks i).ts = .finished) :
    TaskOnTrack s i ↔ (taskOf s.tasks i).rnd.val = 16 ∧
      ((taskOf s.tasks i).l, (taskOf s.tasks i).r) = roundsAfter s.sk (readEntry s .input i) 16 ∧
      readEntry s .output i = desBlock s.sk (readEntry s .input i) := by
  simp only [TaskOnTrack, hts]

/-- Outside a batch the invariant says that every task is idle. -/
theorem batchInv_of_not_batch {s : State} (hph : s.ph ≠ .batch) (h : ∀ i, taskPhase s i = .idle) : BatchInv s :=
  ⟨fun _ => h, fun hb => absurd hb hph, fun hb => absurd hb hph, fun hb => absurd hb hph, fun hb => absurd hb hph⟩

/-- Between states outside a batch the invariant reads the task states alone. -/
theorem BatchInv.outside {s t : State} (h : BatchInv s) (hs : s.ph ≠ .batch) (ht : t.ph ≠ .batch)
    (htasks : t.tasks = s.tasks) : BatchInv t := by
  refine batchInv_of_not_batch ht fun i => ?_
  rw [taskPhase, htasks]
  exact h.idle_outside hs i

theorem SameBlock.batchInv {s t : State} (h : SameBlock s t) (hs : BatchInv s) : BatchInv t := by
  obtain ⟨e, rfl, hresets, hparams⟩ := h
  refine ⟨hs.idle_outside, fun hph => ?_, hs.bank, fun hph i hi => ?_, hs.idle_above⟩
  · exact ⟨(hs.count_legal hph).1, hparams ▸ (hs.count_legal hph).2⟩
  · have hread : ∀ a, readEntry { s with env := e } a i = readEntry s a i := fun a =>
      readEntry_congr (by cases a <;> rfl) hresets i
    exact (hs.on_track hph i hi).congr rfl rfl (hread .input) (hread .output)

/-- The start of a batch gives the invariant: the bank is loaded and exactly the tasks below `COUNT` are pending
(R193). -/
theorem batchInv_start {s : State} (hs : BatchInv s) (hph : s.ph ≠ .batch) (hcount : CountLegal s) (dir : Direction) :
    BatchInv { loadBank s dir with tasks := setPhaseBelow s.tasks .pending s.count.toNat, ph := .batch } where
  idle_outside := fun h => absurd rfl h
  count_legal := fun _ => hcount
  bank := fun _ => ⟨rfl, by cases dir <;> rfl⟩
  on_track := fun _ i hi => by
    have htask : (taskOf (setPhaseBelow s.tasks .pending s.count.toNat) i).ts = .pending := by
      rw [taskOf_setPhaseBelow]
      exact congrArg Task.ts (if_pos hi)
    exact taskOnTrack_of_pending htask
  idle_above := fun _ i hi => by
    have htask : taskOf (setPhaseBelow s.tasks .pending s.count.toNat) i = taskOf s.tasks i := by
      rw [taskOf_setPhaseBelow]
      exact if_neg (Nat.not_lt.mpr hi)
    rw [taskPhase, htask]
    exact hs.idle_outside hph i

/-- The end of a batch leaves every task idle (R196). -/
theorem batchInv_endBatch {s : State} (hs : BatchInv s) (hph : s.ph = .batch) : BatchInv (endBatch s) := by
  refine batchInv_of_not_batch (by simp) fun i => ?_
  rw [taskPhase, endBatch_tasks, taskOf_setPhaseBelow]
  split
  · rfl
  · next hi => exact hs.idle_above hph i (Nat.not_lt.mp hi)

theorem batchInv_exec {i : Instr} {s t : State} (hs : BatchInv s) (hph : s.ph ≠ .batch)
    (h : exec i s = .next t) : BatchInv t := by
  rcases exec_cases h with ⟨e, rfl⟩ | ⟨-, rfl⟩ | ⟨dir, hcount, rfl⟩ | ⟨_, _, _, _, _, _, rfl, -⟩ | ⟨n, -, rfl⟩
  · exact hs.outside hph (by simp) rfl
  · exact hs.outside hph (by simp) rfl
  · exact batchInv_start hs hph hcount dir
  · exact hs.outside hph (by simp) rfl
  · exact hs.outside hph (by simp) (writePad_tasks _ _ _)

theorem batchInv_ctrlStep {s t : State} (hs : BatchInv s) (h : ctrlStep s = .next t) : BatchInv t := by
  rcases ctrlStep_cases h with ⟨-, rfl⟩ | ⟨hph, rfl⟩ | ⟨hph, ⟨-, rfl⟩ | ⟨i, -, hexec⟩⟩
  · exact hs
  · exact batchInv_endBatch hs hph
  · exact hs.outside (by simp [hph]) (by simp) rfl
  · exact batchInv_exec hs (by simp [hph]) hexec

/-- A write to the port of an idle block starts no batch and touches no task (R61). -/
theorem batchInv_hostWrite {s : State} (hs : BatchInv s) (hph : s.ph = .idle) (idx : Nat) (v : Block) :
    BatchInv (hostWrite idx v s) := by
  have hout : s.ph ≠ .batch := by simp [hph]
  rcases hostWrite_cases idx v s with he | ⟨-, -, he⟩ | ⟨-, _, _, _, _, he⟩ | ⟨-, i, -, he⟩ <;> rw [he]
  · exact hs
  · exact hs.outside hout (by simp) rfl
  · exact hs.outside hout hout rfl
  · exact hs.outside hout (by simp [hph]) (writeEntry_tasks _ _ _ _)

theorem batchInv_hostStep {s : State} (hs : BatchInv s) : BatchInv (hostStep s) := by
  rcases hostStep_outcomes s with hsame | ⟨hph, idx, v, he⟩ | ⟨-, he⟩
  · exact hsame.batchInv hs
  · rw [he]; exact batchInv_hostWrite ((sameBlock_dropEvent s).batchInv hs) hph idx v
  · rw [he]; exact batchInv_of_not_batch nofun fun _ => rfl

/-! ### The step of a task keeps every task on track -/

/-- A task writes no entry of `IN` (R73). -/
theorem readEntry_input_taskStep (i : Nat) (s : State) (k : Nat) :
    readEntry (taskStep i s) .input k = readEntry s .input k := by
  rw [taskStep_frame]
  rfl

/-- A task writes no other task's entry of `OUT` (R74). -/
theorem readEntry_output_taskStep {i j : Nat} (h : i ≠ j) (s : State) :
    readEntry (taskStep i s) .output j = readEntry s .output j := by
  rcases taskStep_cases i s with ⟨-, he⟩ | ⟨-, he⟩ | ⟨_, -, he⟩ | ⟨-, -, he⟩ <;> rw [he]
  · rfl
  · rfl
  · rw [readEntry_taskStore, readEntry_writeEntry, if_neg (by simp [h])]

theorem sk_taskStep (i : Nat) (s : State) : (taskStep i s).sk = s.sk := by
  rw [taskStep_frame]

/-- Another task's step leaves a task where it stands (R74). -/
theorem TaskOnTrack.other {s : State} {i j : Nat} (h : TaskOnTrack s j) (hij : i ≠ j) : TaskOnTrack (taskStep i s) j :=
  h.congr (by rw [taskOf_taskStep, if_neg hij]) (sk_taskStep i s) (readEntry_input_taskStep i s j)
    (readEntry_output_taskStep hij s)

/-- A task's own step moves it along: a load gives the halves after no round, a round those after one more, and the
store puts what the sixteenth gives through the final permutation (R175 to R178). -/
theorem TaskOnTrack.own {s : State} {i : Nat} (h : TaskOnTrack s i) : TaskOnTrack (taskStep i s) i := by
  rcases taskStep_cases i s with ⟨-, he⟩ | ⟨-, he⟩ | ⟨hrnd, hts, he⟩ | ⟨hrnd, hts, he⟩ <;> rw [he]
  · exact h
  · have htask : taskOf (taskLoad i s).tasks i =
        { ts := .running, l := (ipSplit (readEntry s .input i)).1,
          r := (ipSplit (readEntry s .input i)).2, rnd := 0 } := by
      rw [taskLoad_tasks, taskOf_setTask, if_pos rfl]
    rw [taskOnTrack_running_iff (by rw [htask]), htask]
    exact (roundsAfter_zero _ _).symm
  · have htask : taskOf (taskRound i (taskOf s.tasks i) hrnd s).tasks i =
        { ts := .running, l := (taskOf s.tasks i).r,
          r := calculateR (taskOf s.tasks i).l (taskOf s.tasks i).r s.sk[(taskOf s.tasks i).rnd.val],
          rnd := ⟨(taskOf s.tasks i).rnd.val + 1, by omega⟩ } := by
      rw [taskRound_tasks, taskOf_setTask, if_pos rfl]
    have hnext := roundsAfter_succ s.sk (readEntry s .input i) ⟨_, hrnd⟩
    rw [← (taskOnTrack_running_iff hts).mp h] at hnext
    rw [taskOnTrack_running_iff (by rw [htask]), htask]
    exact hnext.symm
  · have htask : taskOf (taskStore i (taskOf s.tasks i) s).tasks i = { taskOf s.tasks i with ts := .finished } := by
      rw [taskStore_tasks, taskOf_setTask, if_pos rfl]
    have hlast := (taskOnTrack_running_iff hts).mp h
    rw [hrnd] at hlast
    have hin : readEntry (taskStore i (taskOf s.tasks i) s) .input i = readEntry s .input i := by
      rw [← he, readEntry_input_taskStep]
    rw [taskOnTrack_finished_iff (by rw [htask]), htask, taskStore_sk, hin]
    refine ⟨hrnd, hlast, ?_⟩
    rw [readEntry_taskStore, readEntry_writeEntry, if_pos ⟨rfl, rfl⟩, hlast, desBlock]

theorem batchInv_taskStep {s : State} (hs : BatchInv s) (hph : s.ph = .batch) {i : Nat} (hi : i < s.count.toNat) :
    BatchInv (taskStep i s) := by
  rw [taskStep_frame]
  refine ⟨fun h => absurd hph h, fun _ => hs.count_legal hph, fun _ => hs.bank hph, fun _ j hj => ?_, fun _ j hj => ?_⟩
  · rw [← taskStep_frame]
    by_cases hij : i = j
    · exact hij ▸ (hs.on_track hph i hi).own
    · exact (hs.on_track hph j hj).other hij
  · have hne : i ≠ j := (hi.trans_le hj).ne
    show (taskOf (taskStep i s).tasks j).ts = .idle
    rw [taskOf_taskStep, if_neg hne]
    exact hs.idle_above hph j hj

/-! ## Every step keeps the two invariants -/

/-- Settles O56, by the agent that steps. -/
theorem stepKeepsStorageInv : Obligations.StepKeepsStorageInv := by
  intro s t hs hb h
  have hturn := (sameBlock_dropTurn s).storageInv hs
  have hbturn := (sameBlock_dropTurn s).batchInv hb
  rcases step_cases h with ⟨-, rfl⟩ | ⟨-, rfl⟩ | ⟨-, hctrl⟩ | ⟨i, -, henabled, rfl⟩
  · exact hturn
  · exact storageInv_hostStep hturn
  · exact storageInv_ctrlStep hturn hbturn hctrl
  · obtain ⟨hph, hi, -⟩ := (taskEnabled_iff i s).mp henabled
    exact storageInv_taskStep hturn (hi.trans_le (hb.count_legal hph).2)

/-- Settles O57, by the agent that steps. -/
theorem stepKeepsBatchInv : Obligations.StepKeepsBatchInv := by
  intro s t hs h
  have hturn := (sameBlock_dropTurn s).batchInv hs
  rcases step_cases h with ⟨-, rfl⟩ | ⟨-, rfl⟩ | ⟨-, hctrl⟩ | ⟨i, -, henabled, rfl⟩
  · exact hturn
  · exact batchInv_hostStep hturn
  · exact batchInv_ctrlStep hturn hctrl
  · obtain ⟨hph, hi, -⟩ := (taskEnabled_iff i s).mp henabled
    exact batchInv_taskStep hturn hph hi

/-! ## The end of a batch (R70, R73, R75, R178, R196) -/

/-- A finished task's result is in `OUT` (R178). -/
theorem BatchInv.result {s : State} (hs : BatchInv s) (hph : s.ph = .batch) {i : Nat} (hi : i < s.count.toNat)
    (hfin : taskPhase s i = .finished) :
    readEntry s .output i = desBlock (bankOf s.key (bankDirection s)) (readEntry s .input i) := by
  obtain ⟨-, -, hresult⟩ := (taskOnTrack_finished_iff hfin).mp (hs.on_track hph i hi)
  rw [hresult, (hs.bank hph).2]

/-- Settles O48: only the end of the batch leaves `BATCH`, and it comes once every task is finished. -/
theorem batchEndsWithEveryResult : Obligations.BatchEndsWithEveryResult := by
  intro s t hs hph hreset h hend
  rcases step_batch_cases hph hreset h with hsame | ⟨hfin, rfl⟩ | ⟨i, -, rfl⟩
  · exact absurd (hsame.ph_eq.trans hph) hend
  · refine ⟨rfl, (hs.bank hph).2, fun i hi => ?_⟩
    have hread : readEntry (endBatch (dropTurn s)) .output i = readEntry s .output i := rfl
    rw [hread]
    exact hs.result hph hi (hfin i hi)
  · rw [taskStep_frame] at hend
    exact absurd hph hend

/-- A task writes task states and `OUT` alone (R73, R174). -/
theorem taskStep_unchanged (i : Nat) (s : State) : UnchangedExcept [.tasks, .output] s (taskStep i s) := by
  rw [taskStep_frame]
  intro x hx
  cases x <;> simp_all [SameItem]
  intro addr
  rfl

/-- The end of a batch writes task states, `PH` and `DONE` alone (R196). -/
theorem endBatch_unchanged (s : State) : UnchangedExcept [.tasks, .ph, .done] s (endBatch s) := by
  intro x hx
  cases x <;> simp_all [SameItem] <;> intro addr <;> rfl

/-- Settles O47, by what a step of a batch can do. -/
theorem bankConstantDuringBatch : Obligations.BankConstantDuringBatch := by
  intro s t hph hreset h
  have hturn := sameBlock_dropTurn s
  rcases step_batch_cases hph hreset h with hsame | ⟨-, rfl⟩ | ⟨i, -, rfl⟩
  · exact hsame.unchanged _
  · exact hturn.unchanged_trans (UnchangedExcept.mono (endBatch_unchanged _) (by simp))
  · exact hturn.unchanged_trans (UnchangedExcept.mono (taskStep_unchanged i _) (by simp))

/-! ## The host port (R60, R61, R69, R70, R79) -/

/-- The block as the step of a host event finds it: the turn and the event are used up. -/
def atEvent (s : State) : State := dropEvent (dropTurn s)

theorem sameBlock_atEvent (s : State) : SameBlock s (atEvent s) :=
  (sameBlock_dropTurn s).trans (sameBlock_dropEvent _)

theorem step_of_hostActs_read {s : State} {idx : Nat} (h : HostActs (.read idx) s) :
    step s = .next (hostRead idx (atEvent s)) := by
  obtain ⟨r, hp⟩ := List.head?_eq_some_iff.mp h.2
  rw [step_of_nextAgent h.1, agentStep, hostStep, dropTurn_env, hp]
  rfl

theorem step_of_hostActs_write {s : State} {idx : Nat} {v : Block} (h : HostActs (.write idx v) s) :
    step s = .next (hostWrite idx v (atEvent s)) := by
  obtain ⟨r, hp⟩ := List.head?_eq_some_iff.mp h.2
  rw [step_of_nextAgent h.1, agentStep, hostStep, dropTurn_env, hp]
  rfl

/-- A poll of `WAIT` reads `STATUS`, and is the last one when `DONE` is 1 (R103). -/
theorem step_of_hostActs_wait {s : State} (h : HostActs .wait s) :
    step s = .next (hostRead statusIndex (if s.done then atEvent s else dropTurn s)) := by
  obtain ⟨r, hp⟩ := List.head?_eq_some_iff.mp h.2
  rw [step_of_nextAgent h.1, agentStep, hostStep, dropTurn_env, hp]
  rfl

/-- A read of the port depends on the block, the parameters and the count of unspecified reads alone. -/
theorem SameBlock.portRead_eq {s t : State} (h : SameBlock s t) (hany : t.env.anyReads = s.env.anyReads) (idx : Nat) :
    portRead t idx = portRead s idx := by
  obtain ⟨e, rfl, hresets, hparams⟩ := h
  have hread : ∀ a i, readEntry { s with env := e } a i = readEntry s a i := fun a i =>
    readEntry_congr (by cases a <;> rfl) hresets i
  have hreg : ∀ r, readReg { s with env := e } r = readReg s r := by
    intro r
    cases r with
    | input i => exact hread .input i
    | output i => exact hread .output i
    | _ => rfl
  have hisAny : readIsAny { s with env := e } idx = readIsAny s idx := rfl
  simp only [portRead, hreg, hparams, hisAny]
  rw [hany]

/-- While idle a read returns the register its index names (R61). -/
theorem portRead_idle {s : State} (h : s.ph = .idle) (idx : Nat) :
    portRead s idx = readReg s (portReg s.env.params idx) := by
  rw [portRead, readIsAny, (busy_eq_false_iff s).mpr h]
  rfl

/-- While busy a read of `STATUS` returns the view (R70). -/
theorem portRead_status (s : State) : portRead s statusIndex = zext64 (statusWord s) := by
  simp [portRead, readIsAny, portReg, cmdIndex, statusIndex, readReg]

theorem readIsAny_busy {s : State} (h : s.ph ≠ .idle) {idx : Nat} (hidx : idx ≠ statusIndex) :
    readIsAny s idx = true := by
  simp [readIsAny, (busy_eq_true_iff s).mpr h, hidx]

/-- While busy a read of any other index returns the free value (R70, U2). -/
theorem portRead_busy {s : State} (h : s.ph ≠ .idle) {idx : Nat} (hidx : idx ≠ statusIndex) :
    portRead s idx = Config.busyRead s.env.anyReads := by
  rw [portRead, if_pos (readIsAny_busy h hidx)]

/-- Settles O13, index by index. -/
theorem hostReadReturns : Obligations.HostReadReturns := by
  intro s hph
  simp only [portRead_idle hph]
  refine ⟨rfl, rfl, rfl, rfl, rfl, rfl, rfl, rfl, fun k => ?_, fun i hi => ?_, fun i hi => ?_⟩
  · exact congrArg (readReg s) (portReg_sk s.env.params k)
  · exact congrArg (readReg s) (portReg_input s.env.params i hi)
  · exact congrArg (readReg s) (portReg_output s.env.params i hi)

/-- A read in a state with the same block leaves the block and returns what the port holds (R69). -/
theorem SameBlock.read {s t : State} (h : SameBlock s t) (hseen : t.env.seen = s.env.seen)
    (hany : t.env.anyReads = s.env.anyReads) (idx : Nat) :
    UnchangedExcept [] s (hostRead idx t) ∧ (hostRead idx t).env.seen = ⟨idx, portRead s idx⟩ :: s.env.seen := by
  refine ⟨(h.trans (sameBlock_hostRead idx t)).unchanged [], ?_⟩
  rw [hostRead_env, h.portRead_eq hany, hseen]

/-- Settles O14: a read, or a poll of `WAIT`, is a read of the block as it stands. -/
theorem hostReadHasNoSideEffect : Obligations.HostReadHasNoSideEffect := by
  rintro s idx (h | ⟨h, rfl⟩)
  · exact ⟨_, step_of_hostActs_read h, (sameBlock_atEvent s).read rfl rfl idx⟩
  · refine ⟨_, step_of_hostActs_wait h, ?_⟩
    split
    · exact (sameBlock_atEvent s).read rfl rfl 1
    · exact (sameBlock_dropTurn s).read rfl rfl 1

/-- A write to the port of a busy block leaves it (R70). -/
theorem step_write_busy {s : State} (hph : s.ph ≠ .idle) {idx : Nat} {v : Block} (h : HostActs (.write idx v) s) :
    step s = .next (atEvent s) := by
  rw [step_of_hostActs_write h]
  exact congrArg _ (hostWrite_busy (s := atEvent s) hph idx v)

/-- A write to the port of an idle block writes the register its index names (R61). -/
theorem step_write_idle {s : State} (hph : s.ph = .idle) {idx : Nat} {v : Block} (h : HostActs (.write idx v) s) :
    step s = .next (writeReg (atEvent s) v (portReg s.env.params idx)) := by
  rw [step_of_hostActs_write h]
  exact congrArg _ (hostWrite_idle (s := atEvent s) hph idx v)

/-- Settles O15, by the kind of access. -/
theorem hostAccessWhileBusy : Obligations.HostAccessWhileBusy := by
  intro s hph
  refine ⟨fun h => ?_, fun idx hidx h => ?_, fun idx v h => ?_⟩
  · obtain ⟨hsame, hseen⟩ := (sameBlock_atEvent s).read rfl rfl statusIndex
    rw [portRead_status] at hseen
    exact ⟨_, step_of_hostActs_read h, hsame, hseen⟩
  · obtain ⟨hsame, hseen⟩ := (sameBlock_atEvent s).read rfl rfl idx
    rw [portRead_busy hph hidx] at hseen
    refine ⟨_, step_of_hostActs_read h, hsame, hseen, ?_⟩
    rw [hostRead_env, readIsAny_busy (s := atEvent s) hph hidx]
    rfl
  · exact ⟨_, step_write_busy hph h, (sameBlock_atEvent s).unchanged []⟩

/-! ### What a write stores -/

/-- A write of the operand registers changes those whose value is not the one they held. -/
theorem unchanged_setOperands (s : State) {w : List StateItem} {key opa opb : Block} {count : BitVec 32}
    (hkey : .key ∈ w ∨ key = s.key) (hcount : .count ∈ w ∨ count = s.count) (hopa : .opa ∈ w ∨ opa = s.opa)
    (hopb : .opb ∈ w ∨ opb = s.opb) :
    UnchangedExcept w s { s with key := key, count := count, opa := opa, opb := opb } := by
  intro x hx
  cases x <;> simp_all [SameItem] <;> intro addr <;> rfl

/-- A write of an entry of `IN` changes `IN` alone (R64). -/
theorem unchanged_writeEntry_input (s : State) (i : Nat) (v : Block) :
    UnchangedExcept [.input] s (writeEntry s .input i v) := by
  intro x hx
  cases x <;> simp_all [SameItem, readByte_writeEntry]

/-- A write of an entry changes no byte outside it (R64). -/
theorem bytesUnchanged_writeEntry (s : State) (a : BlockArray) (i : Nat) (v : Block) :
    BytesUnchangedExcept a i 0 s (writeEntry s a i v) := by
  intro addr h
  rw [readByte_writeEntry, dif_neg (by omega)]

/-- Settles O16, register by register. -/
theorem hostWriteStores : Obligations.HostWriteStores := by
  intro s v hph
  have hsame := sameBlock_atEvent s
  refine ⟨fun h => ⟨_, step_write_idle hph h, rfl, ?_⟩, fun h => ⟨_, step_write_idle hph h, rfl, ?_⟩,
    fun h => ⟨_, step_write_idle hph h, rfl, ?_⟩, fun h => ⟨_, step_write_idle hph h, rfl, ?_⟩, fun i hi h => ?_⟩
  · exact hsame.unchanged_trans (unchanged_setOperands _ (.inl (by simp)) (.inr rfl) (.inr rfl) (.inr rfl))
  · exact hsame.unchanged_trans (unchanged_setOperands _ (.inr rfl) (.inl (by simp)) (.inr rfl) (.inr rfl))
  · exact hsame.unchanged_trans (unchanged_setOperands _ (.inr rfl) (.inr rfl) (.inl (by simp)) (.inr rfl))
  · exact hsame.unchanged_trans (unchanged_setOperands _ (.inr rfl) (.inr rfl) (.inr rfl) (.inl (by simp)))
  · have hstep := step_write_idle hph h
    rw [show 0x10000 = inBase from rfl, portReg_input _ i hi, writeReg] at hstep
    refine ⟨_, hstep, ?_, ?_, fun addr haddr => ?_⟩
    · rw [readEntry_writeEntry, if_pos ⟨rfl, rfl⟩]
    · exact hsame.unchanged_trans (unchanged_writeEntry_input _ i v)
    · rw [bytesUnchanged_writeEntry _ _ i v addr haddr]
      exact hsame.unchanged [] .input (by simp) addr

/-! ### Unmapped and read-only indices -/

/-- The unmapped indices: those between the rows of the index map, and the entries at `MAXBLOCKS` and above (R79). -/
def Unmapped (p : Params) (idx : Nat) : Prop :=
  (8 ≤ idx ∧ idx < 0x10) ∨ (0x20 ≤ idx ∧ idx < 0x10000) ∨
    (0x10000 + p.maxBlocks ≤ idx ∧ idx < 0x20000) ∨ 0x20000 + p.maxBlocks ≤ idx

/-- The read-only indices: `STATUS`, `RES`, `CD`, the bank and `OUT` (R61). -/
def ReadOnly (p : Params) (idx : Nat) : Prop :=
  idx = 1 ∨ idx = 6 ∨ idx = 7 ∨ (0x10 ≤ idx ∧ idx < 0x20) ∨ (0x20000 ≤ idx ∧ idx < 0x20000 + p.maxBlocks)

theorem portReg_of_unmapped {p : Params} {idx : Nat} (h : Unmapped p idx) : portReg p idx = .unmapped := by
  have hmax : p.maxBlocks ≤ 65536 := p.lastBlock.isLt
  unfold Unmapped at h
  unfold portReg cmdIndex statusIndex skBase inBase outBase
  iterate 8 rw [if_neg (by omega)]
  rw [dif_neg (by omega), if_neg (by omega), if_neg (by omega)]

/-- A write to a read-only index is ignored (R79). -/
theorem writeReg_readOnly (s : State) (v : Block) {p : Params} {idx : Nat} (h : ReadOnly p idx) :
    writeReg s v (portReg p idx) = s := by
  rcases h with rfl | rfl | rfl | ⟨hlo, hhi⟩ | ⟨hlo, hhi⟩
  · rfl
  · rfl
  · rfl
  · obtain ⟨k, rfl⟩ := Nat.exists_eq_add_of_le hlo
    rw [show portReg p (0x10 + k) = _ from portReg_sk p ⟨k, by omega⟩]
    rfl
  · obtain ⟨i, rfl⟩ := Nat.exists_eq_add_of_le hlo
    rw [show portReg p (0x20000 + i) = _ from portReg_output p i (by omega)]
    rfl

/-- A write to an unmapped index is ignored (R79). -/
theorem writeReg_unmapped (s : State) (v : Block) {p : Params} {idx : Nat} (h : Unmapped p idx) :
    writeReg s v (portReg p idx) = s := by
  rw [portReg_of_unmapped h]
  rfl

/-- Settles O17: an unmapped index names no register, and a write to a read-only one is ignored. -/
theorem readOnlyAndUnmappedIndices : Obligations.ReadOnlyAndUnmappedIndices := by
  intro s idx
  refine ⟨fun (hun : Unmapped s.env.params idx) hph => ?_, fun hun hph => portRead_busy hph ?_, fun hidx v h => ?_⟩
  · rw [portRead_idle hph, portReg_of_unmapped hun]
    rfl
  · unfold statusIndex; omega
  · refine ⟨atEvent s, ?_, (sameBlock_atEvent s).unchanged []⟩
    by_cases hph : s.ph = .idle
    · rw [step_write_idle hph h]
      rcases hidx with hun | hro
      · rw [writeReg_unmapped _ v hun]
      · rw [writeReg_readOnly _ v hro]
    · exact step_write_busy hph h

end Sys2Proof
end

section
/-! PROOFS. The obligations of `30_encoding.md`: that the decoder and the encoder are inverse to each other, which
words are illegal, and how a command is accepted and run. -/

namespace Sys2Proof

open Sys2Proof.Machine

/-! ## The rows of the opcode map and the words that select them (R91, R93) -/

/-- A word selects a row exactly when it has the row's `op`, `rsv` = 0, and `arg` = 0 where the row takes none. -/
theorem selects_iff {r : OpcodeRow} (hr : r ∈ opcodeMap) (w : CommandWord) :
    selects w r = true ↔
      opField w = opField r.pattern ∧ rsvField w = 0 ∧ (r.mask = fullMask → argField w = 0) := by
  refine ⟨fields_of_selects hr, fun ⟨hop, hrsv, harg⟩ => ?_⟩
  rw [selects, beq_iff_eq, opcodeMap_patterns r hr]
  rcases opcodeMap_masks r hr with hmask | hmask <;> rw [hmask]
  · exact (and_argMask_eq_iff w _).mpr ⟨hop, hrsv⟩
  · exact (and_fullMask_eq_iff w _).mpr ⟨hop, harg hmask, hrsv⟩

/-- No two rows have one `op`. -/
theorem row_eq_of_op_eq {r r' : OpcodeRow} (hr : r ∈ opcodeMap) (hr' : r' ∈ opcodeMap)
    (hop : opField r.pattern = opField r'.pattern) : r = r' := by
  have hnodup : (opcodeMap.map fun r => opField r.pattern).Nodup := by decide +kernel
  exact List.inj_on_of_nodup_map hnodup hr hr' hop

/-- A word that selects a row decodes to the command of that row, legal or not (R94). -/
theorem decodeWord_of_selects {w : CommandWord} {r : OpcodeRow} (hr : r ∈ opcodeMap) (h : selects w r = true) :
    decodeWord w =
      if (r.build (argField w)).wf then .command (r.build (argField w)) else .badArgument (r.build (argField w)) := by
  obtain ⟨r', hfind⟩ := Option.isSome_iff_exists.mp (List.find?_isSome.mpr ⟨r, hr, h⟩)
  have hr' : r' ∈ opcodeMap := List.mem_of_find?_eq_some hfind
  have hop : opField r'.pattern = opField r.pattern :=
    (fields_of_selects hr' (List.find?_some hfind)).1.symm.trans (fields_of_selects hr h).1
  rw [decodeWord, hfind, row_eq_of_op_eq hr' hr hop]

/-! ## The round trips (R92 to R95, R101) -/

/-- The encoding of every command selects a row that builds the command again. -/
theorem selectsItsRow (i : Instr) : Laws.SelectsItsRow.Statement i := by
  cases i with
  | perm t => exact Laws.SelectsItsRow.perm t
  | kperm1 => exact Laws.SelectsItsRow.kperm1
  | krot k => exact Laws.SelectsItsRow.krot k
  | kperm2 k => exact Laws.SelectsItsRow.kperm2 k
  | genkeys => exact Laws.SelectsItsRow.genkeys
  | revkeys => exact Laws.SelectsItsRow.revkeys
  | sbox => exact Laws.SelectsItsRow.sbox
  | feistel => exact Laws.SelectsItsRow.feistel
  | calcr => exact Laws.SelectsItsRow.calcr
  | block => exact Laws.SelectsItsRow.block
  | encode => exact Laws.SelectsItsRow.encode
  | decode => exact Laws.SelectsItsRow.decode
  | pad n => exact Laws.SelectsItsRow.pad n
  | cntpad => exact Laws.SelectsItsRow.cntpad

/-- Settles O1: the encoding selects the command's own row, and no other row has its `op`. -/
theorem decodeEncodeAgree : Obligations.DecodeEncodeAgree := by
  intro i
  obtain ⟨-, r, hr, hsel, hbuild⟩ := selectsItsRow i
  rw [decodeWord_of_selects hr hsel, hbuild]

/-- The command of a row is encoded by the row's `op`, with the argument where the row takes one (R91, R93). -/
theorem encodeWord_build {r : OpcodeRow} (hr : r ∈ opcodeMap) (a : BitVec 8) :
    encodeWord (r.build a) = formatC (opField r.pattern) (if r.mask = fullMask then 0 else a) := by
  revert r
  simp only [opcodeMap, List.forall_mem_cons]
  exact ⟨rfl, rfl, rfl, rfl, rfl, rfl, rfl, rfl, rfl, rfl, rfl, rfl, rfl, rfl, by simp⟩

/-- Settles O2: the fields of a word that selects a row are those of the encoding of the row's command. -/
theorem decodedWordIsItsEncoding : Obligations.DecodedWordIsItsEncoding := by
  intro w i h
  rcases decodeWord_cases w with ⟨r, hr, hsel, hinstr⟩ | ⟨-, hillegal⟩
  · obtain rfl : r.build (argField w) = i := Option.some.inj (hinstr.symm.trans h)
    obtain ⟨hop, hrsv, harg⟩ := fields_of_selects hr hsel
    rw [encodeWord_build hr]
    refine word_ext ?_ ?_ ?_
    · rw [opField_formatC, hop]
    · rw [argField_formatC]
      split
      · next hmask => exact (harg hmask).symm
      · rfl
    · rw [rsvField_formatC, hrsv]
  · rw [hillegal] at h
    cases h

/-! ## Illegal words (R95) -/

/-- A word is illegal exactly when it selects no row (R95). -/
theorem decodeWord_eq_illegal_iff {w : CommandWord} {why : IllegalWord} :
    decodeWord w = .illegal why ↔ (∀ r ∈ opcodeMap, selects w r = false) ∧ illegalReason w = why := by
  rcases decodeWord_cases w with ⟨r, hr, hsel, hinstr⟩ | ⟨hnone, hillegal⟩
  · refine iff_of_false (fun h => ?_) (fun ⟨hnone, _⟩ => ?_)
    · rw [h] at hinstr
      cases hinstr
    · rw [hnone r hr] at hsel
      cases hsel
  · rw [hillegal, Decoded.illegal.injEq]
    exact (and_iff_right hnone).symm

/-- The `op` values of the rows with a given mask. -/
def opsUnder (mask : CommandWord) : List (BitVec 8) :=
  (opcodeMap.filter fun r => r.mask = mask).map fun r => opField r.pattern

/-- The commands that take an argument (R93). -/
theorem opsUnder_argMask : opsUnder argMask = [0x10, 0x21, 0x22, 0x60] := by decide +kernel

/-- The commands that take none (R93). -/
theorem opsUnder_fullMask :
    opsUnder fullMask = [0x20, 0x23, 0x24, 0x30, 0x31, 0x32, 0x40, 0x50, 0x51, 0x61] := by decide +kernel

theorem mem_opsUnder {mask : CommandWord} {op : BitVec 8} :
    op ∈ opsUnder mask ↔ ∃ r ∈ opcodeMap, r.mask = mask ∧ op = opField r.pattern := by
  simp [opsUnder, and_assoc, eq_comm (a := op)]

/-- Each row takes an argument or takes none. -/
theorem mem_opsUnder_append {op : BitVec 8} :
    op ∈ opsUnder argMask ++ opsUnder fullMask ↔ ∃ r ∈ opcodeMap, op = opField r.pattern := by
  rw [List.mem_append, mem_opsUnder, mem_opsUnder]
  constructor
  · rintro (⟨r, hr, -, hop⟩ | ⟨r, hr, -, hop⟩) <;> exact ⟨r, hr, hop⟩
  · rintro ⟨r, hr, hop⟩
    exact (opcodeMap_masks r hr).imp (⟨r, hr, ·, hop⟩) (⟨r, hr, ·, hop⟩)

/-- The reason named first is the reserved bits; then the argument, where some row has the word's `op`; then the
`op` (log entry 16). -/
theorem illegalReason_eq (w : CommandWord) :
    illegalReason w =
      if rsvField w ≠ 0 then .reservedBits
      else if opField w ∈ opsUnder argMask ++ opsUnder fullMask then .argumentNotZero
      else .unknownOpcode := by
  simp only [illegalReason, mem_opsUnder_append, List.any_eq_true, beq_iff_eq]

/-- A word with a reserved bit set selects no row. -/
theorem decodeWord_eq_reservedBits_iff (w : CommandWord) :
    decodeWord w = .illegal .reservedBits ↔ rsvField w ≠ 0 := by
  rw [decodeWord_eq_illegal_iff, illegalReason_eq]
  constructor
  · rintro ⟨-, hwhy⟩ hrsv
    rw [if_neg (not_not.mpr hrsv)] at hwhy
    split at hwhy <;> cases hwhy
  · intro hrsv
    refine ⟨fun r hr => Bool.eq_false_iff.mpr fun hsel => ?_, if_pos hrsv⟩
    obtain ⟨-, hzero, -⟩ := fields_of_selects hr hsel
    exact hrsv hzero

/-- A word whose `op` no row has selects no row. -/
theorem decodeWord_eq_unknownOpcode_iff (w : CommandWord) :
    decodeWord w = .illegal .unknownOpcode ↔
      rsvField w = 0 ∧ opField w ∉ opsUnder argMask ++ opsUnder fullMask := by
  rw [decodeWord_eq_illegal_iff, illegalReason_eq]
  constructor
  · rintro ⟨-, hwhy⟩
    split at hwhy
    · cases hwhy
    · next hrsv =>
      split at hwhy
      · cases hwhy
      · next hop => exact ⟨not_not.mp hrsv, hop⟩
  · rintro ⟨hrsv, hop⟩
    refine ⟨fun r hr => Bool.eq_false_iff.mpr fun hsel => ?_, by rw [if_neg (not_not.mpr hrsv), if_neg hop]⟩
    obtain ⟨hrow, -, -⟩ := fields_of_selects hr hsel
    exact hop (mem_opsUnder_append.mpr ⟨r, hr, hrow⟩)

/-- With `rsv` = 0 and the `op` of a row, a word is illegal exactly when the row takes no argument and `arg` is
not 0: the row with its `op` is the only one it could select. -/
theorem decodeWord_eq_argumentNotZero_iff (w : CommandWord) :
    decodeWord w = .illegal .argumentNotZero ↔
      rsvField w = 0 ∧ opField w ∈ opsUnder fullMask ∧ argField w ≠ 0 := by
  rw [decodeWord_eq_illegal_iff, illegalReason_eq]
  constructor
  · rintro ⟨hnone, hwhy⟩
    split at hwhy
    · cases hwhy
    · next hrsv =>
      split at hwhy
      · next hmem =>
        obtain ⟨r, hr, hop⟩ := mem_opsUnder_append.mp hmem
        have hsel := Bool.eq_false_iff.mp (hnone r hr)
        rw [Ne, selects_iff hr] at hsel
        push Not at hsel
        obtain ⟨hmask, harg⟩ := hsel hop (not_not.mp hrsv)
        exact ⟨not_not.mp hrsv, mem_opsUnder.mpr ⟨r, hr, hmask, hop⟩, harg⟩
      · cases hwhy
  · rintro ⟨hrsv, hmem, harg⟩
    obtain ⟨r, hr, hmask, hop⟩ := mem_opsUnder.mp hmem
    refine ⟨fun r' hr' => Bool.eq_false_iff.mpr fun hsel => ?_, ?_⟩
    · obtain ⟨hop', -, harg'⟩ := fields_of_selects hr' hsel
      obtain rfl : r = r' := row_eq_of_op_eq hr hr' (hop.symm.trans hop')
      exact harg (harg' hmask)
    · rw [if_neg (not_not.mpr hrsv), if_pos (List.mem_append_right _ hmem)]

/-- Settles O3, reason by reason. -/
theorem illegalWordsAreExactly : Obligations.IllegalWordsAreExactly := by
  intro w
  rw [← opsUnder_argMask, ← opsUnder_fullMask]
  refine ⟨decodeWord_eq_reservedBits_iff w, decodeWord_eq_unknownOpcode_iff w, decodeWord_eq_argumentNotZero_iff w,
    fun h => ?_⟩
  rcases decodeWord_cases w with ⟨r, -, -, hinstr⟩ | ⟨-, hillegal⟩
  · rw [hinstr] at h
    cases h
  · exact ⟨_, hillegal⟩

/-- Settles O4: the words of commands are encodings, and the illegal words have a reserved bit or no row's `op`. -/
theorem wordsOfTheSpecDecode : Obligations.WordsOfTheSpecDecode :=
  ⟨decodeEncodeAgree (.perm 2), decodeEncodeAgree (.krot 3), decodeEncodeAgree (.kperm2 16),
    decodeEncodeAgree (.pad 3), decodeEncodeAgree .encode, decodeEncodeAgree .feistel, decodeEncodeAgree .block,
    decodeEncodeAgree (.krot 17), (decodeWord_eq_reservedBits_iff _).mpr (by decide),
    (decodeWord_eq_unknownOpcode_iff _).mpr (by decide +kernel)⟩

/-! ## Accepting a command and running it (R97, R98) -/

/-- With a command accepted CTRL steps, unless the schedule names the outside world and it has an event (R247). -/
theorem nextAgent?_exec {s : State} (hph : s.ph = .exec)
    (hhost : s.env.sched.head? = some .host → s.env.pending = []) : nextAgent? s = some .ctrl := by
  have hctrl : ctrlEnabled s = true := by rw [ctrlEnabled, hph]
  have hdefault : defaultAgent? s = some .ctrl := if_pos hctrl
  unfold nextAgent?
  split
  · exact hdefault
  · next a rest hsched =>
    rw [hdefault, ite_eq_right_iff]
    intro henabled
    cases a with
    | ctrl => rfl
    | host =>
      rw [agentEnabled, hostEnabled, hhost (by rw [hsched]; rfl)] at henabled
      cases henabled
    | task i =>
      obtain ⟨hbatch, -⟩ := (taskEnabled_iff i s).mp henabled
      rw [hph] at hbatch
      cases hbatch

/-- Settles O5: CTRL is the agent that steps, and its step is the execute step. -/
theorem stepRunsDecodedCommand : Obligations.StepRunsDecodedCommand := by
  intro s i hph hinstr hhost
  rw [step_of_nextAgent (nextAgent?_exec hph hhost), agentStep, ctrlStep, dropTurn_ph, hph]
  simp only [executeStep, dropTurn_cmd, hinstr]

/-- Accepting a command writes `CMD`, `PH`, `DONE` and `ERR` alone (R97). -/
theorem unchanged_acceptCommand (w : CommandWord) (s : State) :
    UnchangedExcept [.cmd, .ph, .done, .err] s (acceptCommand w s) := by
  intro x hx
  cases x <;> simp_all [SameItem] <;> intro addr <;> rfl

/-- Settles O6: index 0 is `CMD`, and a write to it is accepted when idle and ignored when busy. -/
theorem commandWriteIsAccepted : Obligations.CommandWriteIsAccepted := by
  intro s v h
  by_cases hph : s.ph = .idle
  · have hword : v.setWidth 32 = v.extractLsb' 0 32 := BitVec.setWidth_eq_extractLsb' (by decide)
    exact ⟨acceptCommand (v.setWidth 32) (atEvent s), step_write_idle hph h,
      fun _ => ⟨hword, rfl, rfl, rfl, (sameBlock_atEvent s).unchanged_trans (unchanged_acceptCommand _ _)⟩,
      absurd hph⟩
  · exact ⟨atEvent s, step_write_busy hph h, fun hidle => absurd hidle hph,
      fun _ => (sameBlock_atEvent s).unchanged []⟩

end Sys2Proof
end

section
/-! PROOFS. The obligations of `40_permutation_engine.md`: the result of `PERM`, bit by bit, and the checks that the
spec gives of its constant tables. -/

namespace Sys2Proof

open Sys2Proof.Machine

/-! ## A permutation by integer bit numbers (R8, R9, R11) -/

/-- `dbit_permutate` in integer bit numbers (R8, R11). -/
theorem getLsbD_permutate {nIn nOut : Nat} (s : BitVec nIn) (t : Vector (Fin nIn) nOut) (i : Fin nOut) :
    (permutate s t).getLsbD (nOut - 1 - i.val) = s.getLsbD (nIn - 1 - t[i].val) := by
  rw [← dbit_eq_getLsbD _ _ i.isLt, dbit_permutate _ _ _ i.isLt, dbit_eq_getLsbD _ _ (Fin.isLt _), Fin.getElem_fin]

/-- A container of 64 bits holds the bits of what was put into it (R9). -/
theorem getLsbD_zext64 {n : Nat} (hn : n ≤ 64) (v : BitVec n) (b : Nat) : (zext64 v).getLsbD b = v.getLsbD b := by
  rw [zext64, BitVec.getLsbD_setWidth, Bool.and_eq_right_iff_imp, decide_eq_true_iff]
  exact fun hb => Nat.lt_of_lt_of_le (BitVec.lt_of_getLsbD hb) hn

/-- Every table's result fits a container of 64 bits (R111). -/
theorem tableOutWidth_le (t : PermTable) : tableOutWidth t ≤ 64 := by cases t <;> decide

/-- The bits of `permuteWord` below `n_out`: DES bit `i` is the bit of the operand that entry `i` names (R119). -/
theorem getLsbD_permuteWord (t : PermTable) (v : Block) (i : Fin (tableOutWidth t)) :
    (permuteWord t v).getLsbD (tableOutWidth t - 1 - i.val) =
      v.getLsbD (tableInWidth t - 1 - (tableEntries t)[i].val) := by
  have hentry : tableInWidth t - 1 - (tableEntries t)[i].val < tableInWidth t := by
    have := (tableEntries t)[i].isLt
    omega
  rw [permuteWord, getLsbD_zext64 (tableOutWidth_le t), getLsbD_permutate, BitVec.getLsbD_setWidth,
    decide_eq_true hentry, Bool.true_and]

/-- The bits of `permuteWord` from `n_out` on are 0 (R119). -/
theorem getLsbD_permuteWord_of_ge (t : PermTable) (v : Block) {b : Nat} (hb : tableOutWidth t ≤ b) :
    (permuteWord t v).getLsbD b = false := by
  rw [permuteWord, getLsbD_zext64 (tableOutWidth_le t), BitVec.getLsbD_of_ge _ _ hb]

/-! ## `PERM` (R92, R119) -/

/-- Writing `RES` alone leaves every other item. -/
theorem unchanged_setRes (s : State) (v : Block) : UnchangedExcept [.res] s { s with res := v } := by
  intro x hx
  cases x <;> simp_all [SameItem] <;> intro addr <;> rfl

/-- A command that writes `RES` and ends writes just that (R98). -/
theorem endCommand_setRes_ended (s : State) (v : Block) :
    EndedWriting [.res] s (endCommand { s with res := v }) :=
  endCommand_ended rfl (UnchangedExcept.mono (unchanged_setRes s v) (by simp))

/-- The legal arguments of `PERM` and the tables they select (R92). -/
theorem tableSelect?_legal :
    ∀ p ∈ [((0 : BitVec 8), PermTable.ip), (1, .ipinv), (2, .e), (3, .p), (4, .pc1), (5, .pc2)],
      tableSelect? p.1 = some p.2 := by
  decide

/-- With a table selected, `PERM` writes the permuted operand to `RES` and ends (R119). -/
theorem exec_perm_of_tableSelect? {a : BitVec 8} {table : PermTable} (h : tableSelect? a = some table) (s : State) :
    exec (.perm a) s = .next (endCommand { s with res := permuteWord table s.opa }) := by
  rw [exec, execPerm, h]

/-- Settles O27: the table is selected, `PERM` writes `permuteWord` of `OPA`, and that is the permutation bit by
bit. -/
theorem permResult : Obligations.PermResult := by
  intro s a table hlegal
  exact ⟨_, exec_perm_of_tableSelect? (tableSelect?_legal _ hlegal) s, endCommand_setRes_ended s _,
    getLsbD_permuteWord table s.opa, fun _ hb => getLsbD_permuteWord_of_ge table s.opa hb⟩

/-! ## The checks of the constant tables (R113 to R118, R150) -/

/-- IP and IP⁻¹ are inverse to each other (R114). -/
theorem tableIPINV_tableIP_inverse (i : Fin 64) : tableIPINV[tableIP[i]] = i ∧ tableIP[tableIPINV[i]] = i := by
  revert i; decide

/-- The closed form of E: row `j` is the six indices from `4j - 1` on, in a ring of 32 (R115). -/
theorem tableE_closed_form (j : Fin 8) (m : Fin 6) :
    (tableE[6 * j.val + m.val]).val = (4 * j.val + m.val + 31) % 32 := by
  revert j m; decide

/-- Every index is an entry of P, so that P is a bijection (R116). -/
theorem mem_tableP (x : Fin 32) : x ∈ tableP.toList := by
  revert x; decide

/-- The entries of PC-1 are distinct (R117). -/
theorem tablePC1_nodup : (entriesOf tablePC1).Nodup := by decide

/-- PC-1 drops the last bit of each byte of the key (R117). -/
theorem tablePC1_drops : ∀ x ∈ [7, 15, 23, 31, 39, 47, 55, 63], x ∉ entriesOf tablePC1 := by decide

/-- The entries of PC-2 are distinct (R118). -/
theorem tablePC2_nodup : (entriesOf tablePC2).Nodup := by decide

/-- The eight indices that PC-2 drops (R118). -/
theorem tablePC2_drops : ∀ x ∈ [8, 17, 21, 24, 34, 37, 42, 53], x ∉ entriesOf tablePC2 := by decide

/-- The first half of PC-2 reads `C` and the second half reads `D` (R118). -/
theorem tablePC2_lt_iff (i : Fin 48) : (tablePC2[i]).val < 28 ↔ i.val < 24 := by
  revert i; decide

/-- The sums of the entries of the six tables, in the order of R113 to R118. -/
theorem tables_sums :
    [(entriesOf tableIP).sum, (entriesOf tableIPINV).sum, (entriesOf tableE).sum, (entriesOf tableP).sum,
      (entriesOf tablePC1).sum, (entriesOf tablePC2).sum] = [2016, 2016, 744, 496, 1736, 1304] := by
  decide

/-- No row of an S-box repeats a value (R150). -/
theorem sboxTables_row_injective (j : Fin 8) (row : Fin 4) :
    Function.Injective fun col : Fin 16 => sboxTables[j][row][col].toFin := by
  revert j row; decide

/-- Every row of an S-box holds every value 0 to 15, since it holds sixteen different ones (R150). -/
theorem sboxTables_row_surjective (j : Fin 8) (row : Fin 4) (v : Fin 16) :
    ∃ col : Fin 16, sboxTables[j][row][col].toNat = v.val := by
  obtain ⟨col, hcol⟩ := Finite.surjective_of_injective (sboxTables_row_injective j row) v
  exact ⟨col, congrArg Fin.val hcol⟩

/-- The weighted sums of the eight S-boxes (R150). -/
theorem sboxTables_weightedSums :
    sboxTables.toList.map (fun box => weightedSum (boxValues box)) =
      [15455, 15538, 15707, 15614, 15578, 15516, 15510, 15575] := by
  decide

/-- Settles O60, check by check. -/
theorem constantTablesPassTheirChecks : Obligations.ConstantTablesPassTheirChecks :=
  ⟨tableIPINV_tableIP_inverse, tableE_closed_form, mem_tableP, tablePC1_nodup, tablePC1_drops, tablePC2_nodup,
    tablePC2_drops, tablePC2_lt_iff, tables_sums, sboxTables_row_surjective, sboxTables_weightedSums⟩

end Sys2Proof
end

section
/-! PROOFS. The obligations of `41_key_schedule.md`: what the five key-schedule commands write, that the halves return
after sixteen rounds, that `GENKEYS` is the sequence of its steps, and that the subkeys ignore eight bits of the key. -/

namespace Sys2Proof

open Sys2Proof.Machine

/-! ## What the key-schedule commands write (R98) -/

/-- A write of the key schedule's items changes those whose value is not the one they held. -/
theorem unchanged_setKeySchedule (s : State) {w : List StateItem} {c d : KeyHalf} {sk : Bank} {skw : BitVec 16}
    {skrev : Bool} (hc : .c ∈ w ∨ c = s.c) (hd : .d ∈ w ∨ d = s.d) (hsk : .sk ∈ w ∨ sk = s.sk)
    (hskw : .skw ∈ w ∨ skw = s.skw) (hskrev : .skrev ∈ w ∨ skrev = s.skrev) :
    UnchangedExcept w s { s with c := c, d := d, sk := sk, skw := skw, skrev := skrev } := by
  intro x hx
  cases x <;> simp_all [SameItem] <;> intro addr <;> rfl

/-- A command that writes items of the key schedule and ends writes just those (R98). -/
theorem endCommand_setKeySchedule_ended (s : State) {w : List StateItem} {c d : KeyHalf} {sk : Bank}
    {skw : BitVec 16} {skrev : Bool} (hc : .c ∈ w ∨ c = s.c) (hd : .d ∈ w ∨ d = s.d) (hsk : .sk ∈ w ∨ sk = s.sk)
    (hskw : .skw ∈ w ∨ skw = s.skw) (hskrev : .skrev ∈ w ∨ skrev = s.skrev) :
    EndedWriting w s (endCommand { s with c := c, d := d, sk := sk, skw := skw, skrev := skrev }) :=
  endCommand_ended rfl
    (UnchangedExcept.mono (unchanged_setKeySchedule s hc hd hsk hskw hskrev) fun _ h => .tail _ (.tail _ h))

/-! ## `KPERM1` (R117, R130, R138) -/

/-- The DES bits of a slice are DES bits of the whole, counted from the slice's most significant bit (R8, R9). -/
theorem dbit_extractLsb' {n : Nat} (x : BitVec n) {lo len i : Nat} (hlen : lo + len ≤ n) (hi : i < len) :
    dbit (x.extractLsb' lo len) i = dbit x (n - (lo + len) + i) := by
  rw [dbit_eq_getLsbD _ _ hi, dbit_eq_getLsbD _ _ (by omega), BitVec.getLsbD_extractLsb',
    decide_eq_true (by omega), Bool.true_and]
  congr 1
  omega

/-- `C0` by entries 0 to 27 of PC-1 (R130). -/
theorem dbit_keyPermutationFirst_fst (key : Block) (i : Fin 28) :
    dbit (keyPermutationFirst key).1 i = dbit key (tablePC1[i.val]).val := by
  rw [keyPermutationFirst, dbit_extractLsb' _ (by decide) i.isLt, Nat.zero_add, dbit_permutate]

/-- `D0` by entries 28 to 55 of PC-1 (R130). -/
theorem dbit_keyPermutationFirst_snd (key : Block) (i : Fin 28) :
    dbit (keyPermutationFirst key).2 i = dbit key (tablePC1[28 + i.val]).val := by
  rw [keyPermutationFirst, dbit_extractLsb' _ (by decide) i.isLt, dbit_permutate]

/-- `KPERM1` writes the halves of PC-1 of `KEY` and ends (R138). -/
theorem exec_kperm1 (s : State) :
    exec .kperm1 s =
      .next (endCommand { s with c := (keyPermutationFirst s.key).1, d := (keyPermutationFirst s.key).2 }) := rfl

/-- Settles O28, half by half. -/
theorem kperm1Result : Obligations.Kperm1Result := fun s =>
  ⟨_, exec_kperm1 s, endCommand_setKeySchedule_ended s (by simp) (by simp) (.inr rfl) (.inr rfl) (.inr rfl),
    dbit_keyPermutationFirst_fst s.key, dbit_keyPermutationFirst_snd s.key⟩

/-! ## `KROT` (R12, R131, R132, R139) -/

/-- With a round selected, `KROT` rotates both halves by that round's shift and ends (R139). -/
theorem exec_krot_of_roundSelect? {k : BitVec 8} {r : Fin 16} (h : roundSelect? k = some r) (s : State) :
    exec (.krot k) s =
      .next (endCommand { s with c := rol28 s.c shiftSchedule[r], d := rol28 s.d shiftSchedule[r] }) := by
  rw [exec, execKrot, h]

/-- Rounds 1, 2, 9 and 16 shift by 1 and the others by 2 (R131). -/
theorem shiftSchedule_val (r : Fin 16) :
    (shiftSchedule[r]).val =
      if r.val + 1 = 1 ∨ r.val + 1 = 2 ∨ r.val + 1 = 9 ∨ r.val + 1 = 16 then 1 else 2 := by
  revert r; decide

/-- Settles O29: the argument selects round `k`, and each half rotates by the shift of that round. -/
theorem krotResult : Obligations.KrotResult := by
  intro s k hlow hhigh
  have hselect := roundSelect?_legal k ⟨hlow, hhigh⟩
  have hshift := shiftSchedule_val ⟨k.toNat - 1, by omega⟩
  rw [Nat.sub_add_cancel hlow] at hshift
  refine ⟨_, exec_krot_of_roundSelect? hselect s,
    endCommand_setKeySchedule_ended s (by simp) (by simp) (.inr rfl) (.inr rfl) (.inr rfl), ?_⟩
  rw [← hshift]
  exact ⟨dbit_rol28 s.c _, dbit_rol28 s.d _⟩

/-! ## `KPERM2` (R26, R133, R140) -/

/-- The argument `k + 1` selects entry `k` of the bank (R92). -/
theorem roundSelect?_ofNat (k : Fin 16) : roundSelect? (BitVec.ofNat 8 (k.val + 1)) = some k := by
  revert k; decide

/-- With a round selected, `KPERM2` writes that round's entry and its written bit and ends (R140). -/
theorem exec_kperm2_of_roundSelect? {k : BitVec 8} {r : Fin 16} (h : roundSelect? k = some r) (s : State) :
    exec (.kperm2 k) s =
      .next (endCommand { s with
        sk := s.sk.set r (keyPermutationSecond s.c s.d), skw := markWritten s.skw r }) := by
  rw [exec, execKperm2, h]

/-- `markWritten` sets the one bit and keeps every other (R26). -/
theorem getLsbD_markWritten (skw : BitVec 16) (k : Fin 16) (j : Nat) :
    (markWritten skw k).getLsbD j = (skw.getLsbD j || decide (j = k.val)) := by
  rw [markWritten, BitVec.getLsbD_or, ← BitVec.twoPow_eq, BitVec.getLsbD_twoPow, decide_eq_true k.isLt,
    Bool.true_and]
  simp only [eq_comm]

/-- Settles O30: the argument selects entry `k`, which takes PC-2 of the halves. -/
theorem kperm2Result : Obligations.Kperm2Result := by
  intro s k
  refine ⟨_, exec_kperm2_of_roundSelect? (roundSelect?_ofNat k) s,
    endCommand_setKeySchedule_ended s (.inr rfl) (.inr rfl) (by simp) (by simp) (.inr rfl), ?_, ?_,
    getLsbD_markWritten s.skw k⟩
  · intro i
    rw [endCommand_sk, Fin.getElem_fin, Vector.getElem_set_self, keyPermutationSecond, dbit_permutate _ _ _ i.isLt]
    rfl
  · intro j hj
    rw [endCommand_sk, Fin.getElem_fin, Vector.getElem_set_ne _ _ (fun h => hj (Fin.ext h.symm)), Fin.getElem_fin]

/-! ## The rotations accumulate (R12, R131, R132, R134, R137) -/

/-- Two rotations in a row are the rotation by the sum of their amounts, counted in a ring of 28 (R12). -/
theorem rol28_rol28 (v : KeyHalf) {a b t : Fin 29} (h : (a.val + b.val) % 28 = t.val % 28) :
    rol28 (rol28 v a) b = rol28 v t := by
  apply eq_of_dbit_eq
  intro i hi
  have hindex : ((i + b.val) % 28 + a.val) % 28 = (i + t.val) % 28 := by omega
  have hlt : (i + b.val) % 28 < 28 := Nat.mod_lt _ (by decide)
  rw [dbit_rol28 _ _ ⟨i, hi⟩, dbit_rol28 v a ⟨_, hlt⟩, dbit_rol28 v t ⟨i, hi⟩]
  exact congrArg (dbit v) hindex

/-- A rotation by a whole turn, 0 or 28, leaves the half (R12). -/
theorem rol28_turn (v : KeyHalf) {t : Fin 29} (h : t.val % 28 = 0) : rol28 v t = v := by
  apply eq_of_dbit_eq
  intro i hi
  rw [dbit_rol28 v t ⟨i, hi⟩, Nat.add_mod, h, Nat.add_zero, Nat.mod_mod, Nat.mod_eq_of_lt hi]

/-- Rotation steps in a row are one, by the sum of their amounts, counted in a ring of 28 (R132). -/
theorem foldl_rotateHalves (shifts : List (Fin 29)) (cd : KeyHalf × KeyHalf) (t : Fin 29)
    (h : (shifts.map Fin.val).sum % 28 = t.val % 28) : shifts.foldl rotateHalves cd = rotateHalves cd t := by
  induction shifts generalizing cd t with
  | nil =>
    have hturn : t.val % 28 = 0 := h.symm
    rw [List.foldl_nil, rotateHalves, rol28_turn _ hturn, rol28_turn _ hturn]
  | cons a shifts ih =>
    let rest : Fin 29 := ⟨(shifts.map Fin.val).sum % 28, by omega⟩
    have hsum : (a.val + rest.val) % 28 = t.val % 28 := by
      rw [List.map_cons, List.sum_cons] at h
      rw [← h, Nat.add_mod_mod]
    rw [List.foldl_cons, ih _ rest (Nat.mod_mod _ _).symm]
    simp only [rotateHalves, rol28_rol28 _ hsum]

/-- The halves after `n` rounds are the first halves rotated once, by the total shift of those rounds (R132). -/
theorem halvesAfter_eq_rotateHalves (key : Block) (n : Nat) (t : Fin 29)
    (h : ((shiftSchedule.toList.take n).map Fin.val).sum % 28 = t.val % 28) :
    halvesAfter key n = rotateHalves (keyPermutationFirst key) t :=
  foldl_rotateHalves _ _ t h

/-- The total shift of rounds 1 to `k`, at entry `k - 1` (R131). -/
def totalShift : Vector (Fin 29) 16 := #v[1, 2, 4, 6, 8, 10, 12, 14, 15, 17, 19, 21, 23, 25, 27, 28]

/-- `totalShift` sums the schedule (R131). -/
theorem sum_take_shiftSchedule (k : Fin 16) :
    ((shiftSchedule.toList.take (k.val + 1)).map Fin.val).sum = (totalShift[k]).val := by
  revert k; decide

/-- Entry `k` of the bank is PC-2 of the first halves rotated once, by the total shift (R132, R134). -/
theorem generateSubkeys_get_eq_rol28 (key : Block) (k : Fin 16) :
    (generateSubkeys key)[k] =
      keyPermutationSecond (rol28 (keyPermutationFirst key).1 totalShift[k])
        (rol28 (keyPermutationFirst key).2 totalShift[k]) := by
  rw [generateSubkeys_get, halvesAfter_eq_rotateHalves _ _ _ (congrArg (· % 28) (sum_take_shiftSchedule k)),
    rotateHalves]

/-- Sixteen rounds rotate by 28 in all, which is a whole turn (R137). -/
theorem halvesAfter_sixteen (key : Block) : halvesAfter key 16 = keyPermutationFirst key := by
  rw [halvesAfter_eq_rotateHalves key 16 0 (by decide), rotateHalves, rol28_turn _ (by decide),
    rol28_turn _ (by decide)]

/-! ## `GENKEYS` (R134, R137, R141) -/

/-- `GENKEYS` writes the bank of `KEY` and the halves after sixteen rounds and ends (R141). -/
theorem exec_genkeys (s : State) :
    exec .genkeys s =
      .next (endCommand { s with
        sk := generateSubkeys s.key, c := (halvesAfter s.key 16).1, d := (halvesAfter s.key 16).2,
        skw := fullBankMask, skrev := false }) := rfl

/-- Settles O31: the bank written is that of `KEY`, each entry by the total shift of its rounds. -/
theorem genkeysResult : Obligations.GenkeysResult := fun s =>
  ⟨_, exec_genkeys s,
    endCommand_setKeySchedule_ended s (by simp) (by simp) (by simp) (by simp) (by simp),
    generateSubkeys_get_eq_rol28 s.key, rfl, rfl⟩

/-- With a legal `COUNT` a batch starts by writing the bank whole (R193). -/
theorem startBatch_of_countLegal (dir : Direction) {s : State} (h : CountLegal s) :
    startBatch dir s =
      { loadBank s dir with tasks := setPhaseBelow s.tasks .pending s.count.toNat, ph := .batch } := by
  rw [startBatch, (countError?_eq_none_iff s).mpr h]

/-- Settles O32: of the key, of `GENKEYS`, and of the start step of a batch, which writes the first halves. -/
theorem halvesReturnAfterSixteenRounds : Obligations.HalvesReturnAfterSixteenRounds := by
  refine ⟨halvesAfter_sixteen, fun s => ⟨_, exec_genkeys s, halvesAfter_sixteen s.key⟩, fun s i hi hcount => ?_⟩
  obtain rfl | rfl := hi <;> exact ⟨_, rfl, congrArg (fun t => (t.c, t.d)) (startBatch_of_countLegal _ hcount)⟩

/-! ## `GENKEYS` as the sequence of its steps (R134, R141, program P2) -/

/-- Commands one after another, cut in two. -/
theorem runCommands_append (is js : List Instr) (s : State) :
    runCommands (is ++ js) s = (runCommands is s).bind (runCommands js) := by
  induction is generalizing s with
  | nil => rfl
  | cons i is ih =>
    rw [List.cons_append, runCommands, runCommands]
    cases exec i s with
    | next t => exact ih t
    | fault _ => rfl
    | refused _ => rfl

/-- A command with a next state goes first. -/
theorem runCommands_cons {i : Instr} {s t : State} (h : exec i s = .next t) (is : List Instr) :
    runCommands (i :: is) s = runCommands is t := by
  rw [runCommands, h]

/-- The two commands of round `k + 1` of the schedule (R141). -/
def keyRound (k : Fin 16) : List Instr :=
  [.krot (BitVec.ofNat 8 (k.val + 1)), .kperm2 (BitVec.ofNat 8 (k.val + 1))]

/-- The bank after `n` rounds: the first `n` entries hold subkeys of `KEY`, the others what they held (R140). -/
def bankAfter (s : State) (n : Nat) : Bank :=
  Vector.ofFn fun j => if j.val < n then (generateSubkeys s.key)[j] else s.sk[j]

/-- The written bits after `n` rounds: the first `n` are set, the others are what they were (R140). -/
def maskAfter (skw : BitVec 16) (n : Nat) : BitVec 16 :=
  BitVec.ofFnLE fun j => skw.getLsbD j.val || decide (j.val < n)

/-- The state after `KPERM1` and the commands of the first `n` rounds. -/
def afterKeyRounds (s : State) (n : Nat) : State :=
  endCommand { s with
    c := (halvesAfter s.key n).1, d := (halvesAfter s.key n).2, sk := bankAfter s n, skw := maskAfter s.skw n }

theorem bankAfter_zero (s : State) : bankAfter s 0 = s.sk := by
  ext j hj : 1
  simp [bankAfter]

/-- Round `k + 1` writes entry `k` (R140). -/
theorem bankAfter_succ (s : State) (k : Fin 16) :
    bankAfter s (k.val + 1) = (bankAfter s k.val).set k (generateSubkeys s.key)[k] := by
  ext j hj : 1
  rw [bankAfter, bankAfter, Vector.getElem_set, Vector.getElem_ofFn, Vector.getElem_ofFn]
  by_cases hjk : k.val = j
  · subst hjk
    rw [if_pos (Nat.lt_succ_self _), if_pos rfl]
  · have hlt : j < k.val + 1 ↔ j < k.val := by omega
    simp only [hjk, hlt, if_false]

theorem bankAfter_sixteen (s : State) : bankAfter s 16 = generateSubkeys s.key := by
  ext j hj : 1
  rw [bankAfter, Vector.getElem_ofFn, if_pos hj, Fin.getElem_fin]

theorem getLsbD_maskAfter (skw : BitVec 16) (n : Nat) {j : Nat} (hj : j < 16) :
    (maskAfter skw n).getLsbD j = (skw.getLsbD j || decide (j < n)) := by
  simp [maskAfter, hj]

theorem maskAfter_zero (skw : BitVec 16) : maskAfter skw 0 = skw :=
  BitVec.eq_of_getLsbD_eq fun j hj => by simp [getLsbD_maskAfter _ _ hj]

/-- Round `k + 1` sets bit `k` (R140). -/
theorem maskAfter_succ (skw : BitVec 16) (k : Fin 16) :
    maskAfter skw (k.val + 1) = markWritten (maskAfter skw k.val) k := by
  apply BitVec.eq_of_getLsbD_eq
  intro j hj
  rw [getLsbD_markWritten, getLsbD_maskAfter _ _ hj, getLsbD_maskAfter _ _ hj, Bool.or_assoc]
  simp only [Nat.lt_succ_iff_lt_or_eq, Bool.decide_or]

theorem maskAfter_sixteen (skw : BitVec 16) : maskAfter skw 16 = fullBankMask := by
  apply BitVec.eq_of_getLsbD_eq
  intro j hj
  have hfull : fullBankMask.getLsbD j = true := by
    rw [fullBankMask, show (0xFFFF : BitVec 16) = BitVec.allOnes 16 from rfl, BitVec.getLsbD_allOnes,
      decide_eq_true hj]
  rw [getLsbD_maskAfter _ _ hj, decide_eq_true hj, Bool.or_true, hfull]

/-- `KPERM1` gives the state before the first round (R138). -/
theorem exec_kperm1_eq_afterKeyRounds (s : State) : exec .kperm1 s = .next (afterKeyRounds s 0) := by
  rw [exec_kperm1, afterKeyRounds, halvesAfter_zero, bankAfter_zero, maskAfter_zero]

/-- The commands of round `k + 1` take the state after `k` rounds to the state after `k + 1` (R139, R140). -/
theorem runCommands_keyRound (s : State) (k : Fin 16) :
    runCommands (keyRound k) (afterKeyRounds s k.val) = some (afterKeyRounds s (k.val + 1)) := by
  rw [keyRound, runCommands_cons (exec_krot_of_roundSelect? (roundSelect?_ofNat k) _),
    runCommands_cons (exec_kperm2_of_roundSelect? (roundSelect?_ofNat k) _), runCommands,
    afterKeyRounds, afterKeyRounds, bankAfter_succ, generateSubkeys_get, maskAfter_succ, halvesAfter_succ]
  rfl

/-- The rounds one after another, by induction on their number. -/
theorem runCommands_keyRounds (s : State) (n : Nat) (hn : n ≤ 16) :
    runCommands (((List.finRange 16).take n).flatMap keyRound) (afterKeyRounds s 0) = some (afterKeyRounds s n) := by
  induction n with
  | zero => rfl
  | succ n ih =>
    have hlt : n < 16 := hn
    have htake : (List.finRange 16).take (n + 1) = (List.finRange 16).take n ++ [⟨n, hlt⟩] := by
      simp [List.take_add_one, hlt]
    rw [htake, List.flatMap_append, List.flatMap_singleton, runCommands_append, ih (Nat.le_of_lt hlt)]
    exact runCommands_keyRound s ⟨n, hlt⟩

/-- `GENKEYS` ends in the state after sixteen rounds, but for `SKREV` (R141). -/
theorem exec_genkeys_eq_afterKeyRounds (s : State) :
    exec .genkeys s = .next { afterKeyRounds s 16 with skrev := false } := by
  rw [exec_genkeys, afterKeyRounds, bankAfter_sixteen, maskAfter_sixteen]
  rfl

/-- Settles O33: the state after each round is `afterKeyRounds`, and `GENKEYS` ends in the last one. -/
theorem genkeysEqualsItsSteps : Obligations.GenkeysEqualsItsSteps := by
  intro s
  refine ⟨afterKeyRounds s 16, ?_, exec_genkeys_eq_afterKeyRounds s⟩
  rw [runCommands_cons (exec_kperm1_eq_afterKeyRounds s)]
  exact runCommands_keyRounds s 16 le_rfl

/-! ## The key bits that PC-1 drops (R21, R117, R136) -/

/-- PC-1 selects none but the seven most significant bits of each byte of the key (R117). -/
theorem dbit_keptBits_tablePC1 (i : Fin 56) : dbit (0xFEFEFEFEFEFEFEFE : Block) tablePC1[i.val].val = true := by
  revert i; decide

@[simp] theorem dbit_and {n : Nat} (a b : BitVec n) (i : Nat) : dbit (a &&& b) i = (dbit a i && dbit b i) :=
  BitVec.getMsbD_and

@[simp] theorem dbit_zero {n : Nat} (i : Nat) : dbit 0#n i = false := BitVec.getMsbD_zero

/-- PC-1 of a mask of dropped bits is 0 (R136). -/
theorem permutate_tablePC1_dropped {mask : Block} (h : mask &&& 0xFEFEFEFEFEFEFEFE = 0) :
    permutate mask tablePC1 = 0#56 := by
  apply eq_of_dbit_eq
  intro i hi
  calc dbit (permutate mask tablePC1) i
    _ = dbit mask tablePC1[i].val := dbit_permutate _ _ _ hi
    _ = dbit (mask &&& 0xFEFEFEFEFEFEFEFE) tablePC1[i].val := by
      rw [dbit_and, dbit_keptBits_tablePC1 ⟨i, hi⟩, Bool.and_true]
    _ = dbit 0#56 i := by rw [h]; exact (dbit_zero _).trans (dbit_zero i).symm

/-- The first halves do not depend on the bits PC-1 drops (R136). -/
theorem keyPermutationFirst_xor_dropped (key : Block) {mask : Block} (h : mask &&& 0xFEFEFEFEFEFEFEFE = 0) :
    keyPermutationFirst (key ^^^ mask) = keyPermutationFirst key := by
  rw [keyPermutationFirst, permutate_xor, permutate_tablePC1_dropped h, BitVec.xor_zero, keyPermutationFirst]

/-- The subkeys depend on the key through its first halves alone (R134). -/
theorem generateSubkeys_congr {key key' : Block} (h : keyPermutationFirst key = keyPermutationFirst key') :
    generateSubkeys key = generateSubkeys key' := by
  simp only [generateSubkeys, halvesAfter, h]

/-- Settles O34: the first halves are the same, and the subkeys depend on nothing else. -/
theorem subkeysIgnoreDroppedKeyBits : Obligations.SubkeysIgnoreDroppedKeyBits := fun key _ hmask =>
  generateSubkeys_congr (keyPermutationFirst_xor_dropped key hmask)

/-! ## `REVKEYS` (R135, R142) -/

/-- On a full bank `REVKEYS` writes the bank reversed, inverts `SKREV` and ends (R142). -/
theorem exec_revkeys_of_full {s : State} (h : s.skw = fullBankMask) :
    exec .revkeys s = .next (endCommand { s with sk := reverseOrder s.sk, skrev := !s.skrev }) := by
  rw [exec, execRevkeys, if_pos h]

/-- Settles O35: on a full bank `REVKEYS` writes `reverseOrder` of it, which is entry by entry. -/
theorem revkeysResult : Obligations.RevkeysResult := fun s hfull =>
  ⟨_, exec_revkeys_of_full hfull,
    endCommand_setKeySchedule_ended s (.inr rfl) (.inr rfl) (by simp) (.inr rfl) (by simp),
    reverseOrder_get s.sk, rfl⟩

end Sys2Proof
end

section
/-! PROOFS. The obligations of `42_feistel_round.md`: what `SBOX`, `FEISTEL` and `CALCR` write, chunk by chunk of the
substitution and step by step of the round. -/

namespace Sys2Proof

open Sys2Proof.Machine

/-! ## Operands and containers (R9) -/

/-- A bit-string comes back out of a container of 64 bits (R9). -/
theorem setWidth_zext64 {n : Nat} (hn : n ≤ 64) (v : BitVec n) : (zext64 v).setWidth n = v := by
  rw [zext64, BitVec.setWidth_setWidth_of_le v hn, BitVec.setWidth_eq]

/-- A slice of a container is the slice of what was put into it (R9). -/
theorem extractLsb'_zext64 {n : Nat} (hn : n ≤ 64) (v : BitVec n) (lo len : Nat) :
    (zext64 v).extractLsb' lo len = v.extractLsb' lo len := by
  apply BitVec.eq_of_getLsbD_eq
  intro b _
  rw [BitVec.getLsbD_extractLsb', BitVec.getLsbD_extractLsb', getLsbD_zext64 hn]

/-- The high half of a container of a half is 0 (R9). -/
theorem extractLsb'_zext64_high (v : Half) : (zext64 v).extractLsb' 32 32 = 0 := by
  rw [extractLsb'_zext64 (by decide)]
  apply BitVec.eq_of_getLsbD_eq
  intro b _
  rw [BitVec.getLsbD_extractLsb', BitVec.getLsbD_of_ge v _ (by omega), Bool.and_false]
  exact BitVec.getLsbD_zero.symm

/-! ## `SBOX` (R151, R152, R156) -/

/-- The row of an S-box lookup: the outer two bits of the chunk, the first the more significant (R151). -/
theorem toNat_sboxRow (chunk : BitVec 6) :
    (chunk.extractLsb' 5 1 ++ chunk.extractLsb' 0 1).toNat =
      2 * (chunk.getLsbD 5).toNat + (chunk.getLsbD 0).toNat := by
  revert chunk; decide

/-- An S-box lookup is the entry at the row and the column that the chunk names (R151). -/
theorem sbox_eq_entry (j : Fin 8) (chunk : BitVec 6) {row : Fin 4} {col : Fin 16}
    (hrow : row.val = 2 * (chunk.getLsbD 5).toNat + (chunk.getLsbD 0).toNat)
    (hcol : col.val = (chunk.extractLsb' 1 4).toNat) : sbox j chunk = sboxTables[j][row][col] := by
  obtain rfl : row = (chunk.extractLsb' 5 1 ++ chunk.extractLsb' 0 1).toFin :=
    Fin.ext (hrow.trans (toNat_sboxRow chunk).symm)
  obtain rfl : col = (chunk.extractLsb' 1 4).toFin := Fin.ext hcol
  rfl

/-- Nibble `j` of the substitution is the output of S-box `j`, that of the first the most significant (R152). -/
theorem extractLsb'_sboxSub (x : Subkey) (j : Fin 8) :
    (sboxSub x).extractLsb' (28 - 4 * j.val) 4 = sboxNibble x j := by
  fin_cases j <;>
    simp (disch := decide) only [sboxSub, BitVec.extractLsb'_append_eq_of_le, BitVec.extractLsb'_append_eq_of_add_le,
      Nat.reduceMul, Nat.reduceSub, BitVec.extractLsb'_eq_self] <;>
    rfl

/-- Chunk `j` of `OPA[47:0]` is the slice of `OPA` itself (R152). -/
theorem sboxChunk_opaLow (s : State) (j : Fin 8) :
    sboxChunk (opaLow s 48) j = s.opa.extractLsb' (42 - 6 * j.val) 6 :=
  BitVec.extractLsb'_setWidth_of_le (by omega)

/-- `SBOX` writes the substitution of `OPA[47:0]` and ends (R156). -/
theorem exec_sbox (s : State) :
    exec .sbox s = .next (endCommand { s with res := zext64 (sboxSub (opaLow s 48)) }) := rfl

/-- Settles O36: nibble `j` is the output of S-box `j` on its chunk, which is the entry at the chunk's row and
column. -/
theorem sboxResult : Obligations.SboxResult := by
  intro s
  refine ⟨_, exec_sbox s, endCommand_setRes_ended s _, ?_, ?_⟩
  · intro j row col chunk hrow hcol
    calc (zext64 (sboxSub (opaLow s 48))).extractLsb' (28 - 4 * j.val) 4
      _ = (sboxSub (opaLow s 48)).extractLsb' (28 - 4 * j.val) 4 := extractLsb'_zext64 (by decide) _ _ _
      _ = sbox j (sboxChunk (opaLow s 48) j) := extractLsb'_sboxSub _ j
      _ = sbox j chunk := congrArg (sbox j) (sboxChunk_opaLow s j)
      _ = sboxTables[j][row][col] := sbox_eq_entry j chunk hrow hcol
  · exact extractLsb'_zext64_high _

/-! ## `FEISTEL` (R153, R157, R159) -/

/-- `FEISTEL` writes the round function of `OPA[31:0]` and `OPB[47:0]` and ends (R157). -/
theorem exec_feistel (s : State) :
    exec .feistel s = .next (endCommand { s with res := zext64 (feistel (opaLow s 32) (opbSubkey s)) }) := rfl

/-- The mask of the host's sequence keeps the low 48 bits (R159). -/
theorem setWidth_and_subkeyMask (w : Block) : (w &&& 0xFFFFFFFFFFFF).setWidth 48 = w.setWidth 48 := by
  rw [BitVec.setWidth_and, show (0xFFFFFFFFFFFF : Block).setWidth 48 = BitVec.allOnes 48 from rfl, BitVec.and_allOnes]

/-- The low 48 bits of the host's exclusive-or are E of the operand mixed with the subkey (R153, R159). -/
theorem setWidth_expand_xor_subkey (v w : Block) :
    (permuteWord .e v ^^^ (w &&& 0xFFFFFFFFFFFF)).setWidth 48 =
      permutate (v.setWidth 32) tableE ^^^ w.setWidth 48 := by
  rw [BitVec.setWidth_xor, setWidth_and_subkeyMask]
  exact congrArg (· ^^^ _) (setWidth_zext64 (by decide) _)

/-- P of a container is P of what was put into it (R119). -/
theorem permuteWord_p_zext64 (x : Half) : permuteWord .p (zext64 x) = zext64 (permutate x tableP) :=
  congrArg (fun y => zext64 (permutate y tableP)) (setWidth_zext64 (by decide) x)

/-- The round function of two containers is the host's sequence on them (R159). -/
theorem zext64_feistel_eq_hostSequence (v w : Block) :
    zext64 (feistel (v.setWidth 32) (w.setWidth 48)) =
      permuteWord .p (zext64 (sboxSub ((permuteWord .e v ^^^ (w &&& 0xFFFFFFFFFFFF)).setWidth 48))) := by
  rw [permuteWord_p_zext64, setWidth_expand_xor_subkey, feistel]

/-- Settles O37: the four commands run one after another, and `RES` of the last is the round function. -/
theorem feistelEqualsItsSteps : Obligations.FeistelEqualsItsSteps := by
  intro s
  exact ⟨_, _, _, _, exec_feistel s, endCommand_setRes_ended s _,
    exec_perm_of_tableSelect? (tableSelect?_legal (2, .e) (by simp)) s, exec_sbox _,
    exec_perm_of_tableSelect? (tableSelect?_legal (3, .p) (by simp)) _,
    zext64_feistel_eq_hostSequence s.opa s.opb⟩

/-! ## `CALCR` (R154, R158) -/

/-- `CALCR` writes the old right half and `calculateR` of the pair and ends (R158). -/
theorem exec_calcr (s : State) :
    exec .calcr s =
      .next (endCommand { s with
        res := opaLow s 32 ++ calculateR (opaHigh s) (opaLow s 32) (opbSubkey s) }) := rfl

/-- Settles O38, half by half. -/
theorem calcrResult : Obligations.CalcrResult := by
  intro s
  refine ⟨_, _, exec_calcr s, endCommand_setRes_ended s _, exec_feistel s, ?_, ?_⟩
  · calc (opaLow s 32 ++ calculateR (opaHigh s) (opaLow s 32) (opbSubkey s)).extractLsb' 32 32
      _ = opaLow s 32 := BitVec.extractLsb'_append_eq_left
      _ = s.opa.extractLsb' 0 32 := BitVec.setWidth_eq_extractLsb' (by decide)
  · calc (opaLow s 32 ++ calculateR (opaHigh s) (opaLow s 32) (opbSubkey s)).extractLsb' 0 32
      _ = s.opa.extractLsb' 32 32 ^^^ feistel (opaLow s 32) (opbSubkey s) := BitVec.extractLsb'_append_eq_right
      _ = s.opa.extractLsb' 32 32 ^^^ (zext64 (feistel (opaLow s 32) (opbSubkey s))).extractLsb' 0 32 := by
        rw [extractLsb'_zext64 (by decide), BitVec.extractLsb'_eq_self]

end Sys2Proof
end

section
/-! PROOFS. The obligations of `43_block_kernel.md`: the result of `BLOCK` round by round, that the reversed bank undoes
it, that complementing key and block complements the result, and the three steps of a task. -/

namespace Sys2Proof

open Sys2Proof.Machine

/-! ## `BLOCK` (R170 to R173, R179) -/

/-- On a full bank `BLOCK` writes `des_block` of `OPA` to `RES` and ends (R179). -/
theorem exec_block_of_full {s : State} (h : s.skw = fullBankMask) :
    exec .block s = .next (endCommand { s with res := desBlock s.sk s.opa }) := by
  rw [exec, execBlock, if_pos h]

/-- The halves are the two parts of IP of the block (R171). -/
theorem ipSplit_append (b : Block) : (ipSplit b).1 ++ (ipSplit b).2 = permutate b tableIP :=
  (BitVec.extractLsb'_append_extractLsb'_eq_extractLsb' rfl).trans BitVec.extractLsb'_eq_self

/-- Settles O39: the halves after `k` rounds are those of `roundsAfter`. -/
theorem blockResult : Obligations.BlockResult := by
  intro s hfull
  refine ⟨_, exec_block_of_full hfull, endCommand_setRes_ended s _,
    fun k => (roundsAfter s.sk s.opa k).1, fun k => (roundsAfter s.sk s.opa k).2, ?_, fun k => ?_, rfl⟩
  · simp only [roundsAfter_zero, ipSplit_append]
  · simp only [roundsAfter_succ, roundStep, and_self]

/-! ## The reversed bank undoes a block (R142, R180 law 1) -/

/-- A table undoes another when the composed table lists every index in order (R114). -/
theorem permutate_permutate_of_inverse {n : Nat} {t u : Vector (Fin n) n} (h : ∀ i : Fin n, t[u[i]] = i)
    (s : BitVec n) : permutate (permutate s t) u = s := by
  apply eq_of_dbit_eq
  intro i hi
  rw [dbit_permutate _ _ _ hi, dbit_permutate _ _ _ (u[i]).isLt]
  exact congrArg (fun j : Fin n => dbit s j) (h ⟨i, hi⟩)

/-- IP undoes the final permutation but for the exchange of the halves (R171, R173). -/
theorem ipSplit_finalPermutation (lr : Half × Half) : ipSplit (finalPermutation lr) = lr.swap := by
  rw [finalPermutation, ipSplit, permutate_permutate_of_inverse fun i => (tableIPINV_tableIP_inverse i).1,
    BitVec.extractLsb'_append_eq_left, BitVec.extractLsb'_append_eq_right, Prod.swap]

/-- The final permutation of the exchanged halves of IP gives the block back (R171, R173). -/
theorem finalPermutation_swap_ipSplit (b : Block) : finalPermutation (ipSplit b).swap = b := by
  rw [finalPermutation, Prod.fst_swap, Prod.snd_swap, ipSplit_append,
    permutate_permutate_of_inverse fun i => (tableIPINV_tableIP_inverse i).2]

/-- A round on exchanged halves undoes the round with the same subkey, whatever the round function gives (R154). -/
theorem roundStep_swap_roundStep (lr : Half × Half) (k : Subkey) :
    roundStep (roundStep lr k).swap k = lr.swap := by
  simp only [roundStep, Prod.swap, calculateR, BitVec.xor_assoc, BitVec.xor_self, BitVec.xor_zero]

/-- Round `k` under the reversed bank undoes round `17 - k` of the first pass (R172, R180). -/
theorem roundsAfter_reverseOrder_desBlock (sk : Bank) (b : Block) {n : Nat} (hn : n ≤ 16) :
    roundsAfter (reverseOrder sk) (desBlock sk b) n = (roundsAfter sk b (16 - n)).swap := by
  induction n with
  | zero => rw [roundsAfter_zero, desBlock, ipSplit_finalPermutation]
  | succ n ih =>
    let k : Fin 16 := ⟨n, hn⟩
    have hrev : 16 - n = k.rev.val + 1 := by simp only [k, Fin.val_rev]; omega
    calc roundsAfter (reverseOrder sk) (desBlock sk b) (n + 1)
      _ = roundStep (roundsAfter (reverseOrder sk) (desBlock sk b) n) (reverseOrder sk)[k] := roundsAfter_succ _ _ k
      _ = roundStep (roundStep (roundsAfter sk b k.rev.val) sk[k.rev]).swap sk[k.rev] := by
        rw [ih (Nat.le_of_lt hn), reverseOrder_get, hrev, roundsAfter_succ]
      _ = (roundsAfter sk b (16 - (n + 1))).swap := by rw [roundStep_swap_roundStep, Fin.val_rev]

/-- `des_block` under the reversed bank undoes `des_block`, for any sixteen subkeys (R180 law 1). -/
theorem desBlock_reverseOrder_desBlock (sk : Bank) (b : Block) : desBlock (reverseOrder sk) (desBlock sk b) = b := by
  rw [desBlock, roundsAfter_reverseOrder_desBlock sk b le_rfl, Nat.sub_self, roundsAfter_zero,
    finalPermutation_swap_ipSplit]

/-- Settles O40: the three commands run one after another, and the last works on the first one's result under the
reversed bank. -/
theorem blockInvertedByReversedBank : Obligations.BlockInvertedByReversedBank := fun s hfull =>
  ⟨_, _, _, exec_block_of_full hfull, exec_revkeys_of_full hfull, exec_block_of_full hfull,
    desBlock_reverseOrder_desBlock s.sk s.opa⟩

/-! ## The known answer (R180 law 2, vector V1) -/

/-- The known answer of the cipher's pure functions (vector V1). -/
theorem desBlock_knownAnswer :
    desBlock (generateSubkeys 0x133457799BBCDFF1) 0x0123456789ABCDEF = 0x85E813540F0AB405 := by
  decide +kernel

/-- `GENKEYS` and then `BLOCK` leave `des_block` of `OPA` under the subkeys of `KEY` in `RES`, with a full bank in
forward order, from any state (R98, R141, R179). -/
theorem runCommands_genkeys_block (s : State) :
    runCommands [.genkeys, .block] s = some (endCommand { s with
      sk := generateSubkeys s.key, c := (halvesAfter s.key 16).1, d := (halvesAfter s.key 16).2,
      skw := fullBankMask, skrev := false, res := desBlock (generateSubkeys s.key) s.opa }) := by
  rw [runCommands_cons (exec_genkeys s), runCommands_cons (exec_block_of_full (endCommand_skw _)), runCommands]
  rfl

/-- Settles O41, by what the two commands leave in `RES` and `STATUS`. -/
theorem knownAnswerTest : Obligations.KnownAnswerTest :=
  ⟨_, runCommands_genkeys_block _, desBlock_knownAnswer, rfl⟩

/-! ## Complementation (R180 law 4) -/

/-- Complementing a bit-string complements its DES bits (R8). -/
theorem dbit_not {n i : Nat} (a : BitVec n) (hi : i < n) : dbit (~~~a) i = !dbit a i := by
  rw [dbit, BitVec.getMsbD_not, decide_eq_true hi, Bool.true_and, dbit]

/-- A permutation commutes with complementing (R120). -/
theorem permutate_not {nIn nOut : Nat} (a : BitVec nIn) (t : Vector (Fin nIn) nOut) :
    permutate (~~~a) t = ~~~permutate a t := by
  apply eq_of_dbit_eq
  intro i hi
  rw [dbit_permutate _ _ _ hi, dbit_not _ (t[i]).isLt, dbit_not _ hi, dbit_permutate _ _ _ hi]

/-- A slice of the complement is the complement of the slice (R9). -/
theorem extractLsb'_not {n lo len : Nat} (a : BitVec n) (h : lo + len ≤ n) :
    (~~~a).extractLsb' lo len = ~~~a.extractLsb' lo len := by
  apply eq_of_dbit_eq
  intro i hi
  rw [dbit_extractLsb' _ h hi, dbit_not _ (by omega), dbit_not _ hi, dbit_extractLsb' _ h hi]

/-- A rotation commutes with complementing (R12). -/
theorem rol28_not (v : KeyHalf) (k : Fin 29) : rol28 (~~~v) k = ~~~rol28 v k := by
  apply eq_of_dbit_eq
  intro i hi
  rw [dbit_rol28 _ k ⟨i, hi⟩, dbit_not _ (Nat.mod_lt _ (by decide)), dbit_not _ hi, dbit_rol28 v k ⟨i, hi⟩]

/-- A pair of halves with both complemented. -/
def complementHalves {n : Nat} (p : BitVec n × BitVec n) : BitVec n × BitVec n := (~~~p.1, ~~~p.2)

/-- The first halves of the complemented key (R130). -/
theorem keyPermutationFirst_not (key : Block) :
    keyPermutationFirst (~~~key) = complementHalves (keyPermutationFirst key) := by
  simp (disch := decide) only [keyPermutationFirst, complementHalves, permutate_not, extractLsb'_not]

/-- PC-2 of complemented halves (R133). -/
theorem keyPermutationSecond_not (c d : KeyHalf) :
    keyPermutationSecond (~~~c) (~~~d) = ~~~keyPermutationSecond c d := by
  rw [keyPermutationSecond, ← BitVec.not_append, permutate_not, keyPermutationSecond]

/-- The subkeys of the complemented key are the complemented subkeys (R134). -/
theorem generateSubkeys_not_get (key : Block) (k : Fin 16) :
    (generateSubkeys (~~~key))[k] = ~~~(generateSubkeys key)[k] := by
  simp only [generateSubkeys_get_eq_rol28, keyPermutationFirst_not, complementHalves, rol28_not,
    keyPermutationSecond_not]

/-- The round function does not see the complement: it cancels where the subkey is mixed in (R153). -/
theorem feistel_not (r : Half) (k : Subkey) : feistel (~~~r) (~~~k) = feistel r k := by
  rw [feistel, permutate_not, ← BitVec.not_xor_left, ← BitVec.not_xor_right, BitVec.not_not, feistel]

/-- A round on complemented halves with the complemented subkey (R154). -/
theorem roundStep_complementHalves (lr : Half × Half) (k : Subkey) :
    roundStep (complementHalves lr) (~~~k) = complementHalves (roundStep lr k) := by
  simp only [roundStep, complementHalves, calculateR, feistel_not, BitVec.not_xor_left]

/-- The first halves of the complemented block (R171). -/
theorem ipSplit_not (b : Block) : ipSplit (~~~b) = complementHalves (ipSplit b) := by
  simp (disch := decide) only [ipSplit, complementHalves, permutate_not, extractLsb'_not]

/-- The final permutation of complemented halves (R173). -/
theorem finalPermutation_complementHalves (lr : Half × Half) :
    finalPermutation (complementHalves lr) = ~~~finalPermutation lr := by
  rw [finalPermutation, complementHalves, ← BitVec.not_append, permutate_not, finalPermutation]

/-- Every round of the complemented block under complemented subkeys has the complemented halves (R172). -/
theorem roundsAfter_not {sk sk' : Bank} (h : ∀ k : Fin 16, sk'[k] = ~~~sk[k]) (b : Block) {n : Nat} (hn : n ≤ 16) :
    roundsAfter sk' (~~~b) n = complementHalves (roundsAfter sk b n) := by
  induction n with
  | zero => rw [roundsAfter_zero, roundsAfter_zero, ipSplit_not]
  | succ n ih =>
    let k : Fin 16 := ⟨n, hn⟩
    calc roundsAfter sk' (~~~b) (n + 1)
      _ = roundStep (roundsAfter sk' (~~~b) n) sk'[k] := roundsAfter_succ _ _ k
      _ = complementHalves (roundStep (roundsAfter sk b n) sk[k]) := by
        rw [ih (Nat.le_of_lt hn), h, roundStep_complementHalves]
      _ = complementHalves (roundsAfter sk b (n + 1)) := congrArg _ (roundsAfter_succ _ _ k).symm

/-- Settles O42: the halves stay complemented through all sixteen rounds, and so does the final permutation. -/
theorem desComplementation : Obligations.DesComplementation := by
  intro key b
  rw [desBlock, roundsAfter_not (generateSubkeys_not_get key) b le_rfl, finalPermutation_complementHalves, desBlock]

/-! ## The three steps of a task (R74, R174 to R177) -/

/-- A pending task loads (R175). -/
theorem taskStep_of_pending {s : State} {i : Nat} (hts : (taskOf s.tasks i).ts = .pending) :
    taskStep i s = taskLoad i s := by
  simp only [taskStep, hts]

/-- A running task with rounds to go takes the next one (R176). -/
theorem taskStep_of_running {s : State} {i : Nat} (hts : (taskOf s.tasks i).ts = .running)
    (hrnd : (taskOf s.tasks i).rnd.val < 16) : taskStep i s = taskRound i (taskOf s.tasks i) hrnd s := by
  simp only [taskStep, hts, hrnd, dite_true]

/-- A running task after round 16 stores (R177). -/
theorem taskStep_of_rounds_done {s : State} {i : Nat} (hts : (taskOf s.tasks i).ts = .running)
    (hrnd : (taskOf s.tasks i).rnd.val = 16) : taskStep i s = taskStore i (taskOf s.tasks i) s := by
  simp only [taskStep, hts, hrnd, Nat.lt_irrefl, dite_false]

/-- Writing task states alone leaves every other item. -/
theorem unchanged_setTasks (s : State) (m : TaskBank) : UnchangedExcept [.tasks] s { s with tasks := m } := by
  intro x hx
  cases x <;> simp_all [SameItem] <;> intro addr <;> rfl

/-- A store writes no byte of `OUT` but those of its own entry (R74, R177). -/
theorem bytesUnchanged_taskStore (i : Nat) (t : Task) (s : State) :
    BytesUnchangedExcept .output i 0 s (taskStore i t s) := by
  intro addr haddr
  rw [readByte_taskStore]
  exact bytesUnchanged_writeEntry s .output i _ addr haddr

/-- Settles O43, step by step. -/
theorem taskSteps : Obligations.TaskSteps := by
  intro s i
  refine ⟨fun hts => ?_, fun hrnd hts => ?_, fun hrnd hts => ?_, fun j hj => ?_, by rw [taskStep_frame]⟩
  · rw [taskStep_of_pending hts, taskLoad_tasks, taskOf_setTask, if_pos rfl]
    exact ⟨rfl, unchanged_setTasks s _⟩
  · rw [taskStep_of_running hts hrnd, taskRound_tasks, taskOf_setTask, if_pos rfl]
    exact ⟨rfl, rfl, rfl, rfl, unchanged_setTasks s _⟩
  · have hframe := taskStep_unchanged i s
    rw [taskStep_of_rounds_done hts hrnd] at hframe ⊢
    rw [taskStore_tasks, taskOf_setTask, if_pos rfl, readEntry_taskStore, readEntry_writeEntry, if_pos ⟨rfl, rfl⟩]
    exact ⟨rfl, rfl, bytesUnchanged_taskStore i _ s, hframe⟩
  · rw [taskOf_taskStep, if_neg hj.symm]

end Sys2Proof
end

section
/-! PROOFS. The obligations of `44_block_array_driver.md`: the start and the end of a batch, the number of running
tasks, and the whole run of an array command: until all tasks are finished one has a step, each step takes one from the
steps left, and where the batch ends is a matter of where it started alone. -/

namespace Sys2Proof

open Sys2Proof.Machine

/-! ## The two array functions (R190, R191, R198 law 1) -/

/-- Settles O51: the reversed bank undoes each block. -/
theorem decodeUndoesEncode : Obligations.DecodeUndoesEncode := by
  intro blocks key
  simp only [decodeBlocks, encodeBlocks, bankOf, List.map_map, Function.comp_def, desBlock_reverseOrder_desBlock,
    List.map_id']

/-! ## The start and the end of a batch (R192 to R196) -/

/-- The command that starts a batch in a direction (R192, R194). -/
def arrayCommand : Direction → Instr
  | .forward => .encode
  | .reversed => .decode

/-- `ENCODE` and `DECODE` are the start of a batch in their direction (R192, R194). -/
theorem exec_arrayCommand (dir : Direction) (s : State) : exec (arrayCommand dir) s = .next (startBatch dir s) := by
  cases dir <;> rfl

/-- Settles O45: the bank is loaded and the tasks below `COUNT` set pending. -/
theorem batchStart : Obligations.BatchStart := by
  intro s i dir hi hcount
  have hexec : exec i s = .next (startBatch dir s) := by
    obtain ⟨rfl, rfl⟩ | ⟨rfl, rfl⟩ := hi
    · exact exec_arrayCommand .forward s
    · exact exec_arrayCommand .reversed s
  refine ⟨_, hexec, ?_⟩
  rw [startBatch_of_countLegal dir hcount]
  refine ⟨?_, ?_, rfl, rfl, rfl, fun k hk => ?_, fun k hk => ?_, rfl, fun x hx => ?_⟩
  · rintro rfl; exact ⟨rfl, rfl⟩
  · rintro rfl; exact ⟨rfl, rfl⟩
  · rw [taskOf_setPhaseBelow, if_pos hk]
  · rw [taskOf_setPhaseBelow, if_neg (Nat.not_lt.mpr hk)]
  · cases x <;> simp_all [SameItem] <;> intro addr <;> rfl

/-- In a batch CTRL has a step exactly when every task below `COUNT` is finished (R196). -/
theorem ctrlEnabled_batch_iff {s : State} (hph : s.ph = .batch) :
    ctrlEnabled s = true ↔ ∀ i, i < s.count.toNat → taskPhase s i = .finished := by
  simp [ctrlEnabled, hph, allFinished]

/-- In a batch the step of CTRL is the end of the batch (R196). -/
theorem ctrlStep_batch {s : State} (hph : s.ph = .batch) : ctrlStep s = .next (endBatch s) := by
  rw [ctrlStep, hph]

/-- Settles O46: CTRL waits for the tasks below `COUNT` and then sets them idle. -/
theorem batchEnd : Obligations.BatchEnd := by
  intro s hph
  refine ⟨ctrlEnabled_batch_iff hph, _, ctrlStep_batch hph, ⟨rfl, rfl, rfl, ?_⟩, fun i => ?_⟩
  · exact UnchangedExcept.mono (endBatch_unchanged s) (by simp)
  · rw [endBatch_tasks, taskOf_setPhaseBelow]

/-! ## The running tasks (R195) -/

/-- The indices of the running tasks. -/
def runningSet (m : TaskBank) : Finset Nat := ((m.filter fun e => e.2.ts == .running).map Prod.fst).toFinset

theorem mem_runningSet_iff {m : TaskBank} (h : m.wf) (i : Nat) : i ∈ runningSet m ↔ (taskOf m i).ts = .running := by
  simp only [runningSet, List.mem_toFinset, List.mem_map, List.mem_filter, beq_iff_eq, Prod.exists, exists_and_right,
    exists_eq_right]
  constructor
  · rintro ⟨t, hmem, hrunning⟩
    rwa [taskOf, lookupCell_of_mem h.1 hmem]
  · intro hrunning
    cases hlookup : lookupCell m i with
    | none => simp [taskOf, hlookup, Task.reset] at hrunning
    | some t => exact ⟨t, mem_of_lookupCell hlookup, by simpa [taskOf, hlookup] using hrunning⟩

/-- No index is listed twice, so the running tasks are as many as their indices. -/
theorem runningTasks_eq_card {s : State} (h : s.tasks.wf) : runningTasks s = (runningSet s.tasks).card := by
  have hnodup : ((s.tasks.filter fun e => e.2.ts == .running).map Prod.fst).Nodup :=
    List.pairwise_map.mpr ((h.1.filter _).imp fun hlt => hlt.ne)
  rw [runningSet, List.toFinset_card_of_nodup hnodup, List.length_map, runningTasks]

theorem runningTasks_eq_zero_iff {s : State} (h : s.tasks.wf) :
    runningTasks s = 0 ↔ ∀ i, taskPhase s i ≠ .running := by
  simp only [runningTasks_eq_card h, Finset.card_eq_zero, Finset.eq_empty_iff_forall_notMem, mem_runningSet_iff h,
    taskPhase, ne_eq]

/-- A lane is free when fewer tasks than `NLANES` run, if there is a limit (R195). -/
theorem laneFree_iff (s : State) :
    laneFree s = true ↔ ∀ extra, s.env.params.lanes = .bounded extra → runningTasks s < extra + 1 := by
  unfold laneFree
  cases s.env.params.lanes <;> simp

/-- The invariant bounds the running tasks if there is a limit (R195). -/
theorem lanesInv_iff (s : State) :
    LanesInv s ↔ ∀ extra, s.env.params.lanes = .bounded extra → runningTasks s ≤ extra + 1 := by
  unfold LanesInv
  cases s.env.params.lanes <;> simp

/-- With no task running a lane is free, `NLANES` being at least 1 (R195). -/
theorem laneFree_of_none_running {s : State} (h : runningTasks s = 0) : laneFree s = true :=
  (laneFree_iff s).mpr fun extra _ => by omega

/-! ## Every step keeps the number of running tasks within `NLANES` (R195) -/

/-- The invariant reads the number of running tasks and the parameters alone; fewer tasks running keep it. -/
theorem LanesInv.of_le {s t : State} (h : LanesInv s) (hle : runningTasks t ≤ runningTasks s)
    (hparams : t.env.params = s.env.params) : LanesInv t :=
  (lanesInv_iff t).mpr fun extra he => hle.trans ((lanesInv_iff s).mp h extra (hparams ▸ he))

theorem LanesInv.congr {s t : State} (h : LanesInv s) (htasks : t.tasks = s.tasks)
    (hparams : t.env.params = s.env.params) : LanesInv t :=
  h.of_le (by rw [runningTasks, htasks, runningTasks]) hparams

theorem lanesInv_of_none_running {s : State} (h : runningTasks s = 0) : LanesInv s :=
  (lanesInv_iff s).mpr fun extra _ => by omega

/-- One task more may run when a lane is free (R195). -/
theorem lanesInv_of_laneFree {s t : State} (hfree : laneFree s = true) (hle : runningTasks t ≤ runningTasks s + 1)
    (hparams : t.env.params = s.env.params) : LanesInv t :=
  (lanesInv_iff t).mpr fun extra he => hle.trans ((laneFree_iff s).mp hfree extra (hparams ▸ he))

theorem SameBlock.lanesInv {s t : State} (h : SameBlock s t) (hs : LanesInv s) : LanesInv t := by
  obtain ⟨e, rfl, -, hparams⟩ := h
  exact hs.congr rfl hparams

/-- A command run in phase `EXEC` leaves no task running: it starts a batch, whose tasks are pending, or ends (R98,
R193). -/
theorem none_running_exec {i : Instr} {s t : State} (hs : BatchInv s) (hph : s.ph = .exec) (h : exec i s = .next t)
    (k : Nat) : taskPhase t k ≠ .running := by
  have hidle : (taskOf s.tasks k).ts = .idle := hs.idle_outside (by simp [hph]) k
  rcases exec_cases h with ⟨e, rfl⟩ | ⟨-, rfl⟩ | ⟨dir, -, rfl⟩ | ⟨_, _, _, _, _, _, rfl, -⟩ | ⟨n, -, rfl⟩
  · simp [taskPhase, hidle]
  · simp [taskPhase, hidle]
  · simp only [taskPhase, taskOf_setPhaseBelow]
    split <;> simp [hidle]
  · simp [taskPhase, hidle]
  · simp [taskPhase, hidle]

/-- CTRL starts no task (R98, R196). -/
theorem lanesInv_ctrlStep {s t : State} (hs : StorageInv s) (hb : BatchInv s) (hl : LanesInv s)
    (h : ctrlStep s = .next t) : LanesInv t := by
  have ht : t.tasks.wf := (storageInv_ctrlStep hs hb h).tasks_wf
  rcases ctrlStep_cases h with ⟨-, rfl⟩ | ⟨hph, rfl⟩ | ⟨hph, ⟨-, rfl⟩ | ⟨i, -, hexec⟩⟩
  · exact hl
  · have hidle := (batchInv_endBatch hb hph).idle_outside (by simp)
    exact lanesInv_of_none_running ((runningTasks_eq_zero_iff ht).mpr fun i => by simp [hidle i])
  · exact hl.congr rfl rfl
  · exact lanesInv_of_none_running ((runningTasks_eq_zero_iff ht).mpr (none_running_exec hb hph hexec))

theorem lanesInv_hostWrite {s : State} (hl : LanesInv s) (idx : Nat) (v : Block) : LanesInv (hostWrite idx v s) := by
  rcases hostWrite_cases idx v s with he | ⟨-, -, he⟩ | ⟨-, _, _, _, _, he⟩ | ⟨-, i, -, he⟩ <;> rw [he]
  · exact hl
  · exact hl.congr rfl rfl
  · exact hl.congr rfl rfl
  · exact hl.congr (writeEntry_tasks _ _ _ _) (by rw [writeEntry_env])

/-- The outside world starts no task, and after reset none runs (R61, R260). -/
theorem lanesInv_hostStep {s : State} (hl : LanesInv s) : LanesInv (hostStep s) := by
  rcases hostStep_outcomes s with hsame | ⟨-, idx, v, he⟩ | ⟨-, he⟩
  · exact hsame.lanesInv hl
  · rw [he]; exact lanesInv_hostWrite ((sameBlock_dropEvent s).lanesInv hl) idx v
  · rw [he]; exact lanesInv_of_none_running rfl

/-- A task's step makes no task run but its own (R174). -/
theorem runningSet_taskStep_subset {s : State} (h : s.tasks.wf) (i : Nat) :
    runningSet (taskStep i s).tasks ⊆ insert i (runningSet s.tasks) := by
  intro j hj
  rw [mem_runningSet_iff (taskStep_tasks_wf i h), taskOf_taskStep] at hj
  rw [Finset.mem_insert, mem_runningSet_iff h]
  by_cases hij : i = j
  · exact .inl hij.symm
  · rw [if_neg hij] at hj
    exact .inr hj

/-- An enabled task has a lane, or takes a free one to load (R195). -/
theorem lanesInv_taskStep {s : State} (hs : StorageInv s) (hl : LanesInv s) {i : Nat}
    (henabled : taskEnabled i s = true) : LanesInv (taskStep i s) := by
  have hparams : (taskStep i s).env.params = s.env.params := by rw [taskStep_frame]
  have hset := Finset.card_le_card (runningSet_taskStep_subset hs.tasks_wf i)
  rw [← runningTasks_eq_card (taskStep_tasks_wf i hs.tasks_wf)] at hset
  obtain ⟨-, -, ⟨-, hfree⟩ | hrunning⟩ := (taskEnabled_iff i s).mp henabled
  · have hinsert := Finset.card_insert_le i (runningSet s.tasks)
    rw [← runningTasks_eq_card hs.tasks_wf] at hinsert
    exact lanesInv_of_laneFree hfree (hset.trans hinsert) hparams
  · rw [Finset.insert_eq_self.mpr ((mem_runningSet_iff hs.tasks_wf i).mpr hrunning),
      ← runningTasks_eq_card hs.tasks_wf] at hset
    exact hl.of_le hset hparams

/-- A turn used up enables and disables no task. -/
theorem taskEnabled_dropTurn (i : Nat) (s : State) : taskEnabled i (dropTurn s) = taskEnabled i s := rfl

/-- Settles O58, by the agent that steps. -/
theorem stepKeepsLanesInv : Obligations.StepKeepsLanesInv := by
  intro s t hs hb hl h
  have hsame := sameBlock_dropTurn s
  rcases step_cases h with ⟨-, rfl⟩ | ⟨-, rfl⟩ | ⟨-, hctrl⟩ | ⟨i, -, henabled, rfl⟩
  · exact hsame.lanesInv hl
  · exact lanesInv_hostStep (hsame.lanesInv hl)
  · exact lanesInv_ctrlStep (hsame.storageInv hs) (hsame.batchInv hb) (hsame.lanesInv hl) hctrl
  · exact lanesInv_taskStep (hsame.storageInv hs) (hsame.lanesInv hl) (by rwa [taskEnabled_dropTurn])

/-! ## Some agent steps (R247) -/

/-- When an agent has an enabled step, the default names one (R247). -/
theorem defaultAgent?_ne_none {s : State} {a : Agent} (h : agentEnabled s a = true) : defaultAgent? s ≠ none := by
  unfold defaultAgent?
  split
  · simp
  · next hctrl =>
    split
    · simp
    · next htask =>
      cases a with
      | host => rw [if_pos (show hostEnabled s = true from h)]; simp
      | ctrl => exact absurd h hctrl
      | task i =>
        obtain ⟨-, hi, -⟩ := (taskEnabled_iff i s).mp h
        exact absurd h (List.find?_eq_none.mp htask i (List.mem_range.mpr hi))

/-- When an agent has an enabled step, one steps (R247). -/
theorem nextAgent?_ne_none {s : State} {a : Agent} (h : agentEnabled s a = true) : nextAgent? s ≠ none := by
  unfold nextAgent?
  split
  · exact defaultAgent?_ne_none h
  · split
    · simp
    · exact defaultAgent?_ne_none h

/-- When an agent has an enabled step, the step is that of an agent that has one, which the schedule may choose
(R14, R247). -/
theorem step_of_agentEnabled {s : State} {a : Agent} (h : agentEnabled s a = true) :
    ∃ b, agentEnabled s b = true ∧ step s = agentStep b (dropTurn s) := by
  obtain ⟨b, hb⟩ := Option.ne_none_iff_exists'.mp (nextAgent?_ne_none h)
  exact ⟨b, agentEnabled_of_nextAgent? hb, step_of_nextAgent hb⟩

/-! ## The steps of a batch with no event of the outside world (R195 to R197) -/

/-- With no event pending the outside world has no step (R247). -/
theorem hostEnabled_eq_false {s : State} (h : s.env.pending = []) : hostEnabled s = false := by
  rw [hostEnabled, h]

/-- In a batch no task below `COUNT` is idle (R193). -/
theorem BatchInv.not_idle {s : State} (hb : BatchInv s) (hph : s.ph = .batch) {i : Nat} (hi : i < s.count.toNat) :
    taskPhase s i ≠ .idle := by
  intro hts
  have htrack := hb.on_track hph i hi
  simp only [TaskOnTrack, show (taskOf s.tasks i).ts = .idle from hts] at htrack

/-- Until every task below `COUNT` is finished one of them has a step: a running one, or, when none runs, a pending one,
since then a lane is free (R195, R197). -/
theorem exists_taskEnabled {s : State} (hs : s.tasks.wf) (hb : BatchInv s) (hph : s.ph = .batch) {i : Nat}
    (hi : i < s.count.toNat) (hfin : taskPhase s i ≠ .finished) : ∃ j, taskEnabled j s = true := by
  by_cases hrun : ∃ j, taskPhase s j = .running
  · obtain ⟨j, hj⟩ := hrun
    have hlt : j < s.count.toNat := by
      by_contra hge
      have hidle := hb.idle_above hph j (Nat.not_lt.mp hge)
      rw [hj] at hidle
      cases hidle
    exact ⟨j, (taskEnabled_iff j s).mpr ⟨hph, hlt, .inr hj⟩⟩
  · have hfree := laneFree_of_none_running ((runningTasks_eq_zero_iff hs).mpr (not_exists.mp hrun))
    refine ⟨i, (taskEnabled_iff i s).mpr ⟨hph, hi, .inl ⟨?_, hfree⟩⟩⟩
    cases hts : taskPhase s i with
    | idle => exact absurd hts (hb.not_idle hph hi)
    | pending => rfl
    | running => exact absurd ⟨i, hts⟩ hrun
    | finished => exact absurd hts hfin

/-- Until every task below `COUNT` is finished the step is that of an enabled task, whatever the schedule (R195,
R197). -/
theorem step_batch_unfinished {s : State} (hs : s.tasks.wf) (hb : BatchInv s) (hph : s.ph = .batch)
    (hpending : s.env.pending = []) (hfin : ¬ ∀ i, i < s.count.toNat → taskPhase s i = .finished) :
    ∃ i, taskEnabled i s = true ∧ step s = .next (taskStep i (dropTurn s)) := by
  obtain ⟨i, hi, hne⟩ : ∃ i, i < s.count.toNat ∧ taskPhase s i ≠ .finished := by simpa using hfin
  obtain ⟨j, hj⟩ := exists_taskEnabled hs hb hph hi hne
  obtain ⟨b, henabled, hstep⟩ := step_of_agentEnabled (a := .task j) hj
  cases b with
  | host => rw [agentEnabled, hostEnabled_eq_false hpending] at henabled; cases henabled
  | ctrl => exact absurd ((ctrlEnabled_batch_iff hph).mp henabled) hfin
  | task k => exact ⟨k, henabled, hstep⟩

/-- Once every task below `COUNT` is finished the step is the end of the batch (R196). -/
theorem step_batch_finished {s : State} (hph : s.ph = .batch) (hpending : s.env.pending = [])
    (hfin : ∀ i, i < s.count.toNat → taskPhase s i = .finished) : step s = .next (endBatch (dropTurn s)) := by
  obtain ⟨b, henabled, hstep⟩ := step_of_agentEnabled (a := .ctrl) ((ctrlEnabled_batch_iff hph).mpr hfin)
  cases b with
  | host => rw [agentEnabled, hostEnabled_eq_false hpending] at henabled; cases henabled
  | ctrl => rw [hstep, agentStep, ctrlStep_batch (s := dropTurn s) hph]
  | task k =>
    obtain ⟨-, hk, hts⟩ := (taskEnabled_iff k s).mp henabled
    simp [hfin k hk] at hts

/-! ## How many steps are left (R178, R197) -/

/-- How many steps a task of a batch has still to take: a load, sixteen rounds and a store (R175 to R178). -/
def stepsLeft (t : Task) : Nat :=
  match t.ts with
  | .idle => 0
  | .pending => 18
  | .running => 17 - t.rnd.val
  | .finished => 0

theorem stepsLeft_advanceTask (sk : Bank) (b : Block) {t : Task} (h : t.ts = .pending ∨ t.ts = .running) :
    stepsLeft (advanceTask sk b t) + 1 = stepsLeft t := by
  rcases h with hts | hts
  · simp [stepsLeft, advanceTask, hts]
  · have hle := t.rnd.isLt
    by_cases hrnd : t.rnd.val < 16
    · simp only [stepsLeft, advanceTask, hts, hrnd, dite_true]
      omega
    · simp only [stepsLeft, advanceTask, hts, hrnd, dite_false]
      omega

/-- How many task steps a batch has still to take. -/
def batchStepsLeft (s : State) : Nat := ∑ i ∈ Finset.range s.count.toNat, stepsLeft (taskOf s.tasks i)

/-- Every step of an enabled task takes one from the steps left. -/
theorem batchStepsLeft_taskStep {s : State} {i : Nat} (h : taskEnabled i s = true) :
    batchStepsLeft (taskStep i s) + 1 = batchStepsLeft s := by
  obtain ⟨-, hi, hts⟩ := (taskEnabled_iff i s).mp h
  have hmem : i ∈ Finset.range s.count.toNat := Finset.mem_range.mpr hi
  have hcount : (taskStep i s).count = s.count := by rw [taskStep_frame]
  have hothers : ∀ j ∈ (Finset.range s.count.toNat).erase i,
      stepsLeft (taskOf (taskStep i s).tasks j) = stepsLeft (taskOf s.tasks j) := fun j hj => by
    rw [taskOf_taskStep, if_neg (Finset.ne_of_mem_erase hj).symm]
  have hown : stepsLeft (taskOf (taskStep i s).tasks i) + 1 = stepsLeft (taskOf s.tasks i) := by
    rw [taskOf_taskStep, if_pos rfl]
    exact stepsLeft_advanceTask _ _ (hts.imp And.left id)
  rw [batchStepsLeft, batchStepsLeft, hcount, ← Finset.add_sum_erase _ _ hmem, ← Finset.add_sum_erase _ _ hmem,
    Finset.sum_congr rfl hothers]
  omega

/-- With no step left every task below `COUNT` is finished. -/
theorem finished_of_batchStepsLeft_eq_zero {s : State} (hb : BatchInv s) (hph : s.ph = .batch)
    (h : batchStepsLeft s = 0) (i : Nat) (hi : i < s.count.toNat) : taskPhase s i = .finished := by
  have hzero : stepsLeft (taskOf s.tasks i) = 0 := Finset.sum_eq_zero_iff.mp h i (Finset.mem_range.mpr hi)
  have hle := (taskOf s.tasks i).rnd.isLt
  cases hts : taskPhase s i with
  | idle => exact absurd hts (hb.not_idle hph hi)
  | pending => rw [stepsLeft, show (taskOf s.tasks i).ts = .pending from hts] at hzero; cases hzero
  | running => simp only [stepsLeft, show (taskOf s.tasks i).ts = .running from hts] at hzero; omega
  | finished => rfl

/-- Once every task below `COUNT` is finished no step is left. -/
theorem batchStepsLeft_eq_zero_of_finished {s : State} (h : ∀ i, i < s.count.toNat → taskPhase s i = .finished) :
    batchStepsLeft s = 0 :=
  Finset.sum_eq_zero fun i hi => by
    rw [stepsLeft, show (taskOf s.tasks i).ts = .finished from h i (Finset.mem_range.mp hi)]

/-! ## What a store lists in `OUT` (R64, R177) -/

theorem byteAddr_eq_iff (i k : Nat) (j l : Fin 8) : byteAddr i j = byteAddr k l ↔ i = k ∧ j = l := by
  simp only [byteAddr, Fin.ext_iff]
  omega

/-- Every address is that of a byte of an entry (R10, R64). -/
theorem exists_byteAddr (addr : Nat) : ∃ i j, addr = byteAddr i j :=
  ⟨addr / 8, ⟨addr % 8, Nat.mod_lt _ (by decide)⟩, (Nat.div_add_mod addr 8).symm⟩

theorem lookupCell_foldl_storeCell (m : Memory) (i k : Nat) (f : Fin 8 → Byte) (js : List (Fin 8)) (j : Fin 8) :
    lookupCell (js.foldl (fun m l => storeCell m (byteAddr i l) (f l)) m) (byteAddr k j) =
      if i = k ∧ j ∈ js then some (f j) else lookupCell m (byteAddr k j) := by
  induction js generalizing m with
  | nil => simp
  | cons l js ih =>
    rw [List.foldl_cons, ih, lookupCell_storeCell]
    simp only [byteAddr_eq_iff, List.mem_cons]
    grind

/-- A write of a whole entry lists its eight bytes and leaves the others as they were (R64). -/
theorem lookupCell_storeEntry (m : Memory) (i k : Nat) (v : Block) (j : Fin 8) :
    lookupCell (storeEntry m i v) (byteAddr k j) =
      if i = k then some (byteOf v j) else lookupCell m (byteAddr k j) := by
  simp only [storeEntry, lookupCell_foldl_storeCell, List.mem_finRange, and_true]

/-- A step of task `i` leaves what the other entries of `OUT` list (R74). -/
theorem lookupCell_storeResult_of_ne {i k : Nat} (h : i ≠ k) (t : Task) (m : Memory) (j : Fin 8) :
    lookupCell (storeResult i t m) (byteAddr k j) = lookupCell m (byteAddr k j) := by
  unfold storeResult
  split
  · rw [lookupCell_storeEntry, if_neg h]
  · rfl

/-- A task is finished after a step when it was, or when the step is the store (R177). -/
theorem advanceTask_finished_iff (sk : Bank) (b : Block) (t : Task) :
    (advanceTask sk b t).ts = .finished ↔ t.ts = .finished ∨ t.ts = .running ∧ t.rnd.val = 16 := by
  have hle := t.rnd.isLt
  unfold advanceTask
  cases hts : t.ts <;> simp [hts]
  split <;> simp <;> omega

/-! ## Where a batch stands, by the state it started from -/

/-- The state of a batch that `s` started, by what the batch writes after its start step: the task states, `OUT` and the
model's own fields (R73, R193). -/
def batchState (s : State) (dir : Direction) (m : TaskBank) (out : Memory) (e : Env) : State :=
  { loadBank s dir with tasks := m, outArr := out, ph := .batch, env := e }

/-- A batch writes the key schedule, the task states and `OUT` alone until it ends (R73, R193). -/
theorem unchanged_batchState (s : State) (dir : Direction) (m : TaskBank) (out : Memory) {e : Env}
    (he : e.resets = s.env.resets) :
    UnchangedExcept [.sk, .skrev, .c, .d, .skw, .ph, .tasks, .output] s (batchState s dir m out e) := by
  have hin : ∀ addr, readByte (batchState s dir m out e) .input addr = readByte s .input addr :=
    readByte_congr rfl he
  intro x hx
  cases x <;> simp_all [SameItem]
  all_goals rfl

/-- What `OUT` lists in state `t` of a batch that `s` started: the result of each finished task, and otherwise what it
listed in `s` (R177). -/
def ListsResults (s : State) (dir : Direction) (t : State) : Prop :=
  ∀ i j, lookupCell t.outArr (byteAddr i j) =
    if taskPhase t i = .finished then some (byteOf (desBlock (bankOf s.key dir) (readEntry s .input i)) j)
    else lookupCell s.outArr (byteAddr i j)

/-- `t` is a state of the batch in direction `dir` that `s` started, with no event of the outside world pending (R73,
R193): the bank is loaded and nothing else of the block is written but the task states and `OUT`; there has been no
reset; the lists are in canonical form and every task below `COUNT` is on its way; every task at `COUNT` or above is as
it was; and `OUT` lists the results of the finished tasks. The lemmas below name the clauses. -/
def InBatch (s : State) (dir : Direction) (t : State) : Prop :=
  t = batchState s dir t.tasks t.outArr t.env ∧ t.env.resets = s.env.resets ∧ t.env.pending = [] ∧
  StorageInv t ∧ BatchInv t ∧ (∀ i, s.count.toNat ≤ i → taskOf t.tasks i = taskOf s.tasks i) ∧ ListsResults s dir t

section

variable {s t : State} {dir : Direction} (h : InBatch s dir t)

include h

theorem InBatch.frame : t = batchState s dir t.tasks t.outArr t.env := h.1

theorem InBatch.resets : t.env.resets = s.env.resets := h.2.1

theorem InBatch.no_events : t.env.pending = [] := h.2.2.1

theorem InBatch.storage : StorageInv t := h.2.2.2.1

theorem InBatch.batch : BatchInv t := h.2.2.2.2.1

theorem InBatch.tasks_above : ∀ i, s.count.toNat ≤ i → taskOf t.tasks i = taskOf s.tasks i := h.2.2.2.2.2.1

theorem InBatch.out : ListsResults s dir t := h.2.2.2.2.2.2

theorem InBatch.ph_eq : t.ph = .batch := (congrArg State.ph h.frame :)

theorem InBatch.count_eq : t.count = s.count := (congrArg State.count h.frame :)

theorem InBatch.sk_eq : t.sk = bankOf s.key dir := (congrArg State.sk h.frame :)

theorem InBatch.readEntry_input (i : Nat) : readEntry t .input i = readEntry s .input i :=
  readEntry_congr (s := s) (a := .input) (congrArg State.inArr h.frame :) h.resets i

theorem InBatch.after_dropTurn : InBatch s dir (dropTurn t) :=
  ⟨congrArg dropTurn h.frame, h.resets, h.no_events, (sameBlock_dropTurn t).storageInv h.storage,
    (sameBlock_dropTurn t).batchInv h.batch, h.tasks_above, h.out⟩

/-- A store lists the result of its task, which is on track (R177, R178). -/
theorem InBatch.out_taskStep {i : Nat} (hi : i < t.count.toNat) : ListsResults s dir (taskStep i t) := by
  intro k j
  rw [outArr_taskStep, taskPhase, taskOf_taskStep]
  by_cases hik : i = k
  · subst hik
    rw [if_pos rfl]
    by_cases hstore : (taskOf t.tasks i).ts = .running ∧ (taskOf t.tasks i).rnd.val = 16
    · obtain ⟨hts, hrnd⟩ := hstore
      have htrack := (taskOnTrack_running_iff hts).mp (h.batch.on_track h.ph_eq i hi)
      rw [hrnd, h.sk_eq, h.readEntry_input] at htrack
      rw [storeResult, if_pos ⟨hts, hrnd⟩, lookupCell_storeEntry, if_pos rfl,
        if_pos ((advanceTask_finished_iff _ _ _).mpr (.inr ⟨hts, hrnd⟩)), htrack, desBlock]
    · rw [storeResult, if_neg hstore, h.out]
      refine if_congr ?_ rfl rfl
      rw [advanceTask_finished_iff, or_iff_left hstore, taskPhase]
  · rw [lookupCell_storeResult_of_ne hik, if_neg hik, h.out, taskPhase]

/-- A task's step stays in the batch (R73). -/
theorem InBatch.after_taskStep {i : Nat} (hi : i < t.count.toNat) : InBatch s dir (taskStep i t) := by
  have hframe : taskStep i t = batchState s dir (taskStep i t).tasks (taskStep i t).outArr t.env := by
    conv_lhs => rw [taskStep_frame]
    exact congrArg (fun u => { u with tasks := (taskStep i t).tasks, outArr := (taskStep i t).outArr }) h.frame
  have henv : (taskStep i t).env = t.env := by rw [taskStep_frame]
  have hbound : i < t.env.params.maxBlocks := hi.trans_le (h.batch.count_legal h.ph_eq).2
  refine ⟨by rwa [henv], by rw [henv, h.resets], by rw [henv, h.no_events], storageInv_taskStep h.storage hbound,
    batchInv_taskStep h.batch h.ph_eq hi, fun k hk => ?_, h.out_taskStep hi⟩
  rw [h.count_eq] at hi
  rw [taskOf_taskStep, if_neg (hi.trans_le hk).ne, h.tasks_above k hk]

/-- Once finished, a task holds the halves after round 16 (R178, R200). -/
theorem InBatch.taskOf_finished {i : Nat} (hi : i < s.count.toNat) (hfin : taskPhase t i = .finished) :
    taskOf t.tasks i =
      { ts := .finished
        l := (roundsAfter (bankOf s.key dir) (readEntry s .input i) 16).1
        r := (roundsAfter (bankOf s.key dir) (readEntry s .input i) 16).2
        rnd := 16 } := by
  rw [← h.count_eq] at hi
  obtain ⟨hrnd, hhalves, -⟩ := (taskOnTrack_finished_iff hfin).mp (h.batch.on_track h.ph_eq i hi)
  rw [h.sk_eq, h.readEntry_input] at hhalves
  rw [← hhalves, ← show taskPhase t i = .finished from hfin, ← show (taskOf t.tasks i).rnd = 16 from Fin.ext hrnd]
  rfl

/-- Once finished, a task has `des_block` of its block in `OUT` (R178). -/
theorem InBatch.readEntry_output {i : Nat} (hi : i < s.count.toNat) (hfin : taskPhase t i = .finished) :
    readEntry t .output i = desBlock (bankOf s.key dir) (readEntry s .input i) := by
  rw [← h.count_eq] at hi
  obtain ⟨-, -, hresult⟩ := (taskOnTrack_finished_iff hfin).mp (h.batch.on_track h.ph_eq i hi)
  rw [hresult, h.sk_eq, h.readEntry_input]

/-- No byte of `OUT` at `COUNT` or above is written (R74). -/
theorem InBatch.readByte_output_above {addr : Nat} (haddr : 8 * s.count.toNat ≤ addr) :
    readByte t .output addr = readByte s .output addr := by
  obtain ⟨i, j, rfl⟩ := exists_byteAddr addr
  have hi : s.count.toNat ≤ i := by
    unfold byteAddr at haddr
    omega
  have hidle : taskPhase t i = .idle := h.batch.idle_above h.ph_eq i (by rwa [h.count_eq])
  have hout : lookupCell t.outArr (byteAddr i j) = lookupCell s.outArr (byteAddr i j) :=
    (h.out i j).trans (if_neg (by simp [hidle]))
  show (lookupCell t.outArr _).getD _ = (lookupCell s.outArr _).getD _
  rw [hout, unlistedByte, h.resets, unlistedByte]

/-- Where a batch ends is a matter of where it started alone: two states of it with every task finished differ only in
the model's own fields (R199). -/
theorem InBatch.eq_of_finished {u : State} (h' : InBatch s dir u)
    (hfin : ∀ i, i < t.count.toNat → taskPhase t i = .finished)
    (hfin' : ∀ i, i < u.count.toNat → taskPhase u i = .finished) : { u with env := t.env } = t := by
  rw [h.count_eq] at hfin
  rw [h'.count_eq] at hfin'
  have htasks : u.tasks = t.tasks := taskBank_ext h'.storage.tasks_wf h.storage.tasks_wf fun i => by
    by_cases hi : i < s.count.toNat
    · rw [h.taskOf_finished hi (hfin i hi), h'.taskOf_finished hi (hfin' i hi)]
    · rw [h.tasks_above i (Nat.not_lt.mp hi), h'.tasks_above i (Nat.not_lt.mp hi)]
  have hout : u.outArr = t.outArr := risingKeys_ext h'.storage.output_wf h.storage.output_wf fun addr => by
    obtain ⟨i, j, rfl⟩ := exists_byteAddr addr
    rw [h.out, h'.out, taskPhase, taskPhase, htasks]
  rw [h.frame, h'.frame, htasks, hout]
  rfl

end

/-! ## The run of an array command (R192 to R197) -/

/-- A step with a next state goes first in a run. -/
theorem run_succ {s t : State} (h : step s = .next t) (k : Nat) :
    Host.Core.run core (k + 1) s = Host.Core.run core k t := by
  have hcore : core.step s = .next t := h
  simp only [Host.Core.run, hcore]

/-- With `k` task steps left, `k` steps and the end of the batch lead out of it, whatever the schedule, by induction on
`k` (R195 to R197). -/
theorem InBatch.run_to_end {s : State} {dir : Direction} (k : Nat) {t : State} (h : InBatch s dir t)
    (hk : batchStepsLeft t = k) :
    ∃ u, InBatch s dir u ∧ (∀ i, i < u.count.toNat → taskPhase u i = .finished) ∧
      Host.Core.run core (k + 1) t = .next (endBatch u) := by
  induction k generalizing t with
  | zero =>
    have hfin := finished_of_batchStepsLeft_eq_zero h.batch h.ph_eq hk
    exact ⟨_, h.after_dropTurn, hfin, run_succ (step_batch_finished h.ph_eq h.no_events hfin) 0⟩
  | succ k ih =>
    have hfin : ¬ ∀ i, i < t.count.toNat → taskPhase t i = .finished := fun hall => by
      have hzero := batchStepsLeft_eq_zero_of_finished hall
      omega
    obtain ⟨i, henabled, hstep⟩ := step_batch_unfinished h.storage.tasks_wf h.batch h.ph_eq h.no_events hfin
    obtain ⟨-, hi, -⟩ := (taskEnabled_iff i t).mp henabled
    have hleft : batchStepsLeft (taskStep i (dropTurn t)) + 1 = batchStepsLeft t :=
      batchStepsLeft_taskStep (s := dropTurn t) henabled
    rw [run_succ hstep]
    exact ih (h.after_dropTurn.after_taskStep hi) (by omega)

section

variable {s : State} (hs : StorageInv s) (hb : BatchInv s) (hcount : CountLegal s) (hph : s.ph = .exec)
  (hpending : s.env.pending = [])

include hs hb hcount hph hpending

/-- The start of a batch (R193). -/
theorem inBatch_start (dir : Direction) : InBatch s dir (dropTurn (startBatch dir s)) := by
  rw [startBatch_of_countLegal dir hcount]
  refine InBatch.after_dropTurn ⟨rfl, rfl, hpending, ?_, ?_, fun i hi => ?_, fun i j => ?_⟩
  · exact (storageInv_setPhaseBelow hs hcount .pending).congr rfl rfl rfl rfl
  · exact batchInv_start hb (by simp [hph]) hcount dir
  · rw [taskOf_setPhaseBelow, if_neg (Nat.not_lt.mpr hi)]
  · have hidle : (taskOf s.tasks i).ts = .idle := hb.idle_outside (by simp [hph]) i
    have hne : (taskOf (setPhaseBelow s.tasks .pending s.count.toNat) i).ts ≠ .finished := by
      rw [taskOf_setPhaseBelow]
      split <;> simp [hidle]
    exact (if_neg hne).symm

omit hs hb hph hpending in
/-- A batch starts with eighteen steps left for each block (R175 to R178). -/
theorem batchStepsLeft_start (dir : Direction) :
    batchStepsLeft (dropTurn (startBatch dir s)) = 18 * s.count.toNat := by
  have hall : ∀ i ∈ Finset.range s.count.toNat,
      stepsLeft (taskOf (setPhaseBelow s.tasks .pending s.count.toNat) i) = 18 := fun i hi => by
    rw [taskOf_setPhaseBelow, if_pos (Finset.mem_range.mp hi), stepsLeft]
  rw [startBatch_of_countLegal dir hcount]
  show ∑ i ∈ Finset.range s.count.toNat, stepsLeft (taskOf (setPhaseBelow s.tasks .pending s.count.toNat) i) = _
  rw [Finset.sum_congr rfl hall, Finset.sum_const, Finset.card_range, smul_eq_mul, mul_comm]

/-- An accepted array command runs to the end of its batch in one execute step, eighteen steps a block and one end step,
whatever the schedule and however many lanes (R192 to R197). -/
theorem run_arrayCommand {dir : Direction} (hcmd : decodeWord s.cmd = .command (arrayCommand dir)) :
    ∃ u, InBatch s dir u ∧ (∀ i, i < u.count.toNat → taskPhase u i = .finished) ∧
      Host.Core.run core (1 + 18 * s.count.toNat + 1) s = .next (endBatch u) := by
  have hstep : step s = .next (dropTurn (startBatch dir s)) := by
    rw [stepRunsDecodedCommand s (arrayCommand dir) hph (by rw [hcmd]; rfl) fun _ => hpending, exec_arrayCommand,
      startBatch_of_countLegal dir hcount, startBatch_of_countLegal (s := dropTurn s) dir hcount]
    rfl
  rw [Nat.add_assoc, Nat.add_comm 1, run_succ hstep]
  exact (inBatch_start hs hb hcount hph hpending dir).run_to_end _ (batchStepsLeft_start hcount dir)

end

/-- Settles O49: the state in which the batch ends, item by item. -/
theorem arrayCommandComputesItsFunction : Obligations.ArrayCommandComputesItsFunction := by
  intro s dir hs hb hcount hph hpending hcmd
  obtain ⟨u, hu, hfin, hrun⟩ := run_arrayCommand (dir := dir) hs hb hcount hph hpending (by
    rw [hcmd]; cases dir <;> rfl)
  rw [hu.count_eq] at hfin
  have htask : ∀ i, taskOf (endBatch u).tasks i =
      if i < s.count.toNat then { taskOf u.tasks i with ts := .idle } else taskOf u.tasks i := fun i => by
    rw [endBatch_tasks, taskOf_setPhaseBelow, hu.count_eq]
  have hout : (List.range s.count.toNat).map (readEntry (endBatch u) .output) =
      ((List.range s.count.toNat).map (readEntry s .input)).map (desBlock (bankOf s.key dir)) := by
    rw [List.map_map]
    exact List.map_congr_left fun i hi =>
      hu.readEntry_output (List.mem_range.mp hi) (hfin i (List.mem_range.mp hi))
  have hunchanged := unchanged_batchState s dir u.tasks u.outArr hu.resets
  rw [← hu.frame] at hunchanged
  refine ⟨endBatch u, hrun, rfl, rfl, (congrArg State.err hu.frame :), (congrArg State.skw hu.frame :), ?_, ?_,
    hu.sk_eq, (congrArg (fun t => (t.c, t.d)) hu.frame :), ?_, fun addr haddr => ?_, fun i => ?_, fun i hi => ?_,
    fun i hi => ?_, ?_⟩
  · rintro rfl; exact (congrArg State.skrev hu.frame :)
  · rintro rfl; exact (congrArg State.skrev hu.frame :)
  · rw [hout]; cases dir <;> rfl
  · exact hu.readByte_output_above haddr
  · exact (batchInv_endBatch hu.batch hu.ph_eq).idle_outside (by simp) i
  · rw [htask, if_pos hi, hu.taskOf_finished hi (hfin i hi)]
  · rw [htask, if_neg (Nat.not_lt.mpr hi), hu.tasks_above i hi]
  · exact UnchangedExcept.trans (UnchangedExcept.mono hunchanged (by simp))
      (UnchangedExcept.mono (endBatch_unchanged u) (by simp))

/-- Settles O50: both runs end where the one batch ends. -/
theorem scheduleIsInvisible : Obligations.ScheduleIsInvisible := by
  intro s sched lanes hs hb hcount hph hpending hcmd s' n
  obtain ⟨dir, hdir⟩ : ∃ dir, decodeWord s.cmd = .command (arrayCommand dir) :=
    hcmd.elim (fun h => ⟨.forward, h⟩) fun h => ⟨.reversed, h⟩
  have hs' : StorageInv s' :=
    ⟨hs.input_wf, hs.output_wf, hs.tasks_wf, hs.input_bound, hs.output_bound, hs.tasks_bound⟩
  have hb' : BatchInv s' := hb.outside (by simp [hph]) (by simp [s', hph]) rfl
  obtain ⟨u, hu, hfin, hrun⟩ := run_arrayCommand hs hb hcount hph hpending hdir
  obtain ⟨u', hu', hfin', hrun'⟩ := run_arrayCommand hs' hb' hcount hph hpending hdir
  have hu'' : InBatch s dir u' :=
    ⟨hu'.frame, hu'.resets, hu'.no_events, hu'.storage, hu'.batch, hu'.tasks_above, hu'.out⟩
  refine ⟨_, _, hrun, hrun', ?_⟩
  exact congrArg endBatch (hu.eq_of_finished hu'' hfin hfin')

end Sys2Proof
end

section
/-! PROOFS. The obligations of `45_padding_codec.md`: that `PAD` writes `pkcs5_padding` of the last block of `IN`, that
`CNTPAD` counts a well-formed pad, and that counting undoes padding. -/

namespace Sys2Proof

open Sys2Proof.Machine

/-! ## The two codec functions (R210, R211, R215) -/

/-- Byte `j` of a padded block: the pad length in the last `n` bytes, else the block's own byte (R210). -/
@[simp] theorem byteOf_pkcs5Padding (b : Block) (n : Nat) (j : Fin 8) :
    byteOf (pkcs5Padding b n) j = if 8 - n ≤ j.val then BitVec.ofNat 8 n else byteOf b j :=
  byteOf_blockOfBytes _ j

/-- A padded block ends in its pad (R210, R211). -/
theorem endsInPad_pkcs5Padding (b : Block) {n : Nat} (hlow : 1 ≤ n) (hhigh : n ≤ 8) :
    EndsInPad (pkcs5Padding b n) n :=
  ⟨hlow, hhigh, fun j hj => by rw [byteOf_pkcs5Padding, if_pos hj]⟩

/-- Settles O54: the padded block ends in its pad, which is what the count answers. -/
theorem countOfPaddedBlock : Obligations.CountOfPaddedBlock := by
  intro b n hlow hhigh
  refine ⟨(countPaddingBytes_eq_some_iff _ n).mpr (endsInPad_pkcs5Padding b hlow hhigh), fun j hj => ?_⟩
  rw [byteOf_pkcs5Padding, if_neg (Nat.not_le.mpr hj)]

/-! ## `CNTPAD` (R214) -/

/-- With a legal `COUNT` and a well-formed pad in the last block of `OUT`, `CNTPAD` writes its length to `RES` and ends
(R214). -/
theorem exec_cntpad_of_endsInPad {s : State} {n : Nat} (hcount : CountLegal s)
    (hpad : EndsInPad (readEntry s .output (lastIndex s)) n) :
    exec .cntpad s = .next (endCommand { s with res := BitVec.ofNat 64 n }) := by
  rw [exec, execCntpad, (countError?_eq_none_iff s).mpr hcount]
  simp only [(countPaddingBytes_eq_some_iff _ n).mpr hpad]

/-- Settles O53: the length, at most 8, fits `RES`. -/
theorem cntpadResult : Obligations.CntpadResult := by
  intro s n hcount hpad
  refine ⟨_, exec_cntpad_of_endsInPad hcount hpad, endCommand_setRes_ended s _, ?_⟩
  obtain ⟨-, hhigh, -⟩ := hpad
  exact (BitVec.toNat_ofNat n 64).trans (Nat.mod_eq_of_lt (by omega))

/-! ## `PAD` (R210, R212) -/

/-- A byte of `IN` after a pad of entry `i` is written: the pad length in the entry's last `n` bytes, else as it was
(R212). -/
theorem readByte_writePad (i n : Nat) (s : State) (addr : Nat) :
    readByte (writePad i n s) .input addr =
      if 8 * i + (8 - n) ≤ addr ∧ addr < 8 * i + 8 then BitVec.ofNat 8 n else readByte s .input addr := by
  split
  · next h =>
    obtain ⟨j, rfl⟩ : ∃ j : Fin 8, addr = byteAddr i j :=
      ⟨⟨addr - 8 * i, by omega⟩, by simp only [byteAddr]; omega⟩
    have hpad : 8 - n ≤ j.val := by simp only [byteAddr] at h; omega
    exact readByte_writeEntryBytes_of_mem s .input i _ _ j (by simpa using hpad)
  · next h =>
    refine readByte_writeEntryBytes_of_ne s .input .input i _ _ addr fun _ j hj haddr => h ?_
    have hpad : 8 - n ≤ j.val := by simpa using hj
    simp only [haddr, byteAddr]
    omega

/-- Byte `j` of an entry is the byte at its address (R63, R64). -/
theorem byteOf_readEntry (s : State) (a : BlockArray) (i : Nat) (j : Fin 8) :
    byteOf (readEntry s a i) j = readByte s a (byteAddr i j) :=
  byteOf_blockOfBytes _ j

/-- Writing a pad replaces the entry by `pkcs5_padding` of it (R210, R212). -/
theorem readEntry_writePad (i n : Nat) (s : State) :
    readEntry (writePad i n s) .input i = pkcs5Padding (readEntry s .input i) n := by
  apply block_ext
  intro j
  rw [byteOf_pkcs5Padding, byteOf_readEntry, byteOf_readEntry, readByte_writePad]
  exact if_congr (by simp only [byteAddr]; omega) rfl rfl

/-- Writing a pad changes `IN` alone (R212). -/
theorem unchanged_writePad (i n : Nat) (s : State) : UnchangedExcept [.input] s (writePad i n s) := by
  intro x hx
  cases x
  case input => exact absurd (List.mem_singleton_self _) hx
  case output => exact readByte_congr (writePad_outArr i n s) (by rw [writePad_env])
  all_goals simp [SameItem]

/-- Writing a pad changes no byte of `IN` but the entry's last `n` (R212). -/
theorem bytesUnchanged_writePad (i n : Nat) (s : State) :
    BytesUnchangedExcept .input i (8 - n) s (writePad i n s) := by
  intro addr haddr
  rw [readByte_writePad, if_neg (by omega)]

/-- With a legal argument and a legal `COUNT`, `PAD` writes the pad of the last block of `IN` and ends (R212). -/
theorem exec_pad_of_legal {s : State} {n : BitVec 8} (hn : 1 ≤ n.toNat ∧ n.toNat ≤ 8) (hcount : CountLegal s) :
    exec (.pad n) s = .next (endCommand (writePad (lastIndex s) n.toNat s)) := by
  rw [exec, execPad, padLength?_legal n hn]
  simp only [(countError?_eq_none_iff s).mpr hcount]

/-- Settles O52: the last block becomes its padding, which ends in the pad, and no other byte is written. -/
theorem padResult : Obligations.PadResult := by
  intro s n hlow hhigh hcount
  refine ⟨_, exec_pad_of_legal ⟨hlow, hhigh⟩ hcount, endCommand_ended (writePad_env _ _ s)
    (UnchangedExcept.mono (unchanged_writePad _ _ s) (by simp)), fun j hj => ?_, bytesUnchanged_writePad _ _ s⟩
  obtain ⟨-, -, hpad⟩ := endsInPad_pkcs5Padding (readEntry s .input (lastIndex s)) hlow hhigh
  calc byteOf (readEntry (writePad (lastIndex s) n.toNat s) .input (lastIndex s)) j
    _ = byteOf (pkcs5Padding (readEntry s .input (lastIndex s)) n.toNat) j := by rw [readEntry_writePad]
    _ = BitVec.ofNat 8 n.toNat := hpad j hj
    _ = n := by rw [BitVec.ofNat_toNat, BitVec.setWidth_eq]

end Sys2Proof
end

section
/-! PROOFS. The obligations of `60_exceptions.md`: which error each command posts and from which state, that an error
changes nothing else, that `ERR` and `STICKY` change only when a command is accepted or ends, and that no step is
stuck. -/

namespace Sys2Proof

open Sys2Proof.Machine

/-! ## The error of a command (R230, R239) -/

/-- What `BLOCK` and `REVKEYS` check: a full bank (R234). -/
def bankError? (s : State) : Option ErrCause := if s.skw = fullBankMask then none else some .nokeys

/-- What `CNTPAD` checks once `COUNT` is legal: the pad of the last block of `OUT` (R211, R235). -/
def padError? (s : State) : Option ErrCause :=
  if countPaddingBytes (readEntry s .output (lastIndex s)) = none then some .pad else none

/-- What a command with a legal argument checks of the state (R232 to R235). -/
def stateError? (s : State) : Instr → Option ErrCause
  | .encode | .decode | .pad _ => countError? s
  | .cntpad => (countError? s).or (padError? s)
  | .block | .revkeys => bankError? s
  | _ => none

/-- The error that a command posts from a state: that of its argument comes before every other (R238, R239). -/
def commandError? (i : Instr) (s : State) : Option ErrCause :=
  if i.wf then stateError? s i else some .operand

/-- The state in which an error is posted: that from before the command, but for `RES`, which a bad pad sets to 0
(R235, R236). -/
def beforeError (s : State) : ErrCause → State
  | .pad => { s with res := 0 }
  | _ => s

theorem commandError?_of_wf {i : Instr} (h : i.wf = true) (s : State) : commandError? i s = stateError? s i :=
  if_pos h

theorem commandError?_of_not_wf {i : Instr} (h : i.wf = false) (s : State) : commandError? i s = some .operand :=
  if_neg (Bool.eq_false_iff.mp h)

theorem bankError?_eq_some {s : State} {e : ErrCause} (h : bankError? s = some e) :
    s.skw ≠ fullBankMask ∧ .nokeys = e :=
  (Option.ite_none_left_eq_some.mp h).imp_right Option.some.inj

theorem bankError?_eq_none {s : State} (h : bankError? s = none) : s.skw = fullBankMask :=
  by_contra fun hskw => nomatch (if_neg hskw).symm.trans h

theorem padError?_eq_some {s : State} {e : ErrCause} (h : padError? s = some e) :
    countPaddingBytes (readEntry s .output (lastIndex s)) = none ∧ .pad = e :=
  (Option.ite_none_right_eq_some.mp h).imp_right Option.some.inj

theorem padError?_eq_none {s : State} (h : padError? s = none) :
    ∃ n, countPaddingBytes (readEntry s .output (lastIndex s)) = some n :=
  Option.ne_none_iff_exists'.mp fun hpad => nomatch (if_pos hpad).symm.trans h

/-! ### The legal arguments (R92) -/

theorem wf_perm_iff (t : BitVec 8) : (Instr.perm t).wf = true ↔ t.toNat ≤ 5 := decide_eq_true_iff

theorem wf_krot_iff (k : BitVec 8) : (Instr.krot k).wf = true ↔ 1 ≤ k.toNat ∧ k.toNat ≤ 16 := decide_eq_true_iff

theorem wf_kperm2_iff (k : BitVec 8) : (Instr.kperm2 k).wf = true ↔ 1 ≤ k.toNat ∧ k.toNat ≤ 16 := decide_eq_true_iff

theorem wf_pad_iff (n : BitVec 8) : (Instr.pad n).wf = true ↔ 1 ≤ n.toNat ∧ n.toNat ≤ 8 := decide_eq_true_iff

/-! ### The error is what the command posts -/

/-- A command with an argument out of range posts `ERR_OPERAND` (R96, R238). -/
theorem exec_of_not_wf {i : Instr} (h : i.wf = false) (s : State) : exec i s = .next (raiseErr .operand s) := by
  have hbad : ¬ i.wf = true := Bool.eq_false_iff.mp h
  cases i with
  | perm t =>
    rw [wf_perm_iff] at hbad
    rw [exec, execPerm, (tableSelect?_eq_none_iff t).mpr (by omega)]
  | krot k =>
    rw [wf_krot_iff] at hbad
    rw [exec, execKrot, (roundSelect?_eq_none_iff k).mpr (by omega)]
  | kperm2 k =>
    rw [wf_kperm2_iff] at hbad
    rw [exec, execKperm2, (roundSelect?_eq_none_iff k).mpr (by omega)]
  | pad n =>
    rw [wf_pad_iff] at hbad
    rw [exec, execPad, (padLength?_eq_none_iff n).mpr (by omega)]
  | _ => cases h

theorem startBatch_of_countError? (dir : Direction) {s : State} {e : ErrCause} (h : countError? s = some e) :
    startBatch dir s = raiseErr e s := by
  rw [startBatch, h]

/-- The checks of `COUNT` answer `ERR_COUNT` or `ERR_ALLOC`, so the state before such an error is kept whole. -/
theorem beforeError_of_countError? {s : State} {e : ErrCause} (h : countError? s = some e) : beforeError s e = s := by
  obtain rfl | rfl := countError?_cases s e h <;> rfl

/-- A check of the state that fails is posted (R232 to R236). -/
theorem exec_of_stateError? {i : Instr} {s : State} {e : ErrCause} (hwf : i.wf = true)
    (h : stateError? s i = some e) : exec i s = .next (raiseErr e (beforeError s e)) := by
  cases i with
  | encode =>
    rw [beforeError_of_countError? h, ← startBatch_of_countError? .forward h]
    exact exec_arrayCommand .forward s
  | decode =>
    rw [beforeError_of_countError? h, ← startBatch_of_countError? .reversed h]
    exact exec_arrayCommand .reversed s
  | pad n =>
    have hcount : countError? s = some e := h
    rw [beforeError_of_countError? hcount, exec, execPad, padLength?_legal n ((wf_pad_iff n).mp hwf)]
    simp only [hcount]
  | cntpad =>
    obtain hcount | ⟨hcount, hpad⟩ := Option.or_eq_some_iff.mp h
    · rw [beforeError_of_countError? hcount, exec, execCntpad, hcount]
    · obtain ⟨hnone, rfl⟩ := padError?_eq_some hpad
      rw [exec, execCntpad, hcount]
      simp only [hnone]
      rfl
  | block =>
    obtain ⟨hskw, rfl⟩ := bankError?_eq_some h
    exact if_neg hskw
  | revkeys =>
    obtain ⟨hskw, rfl⟩ := bankError?_eq_some h
    exact if_neg hskw
  | _ => cases h

/-- The error of a command is posted in the state from before it (R236). -/
theorem exec_of_commandError? {i : Instr} {s : State} {e : ErrCause} (h : commandError? i s = some e) :
    exec i s = .next (raiseErr e (beforeError s e)) := by
  cases hwf : i.wf with
  | false =>
    rw [commandError?_of_not_wf hwf] at h
    cases h
    exact exec_of_not_wf hwf s
  | true => exact exec_of_stateError? hwf (by rwa [commandError?_of_wf hwf] at h)

/-- A command whose checks of the state pass leaves `ERR` as it is (R98). -/
theorem exec_of_stateError?_eq_none {i : Instr} {s : State} (hwf : i.wf = true) (h : stateError? s i = none) :
    ∃ t, exec i s = .next t ∧ t.err = s.err := by
  cases i with
  | perm t =>
    rw [wf_perm_iff] at hwf
    obtain ⟨table, htable⟩ := Option.ne_none_iff_exists'.mp (mt (tableSelect?_eq_none_iff t).mp (by omega))
    exact ⟨_, exec_perm_of_tableSelect? htable s, rfl⟩
  | kperm1 => exact ⟨_, exec_kperm1 s, rfl⟩
  | krot k => exact ⟨_, exec_krot_of_roundSelect? (roundSelect?_legal k ((wf_krot_iff k).mp hwf)) s, rfl⟩
  | kperm2 k => exact ⟨_, exec_kperm2_of_roundSelect? (roundSelect?_legal k ((wf_kperm2_iff k).mp hwf)) s, rfl⟩
  | genkeys => exact ⟨_, exec_genkeys s, rfl⟩
  | revkeys => exact ⟨_, exec_revkeys_of_full (bankError?_eq_none h), rfl⟩
  | sbox => exact ⟨_, exec_sbox s, rfl⟩
  | feistel => exact ⟨_, exec_feistel s, rfl⟩
  | calcr => exact ⟨_, exec_calcr s, rfl⟩
  | block => exact ⟨_, exec_block_of_full (bankError?_eq_none h), rfl⟩
  | encode =>
    refine ⟨_, exec_arrayCommand .forward s, ?_⟩
    rw [startBatch_of_countLegal .forward ((countError?_eq_none_iff s).mp h)]
    rfl
  | decode =>
    refine ⟨_, exec_arrayCommand .reversed s, ?_⟩
    rw [startBatch_of_countLegal .reversed ((countError?_eq_none_iff s).mp h)]
    rfl
  | pad n =>
    exact ⟨_, exec_pad_of_legal ((wf_pad_iff n).mp hwf) ((countError?_eq_none_iff s).mp h), writePad_err _ _ s⟩
  | cntpad =>
    obtain ⟨hcount, hpad⟩ := Option.or_eq_none_iff.mp h
    obtain ⟨n, hn⟩ := padError?_eq_none hpad
    exact ⟨_, exec_cntpad_of_endsInPad ((countError?_eq_none_iff s).mp hcount)
      ((countPaddingBytes_eq_some_iff _ n).mp hn), rfl⟩

/-- A command without an error leaves `ERR` as it is (R98). -/
theorem exec_of_commandError?_eq_none {i : Instr} {s : State} (h : commandError? i s = none) :
    ∃ t, exec i s = .next t ∧ t.err = s.err := by
  cases hwf : i.wf with
  | false =>
    rw [commandError?_of_not_wf hwf] at h
    cases h
  | true => exact exec_of_stateError?_eq_none hwf (by rwa [commandError?_of_wf hwf] at h)

/-- Where an error of a command comes from: its argument, `COUNT`, the bank or the pad (R232 to R235, R238). An illegal
word is no command. -/
def ErrorSource (i : Instr) (s : State) : ErrCause → Prop
  | .illegal => False
  | .operand => i.wf = false
  | .count => countError? s = some .count
  | .alloc => countError? s = some .alloc
  | .nokeys => i = .block ∨ i = .revkeys
  | .pad => i = .cntpad

theorem errorSource_of_countError? {s : State} {e : ErrCause} (h : countError? s = some e) (i : Instr) :
    ErrorSource i s e := by
  obtain rfl | rfl := countError?_cases s e h <;> exact h

theorem errorSource_of_commandError? {i : Instr} {s : State} {e : ErrCause} (h : commandError? i s = some e) :
    ErrorSource i s e := by
  cases hwf : i.wf with
  | false =>
    rw [commandError?_of_not_wf hwf] at h
    cases h
    exact hwf
  | true =>
    rw [commandError?_of_wf hwf] at h
    cases i with
    | encode => exact errorSource_of_countError? h _
    | decode => exact errorSource_of_countError? h _
    | pad n => exact errorSource_of_countError? h _
    | cntpad =>
      obtain hcount | ⟨-, hpad⟩ := Option.or_eq_some_iff.mp h
      · exact errorSource_of_countError? hcount _
      · obtain ⟨-, rfl⟩ := padError?_eq_some hpad
        rfl
    | block =>
      obtain ⟨-, rfl⟩ := bankError?_eq_some h
      exact .inl rfl
    | revkeys =>
      obtain ⟨-, rfl⟩ := bankError?_eq_some h
      exact .inr rfl
    | _ => cases h

theorem errCode_injective : Function.Injective errCode := by
  intro a b h
  cases a <;> cases b <;> cases h <;> rfl

/-- An error that a command does not have is not there after it, unless it was there before (R230). -/
theorem exec_err_ne {i : Instr} {s : State} {e : ErrCause} (hs : s.err ≠ errCode e) (h : commandError? i s ≠ some e) :
    ∃ t, exec i s = .next t ∧ t.err ≠ errCode e := by
  cases hc : commandError? i s with
  | none =>
    obtain ⟨t, ht, herr⟩ := exec_of_commandError?_eq_none hc
    exact ⟨t, ht, herr ▸ hs⟩
  | some e' => exact ⟨_, exec_of_commandError? hc, fun he => h (errCode_injective he ▸ hc)⟩

/-! ## What posting an error leaves (R236) -/

/-- Any error but a bad pad is posted with nothing but the status changed (R236). -/
theorem posts_of_commandError? {i : Instr} {s : State} {e : ErrCause} (h : commandError? i s = some e)
    (he : e ≠ .pad) : ∃ t, exec i s = .next t ∧ PostedError (errCode e) [] s t := by
  have hbefore : beforeError s e = s := by
    cases e with
    | pad => exact absurd rfl he
    | _ => rfl
  exact ⟨_, exec_of_commandError? h, by rw [hbefore]; exact raiseErr_posts e s⟩

/-- A bad pad is posted with `RES` set to 0 besides (R214, R235). -/
theorem raiseErr_pad_posts (s : State) : PostedError 6 [.res] s (raiseErr .pad (beforeError s .pad)) := by
  refine ⟨rfl, rfl, rfl, rfl, rfl, UnchangedExcept.trans (UnchangedExcept.mono (unchanged_setRes s 0) (by simp)) ?_⟩
  obtain ⟨-, -, -, -, -, hframe⟩ := raiseErr_posts .pad (beforeError s .pad)
  exact UnchangedExcept.mono hframe (by simp)

/-- Settles O26: the command has the error it posts, and each is posted in the state from before it. -/
theorem errorsArePrecise : Obligations.ErrorsArePrecise := by
  intro s t i hs h hne
  cases hc : commandError? i s with
  | none =>
    obtain ⟨u, hu, herr⟩ := exec_of_commandError?_eq_none hc
    obtain rfl : u = t := by simpa [hu] using h
    exact absurd (herr.trans hs) hne
  | some e =>
    obtain rfl : raiseErr e (beforeError s e) = t := by simpa [exec_of_commandError? hc] using h
    have hsource := errorSource_of_commandError? hc
    cases e with
    | illegal => exact hsource.elim
    | pad => exact .inr ⟨rfl, hsource, rfl, raiseErr_pad_posts s⟩
    | _ => exact .inl ⟨by simp [errCode], by simp [errCode], raiseErr_posts _ s⟩

/-- Settles O25: with `COUNT` legal, the pad is what `CNTPAD` checks. -/
theorem badPadPostsError : Obligations.BadPadPostsError := by
  intro s hcount hpad
  have hnone : countPaddingBytes (readEntry s .output (lastIndex s)) = none :=
    Option.eq_none_iff_forall_ne_some.mpr fun n hn => hpad n ((countPaddingBytes_eq_some_iff _ n).mp hn)
  have herror : commandError? .cntpad s = some .pad :=
    Option.or_eq_some_iff.mpr (.inr ⟨(countError?_eq_none_iff s).mpr hcount, if_pos hnone⟩)
  exact ⟨_, exec_of_commandError? herror, rfl, raiseErr_pad_posts s⟩

/-- Settles O21: the argument is not legal. -/
theorem badArgumentPostsOperandError : Obligations.BadArgumentPostsOperandError := by
  intro s i a h
  have toNat_bad : ∀ n, a = 0 ∨ n ≤ a.toNat → a.toNat = 0 ∨ n ≤ a.toNat := fun _ => Or.imp_left (congrArg BitVec.toNat)
  have hwf : i.wf = false := by
    rw [Bool.eq_false_iff]
    obtain ⟨rfl, ha⟩ | ⟨rfl, ha⟩ | ⟨rfl, ha⟩ | ⟨rfl, ha⟩ := h
    · rw [Ne, wf_perm_iff]
      omega
    · rw [Ne, wf_krot_iff]
      have := toNat_bad 17 ha
      omega
    · rw [Ne, wf_kperm2_iff]
      have := toNat_bad 17 ha
      omega
    · rw [Ne, wf_pad_iff]
      have := toNat_bad 9 ha
      omega
  exact posts_of_commandError? (commandError?_of_not_wf hwf s) nofun

/-! ### The checks of `COUNT` (R232, R233) -/

/-- A command that checks `COUNT`, and is not stopped by its argument before (R232, R233, R239). -/
def ChecksCount (i : Instr) : Prop :=
  i = .encode ∨ i = .decode ∨ i = .cntpad ∨ (∃ n : BitVec 8, i = .pad n ∧ 1 ≤ n.toNat ∧ n.toNat ≤ 8)

theorem commandError?_of_checksCount {i : Instr} (hi : ChecksCount i) {s : State} {e : ErrCause}
    (h : countError? s = some e) : commandError? i s = some e := by
  obtain rfl | rfl | rfl | ⟨n, rfl, hn⟩ := hi
  · exact h
  · exact h
  · exact Option.or_eq_some_iff.mpr (.inl h)
  · rwa [commandError?_of_wf ((wf_pad_iff n).mpr hn)]

theorem posts_of_checksCount {i : Instr} (hi : ChecksCount i) {s : State} {e : ErrCause} (h : countError? s = some e) :
    ∃ t, exec i s = .next t ∧ PostedError (errCode e) [] s t :=
  posts_of_commandError? (commandError?_of_checksCount hi h) (by obtain rfl | rfl := countError?_cases s e h <;> nofun)

/-- Settles O22: the check of `COUNT` answers `ERR_COUNT`. -/
theorem zeroCountPostsError : Obligations.ZeroCountPostsError := fun s _ hi hzero =>
  posts_of_checksCount hi (countError?_zero s hzero)

/-- Settles O23: the check of `COUNT` answers `ERR_ALLOC`, and passes at `MAXBLOCKS`. -/
theorem countAboveCapacityPostsError : Obligations.CountAboveCapacityPostsError := by
  intro s i hi
  refine ⟨fun habove => posts_of_checksCount hi (countError?_above s habove), fun hcapacity hs => ?_⟩
  refine exec_err_ne (e := .alloc) hs fun herror => ?_
  have hlegal : CountLegal s := by
    refine ⟨fun hzero => ?_, hcapacity.le⟩
    rw [hzero, Params.maxBlocks] at hcapacity
    simp at hcapacity
  have hcount : countError? s = some .alloc := errorSource_of_commandError? herror
  rw [(countError?_eq_none_iff s).mpr hlegal] at hcount
  cases hcount

/-- Settles O24: `BLOCK` and `REVKEYS` check the bank, and no other command does. -/
theorem missingSubkeyPostsError : Obligations.MissingSubkeyPostsError := by
  refine ⟨fun s i hi hskw => ?_, fun s i hi hs => exec_err_ne (e := .nokeys) hs fun herror => ?_⟩
  · have herror : commandError? i s = some .nokeys := by
      obtain rfl | rfl := hi <;> exact if_neg hskw
    exact posts_of_commandError? herror nofun
  · have hbank : i = .block ∨ i = .revkeys := errorSource_of_commandError? herror
    obtain rfl | rfl := hi <;> simp at hbank

/-! ## Illegal words (R95, R237) -/

/-- With a command accepted the step of CTRL is the execute step (R98). -/
theorem ctrlStep_exec {s : State} (hph : s.ph = .exec) : ctrlStep s = executeStep s := by
  rw [ctrlStep, hph]

/-- A word that names no command ends with `ERR_ILLEGAL` (R95). -/
theorem executeStep_of_illegal {s : State} (h : (decodeWord s.cmd).instr? = none) :
    executeStep s = .next (raiseErr .illegal s) := by
  rw [executeStep, h]

/-- Settles O20: the word selects no row, so the decoder names no command. -/
theorem illegalWordPostsError : Obligations.IllegalWordPostsError := by
  intro s hph hnone
  have hinstr : (decodeWord s.cmd).instr? = none := by
    obtain ⟨r, hr, hsel, -⟩ | ⟨-, hillegal⟩ := decodeWord_cases s.cmd
    · exact absurd (by simpa [selects] using hsel) (hnone r hr)
    · rw [hillegal]; rfl
  exact ⟨_, (ctrlStep_exec hph).trans (executeStep_of_illegal hinstr), raiseErr_posts .illegal s⟩

/-! ## No step is stuck (R247) -/

theorem exec_total (i : Instr) (s : State) : ∃ t, exec i s = .next t := by
  cases hc : commandError? i s with
  | none => exact (exec_of_commandError?_eq_none hc).imp fun _ h => h.1
  | some e => exact ⟨_, exec_of_commandError? hc⟩

theorem executeStep_total (s : State) : ∃ t, executeStep s = .next t := by
  cases hinstr : (decodeWord s.cmd).instr? with
  | none => exact ⟨_, executeStep_of_illegal hinstr⟩
  | some i =>
    rw [executeStep, hinstr]
    exact exec_total i s

theorem ctrlStep_total (s : State) : ∃ t, ctrlStep s = .next t := by
  cases hph : s.ph with
  | idle => exact ⟨s, by rw [ctrlStep, hph]⟩
  | exec => rw [ctrlStep_exec hph]; exact executeStep_total s
  | batch => exact ⟨_, ctrlStep_batch hph⟩

/-- Settles O7, by the agent that steps. -/
theorem everyStepHasANextState : Obligations.EveryStepHasANextState := by
  intro s
  cases hnext : nextAgent? s with
  | none => exact ⟨dropTurn s, by rw [step, machineStep, hnext]⟩
  | some a =>
    rw [step_of_nextAgent hnext]
    cases a with
    | host => exact ⟨_, rfl⟩
    | ctrl => exact ctrlStep_total _
    | task i => exact ⟨_, rfl⟩

/-- Settles O8: in `EXEC` CTRL has a step; in a batch it has one once every task below `COUNT` is finished, and until
then one of these tasks has. -/
theorem busyBlockCanStep : Obligations.BusyBlockCanStep := by
  intro s hs hb hbusy
  cases hph : s.ph with
  | idle => exact absurd hph ((busy_eq_true_iff s).mp hbusy)
  | exec => exact .inl (by rw [ctrlEnabled, hph])
  | batch =>
    by_cases hfin : ∀ i, i < s.count.toNat → taskPhase s i = .finished
    · exact .inl ((ctrlEnabled_batch_iff hph).mpr hfin)
    · obtain ⟨i, hi, hne⟩ : ∃ i, i < s.count.toNat ∧ taskPhase s i ≠ .finished := by simpa using hfin
      obtain ⟨j, hj⟩ := exists_taskEnabled hs hb hph hi hne
      obtain ⟨-, hlt, -⟩ := (taskEnabled_iff j s).mp hj
      exact .inr ⟨j, hlt, hj⟩

/-! ## When `ERR` and `STICKY` change (R231) -/

/-- `ERR` and `STICKY` are in `t` what they were in `s`. -/
def SameErrors (s t : State) : Prop := t.sticky = s.sticky ∧ t.err = s.err

theorem sameErrors_taskStep (i : Nat) (s : State) : SameErrors s (taskStep i s) := by
  rw [taskStep_frame]
  exact ⟨rfl, rfl⟩

/-- A command that leaves CTRL busy has started a batch, which posts nothing (R193). -/
theorem sameErrors_exec {i : Instr} {s t : State} (h : exec i s = .next t) (hph : t.ph ≠ .idle) : SameErrors s t := by
  obtain ⟨e, rfl⟩ | ⟨-, rfl⟩ | ⟨dir, -, rfl⟩ | ⟨_, _, _, _, _, _, rfl, -⟩ | ⟨n, -, rfl⟩ := exec_cases h
  case inr.inr.inl => exact ⟨rfl, rfl⟩
  all_goals exact absurd rfl hph

/-- A step of CTRL that does not end the command posts nothing (R231). -/
theorem sameErrors_ctrlStep {s t : State} (h : ctrlStep s = .next t) (hph : t.ph ≠ .idle) : SameErrors s t := by
  obtain ⟨-, rfl⟩ | ⟨-, rfl⟩ | ⟨-, ⟨-, rfl⟩ | ⟨i, -, hexec⟩⟩ := ctrlStep_cases h
  · exact ⟨rfl, rfl⟩
  · exact absurd rfl hph
  · exact absurd rfl hph
  · exact sameErrors_exec hexec hph

/-- A write to the port leaves `ERR` and `STICKY`, unless `CMD` accepts it, which clears `ERR` (R61, R97). -/
theorem hostWrite_errors (idx : Nat) (v : Block) (s : State) :
    SameErrors s (hostWrite idx v s) ∨
    (s.ph = .idle ∧ idx = cmdIndex ∧ hostWrite idx v s = acceptCommand (v.setWidth 32) s) := by
  obtain he | haccept | ⟨-, _, _, _, _, he⟩ | ⟨-, i, -, he⟩ := hostWrite_cases idx v s
  · exact .inl (by rw [he]; exact ⟨rfl, rfl⟩)
  · exact .inr haccept
  · exact .inl (by rw [he]; exact ⟨rfl, rfl⟩)
  · exact .inl (by rw [he]; exact ⟨writeEntry_sticky _ _ _ _, writeEntry_err _ _ _ _⟩)

/-- The outside world leaves `ERR` and `STICKY`, unless it resets the block or has a command accepted (R97, R260). -/
theorem hostStep_errors (s : State) (hreset : s.env.pending.head? ≠ some .reset) :
    SameErrors s (hostStep s) ∨
    (s.ph = .idle ∧ ∃ v, s.env.pending.head? = some (.write cmdIndex v) ∧
      hostStep s = acceptCommand (v.setWidth 32) (dropEvent s)) := by
  obtain ⟨-, he⟩ | ⟨idx, _, -, he⟩ | ⟨idx, v, _, hp, he⟩ | ⟨_, -, he⟩ | ⟨_, hp, -⟩ := hostStep_cases s
  · exact .inl (by rw [he]; exact ⟨rfl, rfl⟩)
  · exact .inl (by rw [he]; exact ⟨rfl, rfl⟩)
  · rw [he]
    obtain hsame | ⟨hph, rfl, haccept⟩ := hostWrite_errors idx v (dropEvent s)
    · exact .inl hsame
    · exact .inr ⟨hph, v, by rw [hp]; rfl, haccept⟩
  · refine .inl ?_
    rw [he]
    split <;> exact ⟨rfl, rfl⟩
  · exact absurd (by rw [hp]; rfl) hreset

/-- Settles O11, by the agent that steps. -/
theorem onlyCommandsRaiseErrors : Obligations.OnlyCommandsRaiseErrors := by
  intro s t h hreset
  obtain ⟨hnext, rfl⟩ | ⟨hnext, rfl⟩ | ⟨hnext, hctrl⟩ | ⟨i, hnext, -, rfl⟩ := step_cases h
  · exact ⟨fun _ => ⟨rfl, fun hne => absurd rfl hne⟩, fun hc => by simp [hnext] at hc⟩
  · refine ⟨fun _ => ?_, fun hc => by simp [hnext] at hc⟩
    obtain ⟨hsticky, herr⟩ | ⟨hph, v, hp, haccept⟩ := hostStep_errors (dropTurn s) fun hp => hreset ⟨hnext, hp⟩
    · exact ⟨hsticky, fun hne => absurd herr hne⟩
    · rw [haccept]
      exact ⟨rfl, fun _ => ⟨rfl, hph, v, hnext, hp⟩⟩
  · exact ⟨fun hc => absurd hnext hc, fun _ hph => sameErrors_ctrlStep (s := dropTurn s) hctrl hph⟩
  · obtain ⟨hsticky, herr⟩ := sameErrors_taskStep i (dropTurn s)
    exact ⟨fun _ => ⟨hsticky, fun hne => absurd herr hne⟩, fun hc => by simp [hnext] at hc⟩

end Sys2Proof
end

section
/-! PROOFS. The obligations of `70_reset_and_hazards.md`: what reset leaves, and that nothing else clears `STICKY` or a
bit of `SKW`. -/

namespace Sys2Proof

open Sys2Proof.Machine

/-! ## Reset (R44, R260, R262) -/

/-- The step of a reset resets the block, whatever phase it is in (R260, R262). -/
theorem step_of_resetActs {s : State} (h : ResetActs s) : step s = .next (applyReset (atEvent s)) := by
  obtain ⟨r, hp⟩ := List.head?_eq_some_iff.mp h.2
  rw [step_of_nextAgent h.1, agentStep, hostStep, dropTurn_env, hp]
  rfl

/-- After a reset no byte of an array is listed, so each reads as the free value of the new count of resets (R44). -/
theorem readByte_applyReset (s : State) (a : BlockArray) (addr : Nat) :
    readByte (applyReset s) a addr = Config.unwrittenByte a (s.env.resets + 1) addr := by
  cases a <;> rfl

/-- Settles O18: but for the model's own fields the state reached is the state after reset. -/
theorem resetInOneStep : Obligations.ResetInOneStep := fun s h =>
  ⟨applyReset (atEvent s), step_of_resetActs h, rfl, rfl, rfl, rfl, rfl, rfl, rfl, rfl, sk_reset, rfl, rfl, rfl, rfl,
    rfl, rfl, statusWord_reset, taskOf_reset, readByte_applyReset (atEvent s), rfl⟩

/-! ## What only reset clears (R26, R28, R261) -/

/-- `STICKY` and each bit of `SKW` are 1 in `t` if they were 1 in `s`. -/
def KeepsMarks (s t : State) : Prop :=
  (s.sticky = true → t.sticky = true) ∧ ∀ b : Nat, s.skw.getLsbD b = true → t.skw.getLsbD b = true

/-- A step that writes neither register clears neither. -/
theorem KeepsMarks.of_eq {s t : State} (hsticky : t.sticky = s.sticky) (hskw : t.skw = s.skw) : KeepsMarks s t := by
  rw [KeepsMarks, hsticky, hskw]
  exact ⟨id, fun _ => id⟩

theorem SameBlock.keepsMarks {s t : State} (h : SameBlock s t) : KeepsMarks s t := by
  obtain ⟨e, rfl, -⟩ := h
  exact .of_eq rfl rfl

/-- Posting an error sets `STICKY` and leaves `SKW` (R236). -/
theorem keepsMarks_raiseErr (e : ErrCause) (s : State) : KeepsMarks s (raiseErr e s) := ⟨fun _ => rfl, fun _ => id⟩

/-- The mask of a full bank has every bit that any mask has (R26). -/
theorem getLsbD_fullBankMask_of_getLsbD {skw : BitVec 16} {b : Nat} (h : skw.getLsbD b = true) :
    fullBankMask.getLsbD b = true := by
  rw [← maskAfter_sixteen skw, getLsbD_maskAfter _ _ (BitVec.lt_of_getLsbD h), h, Bool.true_or]

/-- A command only adds to `SKW`, and writes `STICKY` only to set it (R26, R28). -/
theorem keepsMarks_exec {i : Instr} {s t : State} (h : exec i s = .next t) : KeepsMarks s t := by
  obtain ⟨e, rfl⟩ | ⟨-, rfl⟩ | ⟨dir, -, rfl⟩ | ⟨_, _, _, _, _, _, rfl, hskw⟩ | ⟨n, -, rfl⟩ := exec_cases h
  · exact keepsMarks_raiseErr e s
  · exact keepsMarks_raiseErr .pad { s with res := 0 }
  · exact ⟨id, fun _ => getLsbD_fullBankMask_of_getLsbD⟩
  · exact ⟨id, hskw⟩
  · exact .of_eq (writePad_sticky _ _ _) (writePad_skw _ _ _)

theorem keepsMarks_ctrlStep {s t : State} (h : ctrlStep s = .next t) : KeepsMarks s t := by
  obtain ⟨-, rfl⟩ | ⟨-, rfl⟩ | ⟨-, ⟨-, rfl⟩ | ⟨i, -, hexec⟩⟩ := ctrlStep_cases h
  · exact .of_eq rfl rfl
  · exact .of_eq rfl rfl
  · exact keepsMarks_raiseErr .illegal s
  · exact keepsMarks_exec hexec

theorem keepsMarks_taskStep (i : Nat) (s : State) : KeepsMarks s (taskStep i s) := by
  rw [taskStep_frame]
  exact .of_eq rfl rfl

/-- No write to the port reaches `STICKY` or `SKW`, accepting a command included (R61, R97). -/
theorem keepsMarks_hostWrite (idx : Nat) (v : Block) (s : State) : KeepsMarks s (hostWrite idx v s) := by
  obtain he | ⟨-, -, he⟩ | ⟨-, _, _, _, _, he⟩ | ⟨-, i, -, he⟩ := hostWrite_cases idx v s <;> rw [he]
  · exact .of_eq rfl rfl
  · exact .of_eq rfl rfl
  · exact .of_eq rfl rfl
  · exact .of_eq (writeEntry_sticky _ _ _ _) (writeEntry_skw _ _ _ _)

/-- The outside world clears neither, unless it resets the block. -/
theorem keepsMarks_hostStep {s : State} (hreset : s.env.pending.head? ≠ some .reset) : KeepsMarks s (hostStep s) := by
  obtain hsame | ⟨-, idx, v, he⟩ | ⟨hhead, -⟩ := hostStep_outcomes s
  · exact hsame.keepsMarks
  · rw [he]
    exact keepsMarks_hostWrite idx v (dropEvent s)
  · exact absurd hhead hreset

/-- Settles O10, by the agent that steps. -/
theorem onlyResetClearsStickyAndSkw : Obligations.OnlyResetClearsStickyAndSkw := by
  intro s t h hreset
  show KeepsMarks (dropTurn s) t
  obtain ⟨-, rfl⟩ | ⟨hnext, rfl⟩ | ⟨-, hctrl⟩ | ⟨i, -, -, rfl⟩ := step_cases h
  · exact .of_eq rfl rfl
  · exact keepsMarks_hostStep fun hhead => hreset ⟨hnext, hhead⟩
  · exact keepsMarks_ctrlStep hctrl
  · exact keepsMarks_taskStep i (dropTurn s)

end Sys2Proof
end
